-- ==== Sys2Proof/Word.lean ====
section
/-! DEFINITION. The word and byte types of HCSC (spec/10_state.md section 2, spec/20_memory.md R60): nothing else stands here. -/

namespace Sys2Proof

/-- A 32-bit register value, command word or device address (R7 `REG_WIDTH`, `ADDR_WIDTH`). -/
abbrev Word := BitVec 32

/-- One byte of device memory (R60: "each address holds one u8"). -/
abbrev Byte := BitVec 8

end Sys2Proof
end

