-- ==== Sys2Proof/Config.lean ====
section
/-! DEFINITION. The free values of the model: what the spec calls `havoc` or "any value"
(spec/00_scope.md R12, spec/93_implementation_defined.md I10 to I14). None has a body: nothing in
Lean can evaluate one, so every claim holds whatever they are. Each is applied to the counter
`State.draws`, which advances whenever a free value is drawn, so that two draws are unrelated. -/

namespace Sys2Proof.Config

/-- The byte that a write region holds at an address after `havoc` (R12, R237, R262): draw number, then
address. DESIGN CHOICE (notes/assumptions/2.md), safe. -/
opaque havocByte : Nat → Nat → Byte

/-- The byte another agent reads from a write region while a command is BUSY (R270, I14): draw number,
then address. DESIGN CHOICE (notes/assumptions/2.md), safe. -/
opaque racyByte : Nat → Nat → Byte

/-- Whether a command ends in BUS_ERROR because of a footprint byte that the platform does not answer and
that the command's pseudocode does not access (R70, I11: "any value of the two outcomes").
DESIGN CHOICE (notes/assumptions/3.md), safe. -/
opaque unaccessedBusError : Nat → Bool

end Sys2Proof.Config
end

