-- ==== Sys2Proof/Syntax.lean ====
section
/-! DEFINITION. The syntax of HCSC: the 14 commands (spec/30_encoding.md R83), the registers of the window
(spec/10_state.md section 2), the events the outside world can make happen (spec/60_exceptions.md R242) and
the host's program notation (spec/30_encoding.md R87, R88). -/

namespace Sys2Proof

/-- The commands of R83, one constructor per row of spec/opcode_table.json. No command word carries an
operand (R81: "no command word carries an immediate, a register number or an address"). -/
inductive Instr where
  | nop
  | hillCheck
  | hillInv
  | hillEnc
  | hillDec
  | sdesKey
  | sdesEnc
  | sdesDec
  | sdesF
  | sdesEncb
  | sdesDecb
  | lsbEmbed
  | lsbExtract
  | psnrSse
deriving DecidableEq, Repr

/-- The named registers of the window, in the order of the register map (spec/10_state.md section 2). -/
inductive Reg where
  | id | ctrl | status | cmd
  | hm00 | hm01 | hm10 | hm11 | hdet | hdetmod | hdetinv | hinv | hin | hout
  | skey | subk | sblk | sout | sfin | sfout
  | src | dst | ref | len | npix | paddr | pbits
  | cap | used | ptouch | sseLo | sseHi | xbits
deriving DecidableEq, Repr

/-- The width of a host access to the register window. Only `word` is part of the interface (R46, R62). -/
inductive Size where
  | byte | half | word
deriving DecidableEq, Repr

/-- One event offered to the machine: each is one atomic step (R242). Their order in `State.inputs` is one
interleaving. Every interleaving is some list (I21). -/
inductive Input where
  /-- The command engine moves: a command in BUSY completes (R235). -/
  | engine
  /-- A host write of `value` at the host address `addr` (R20(a), R62). -/
  | busWrite (size : Size) (addr : Nat) (value : Word)
  /-- A host read at the host address `addr` (R20(a), R62). -/
  | busRead (size : Size) (addr : Nat)
  /-- Another agent's store of one byte reaches the device memory space (R71(a), R270). -/
  | memWrite (addr : Word) (value : Byte)
  /-- Another agent reads one byte of the device memory space (R270). -/
  | memRead (addr : Word)
  /-- The host stores one byte through its own cache (R75). -/
  | hostStore (addr : Word) (value : Byte)
  /-- The host loads one byte through its own cache (R75). -/
  | hostLoad (addr : Word)
  /-- The host's cache writes a byte back to memory, by a cache operation or on its own (R75). -/
  | writeBack (addr : Word)
  /-- The host's cache drops its copy of a byte, by a cache operation or on its own (R75). -/
  | invalidate (addr : Word)
  /-- The `rst` input is asserted and released (R260; I28: one reset step). -/
  | rst
deriving DecidableEq, Repr

/-- One line of the host program notation: the bus transactions of R87 and the pseudo-instructions of R88.
`wait polls` is the poll loop in a run where `polls` reads find BUSY = 1 before the command completes. -/
inductive HostLine where
  | w (r : Reg) (value : Word)
  | r (r : Reg)
  | mem (addr : Word) (bytes : List Byte)
  | cmd (i : Instr)
  | wait (polls : Nat)
  | run (i : Instr) (polls : Nat)
  | clr
  | loadm (a b c d : Int)
  | loadkey (k : BitVec 10)
  | loadblk (b : Byte)
  | loadpair (c1 c2 : BitVec 5)
  /-- `CHK <REG>[hi:lo] == v`: a read whose comparison belongs to the program's end-state claim. -/
  | chk (r : Reg) (hi lo : Nat) (value : Nat)
deriving DecidableEq, Repr

end Sys2Proof
end

