-- ==== Sys2Proof/Machine/State.lean ====
section
/-! DEFINITION. The state of HCSC as plain data (spec/10_state.md), the parts of the platform the spec leaves
open (spec/00_scope.md R8), the pending outside events, and the reset state (R52, R260). Registers are held as
their defined fields: reserved bits read 0 and are never stored (R46, R47). -/

namespace Sys2Proof.Machine

/-- The error codes of R231, by name. Code 0 (NONE) is success and codes 13 to 15 are never produced (I6). -/
inductive ErrCode where
  | invalidKeyMatrix
  | invalidKeyLength
  | invalidBlockLength
  | capacityExceeded
  | delimiterNotFound
  | illegalCommand
  | invalidLetter
  | keyNotScheduled
  | regionOverlap
  | regionWrap
  | busError
deriving DecidableEq, Repr

/-- The operand registers (R47 lists them): the fields a host write stores. No command writes one. -/
structure Operands where
  /-- HM00[7:0] (R26). -/
  hm00 : Byte
  /-- HM01[7:0] (R26). -/
  hm01 : Byte
  /-- HM10[7:0] (R26). -/
  hm10 : Byte
  /-- HM11[7:0] (R26). -/
  hm11 : Byte
  /-- HIN.C1, bits [4:0] (R31). -/
  hinC1 : BitVec 5
  /-- HIN.C2, bits [12:8] (R31). -/
  hinC2 : BitVec 5
  /-- SKEY.KEY, bits [9:0] (R33). -/
  key : BitVec 10
  /-- SKEY.KLEN, bits [19:16] (R33). -/
  klen : BitVec 4
  /-- SBLK.BIN, bits [7:0] (R35). -/
  bin : Byte
  /-- SBLK.BLEN, bits [11:8] (R35). -/
  blen : BitVec 4
  /-- SFIN.FR, bits [3:0] (R37). -/
  fr : BitVec 4
  /-- SFIN.FK, bits [15:8] (R37). -/
  fk : Byte
  /-- SRC (R39). -/
  src : Word
  /-- DST (R39). -/
  dst : Word
  /-- REF (R39). -/
  ref : Word
  /-- LEN (R40). -/
  len : Word
  /-- NPIX (R41). -/
  npix : Word
  /-- PADDR (R42). -/
  paddr : Word
  /-- PBITS (R42). -/
  pbits : Word
deriving DecidableEq, Repr

/-- The result registers (R49 lists them) and the result flags of STATUS: only a completing command or a
reset changes them. -/
structure Results where
  /-- HDET (R27). -/
  hdet : Word
  /-- HDETMOD[4:0] (R28). -/
  hdetmod : BitVec 5
  /-- HDETINV[4:0] (R29). -/
  hdetinv : BitVec 5
  /-- HINV.i00, bits [4:0] (R30). -/
  i00 : BitVec 5
  /-- HINV.i01, bits [12:8] (R30). -/
  i01 : BitVec 5
  /-- HINV.i10, bits [20:16] (R30). -/
  i10 : BitVec 5
  /-- HINV.i11, bits [28:24] (R30). -/
  i11 : BitVec 5
  /-- HOUT.O1, bits [4:0] (R32). -/
  o1 : BitVec 5
  /-- HOUT.O2, bits [12:8] (R32). -/
  o2 : BitVec 5
  /-- SUBK.K1, bits [7:0] (R34). -/
  k1 : Byte
  /-- SUBK.K2, bits [15:8] (R34). -/
  k2 : Byte
  /-- SOUT.BOUT, bits [7:0] (R36). -/
  bout : Byte
  /-- SFOUT.FOUT, bits [3:0] (R38). -/
  fout : BitVec 4
  /-- CAP (R43). -/
  cap : Word
  /-- USED (R43). -/
  used : Word
  /-- PTOUCH (R43). -/
  ptouch : Word
  /-- SSE_LO (R44). -/
  sseLo : Word
  /-- SSE_HI (R44). -/
  sseHi : Word
  /-- XBITS (R45). -/
  xbits : Word
  /-- STATUS.HVALID, bit 8 (R24). -/
  hvalid : Bool
  /-- STATUS.KVALID, bit 9 (R24). -/
  kvalid : Bool
  /-- STATUS.PSNR_INF, bit 10 (R24). -/
  psnrInf : Bool
deriving DecidableEq, Repr

/-- The completion fields of STATUS (R24). BUSY is not stored: it is 1 exactly in phase BUSY (R21, R24). -/
structure Status where
  /-- DONE, bit 1. -/
  done : Bool
  /-- ERR, bit 2. -/
  err : Bool
  /-- WERR, bit 3. -/
  werr : Bool
  /-- ERRCODE, bits [7:4]. -/
  errcode : BitVec 4
deriving DecidableEq, Repr

/-- What acceptance snapshots (R234): every operand register, and SUBK and KVALID. -/
structure Snapshot where
  ops : Operands
  k1 : Byte
  k2 : Byte
  kvalid : Bool
deriving DecidableEq, Repr

/-- The command engine's phase (R21). -/
inductive Phase where
  | idle
  | busy (cmd : Word) (snap : Snapshot)
deriving DecidableEq, Repr

/-- A region `(base, len)` of the device memory space, in mathematical integers (R65). -/
structure Region where
  base : Nat
  len : Nat
deriving DecidableEq, Repr

/-- The open parameters of R8 that a run can depend on. No step changes them. -/
structure Platform where
  /-- HCSC_BASE: the window's base in the host's address space (R8, R77). -/
  base : Nat
  /-- The device addresses where MemOk is false (R8, R70). -/
  unanswered : List Region
  /-- The device addresses that are not ordinary memory: device FIFOs and the like (R69, I16). -/
  nonMemory : List Region
  /-- PLATFORM_COHERENT: the host's cache is coherent with the device's memory accesses (R8, R75, I18). -/
  coherent : Bool
deriving DecidableEq, Repr

/-- One byte held by the host's cache (R75): dirty while its value has not reached memory. -/
structure CachedByte where
  value : Byte
  dirty : Bool
deriving DecidableEq, Repr

/-- What an agent observed: a register read's value, or a memory read's byte. -/
inductive Observation where
  | reg (addr : Nat) (value : Word)
  | mem (addr : Word) (value : Byte)
deriving DecidableEq, Repr

/-- The whole machine. -/
structure State where
  /-- The operand registers (R47). -/
  ops : Operands
  /-- The result registers and result flags (R49). -/
  res : Results
  /-- The completion fields of STATUS (R24). -/
  status : Status
  /-- CTRL.IE (R23). CTRL.SRST always reads 0 and holds nothing. -/
  ie : Bool
  /-- The command engine's phase, with the accepted word and its snapshot (R21, R50). -/
  phase : Phase
  /-- The device memory space (R60), as the listed bytes in canonical form. -/
  mem : List Host.Cell
  /-- The platform's open parameters (R8). -/
  platform : Platform
  /-- The host's cache, as the bytes it holds, addresses strictly rising (R75). The platform's, not HCSC's: it is unused
  where PLATFORM_COHERENT holds (notes/assumptions/12.md). -/
  hostCache : List (Nat × CachedByte)
  /-- The outside events still to come, next first. The model's own field (notes/assumptions/5.md). -/
  inputs : List Input
  /-- What agents have read so far, newest first. The model's own field (notes/assumptions/13.md). -/
  observed : List Observation
  /-- How many free values have been drawn. The model's own field (notes/assumptions/2.md). -/
  draws : Nat
deriving DecidableEq, Repr

/-- Why the machine stops with a fault. -/
inductive Fault where
  /-- HazardFault (R270, I15, D53): another agent's store to a footprint byte of the command in BUSY.
  Raised by `hostMemWrite`, `hostStore` and `hostWriteBack`. Safe: the spec asks for it, and the run proves nothing. -/
  | hazard
  /-- The footprint of a command lies on memory with side effects or no memory at all (R69, I16: "fault").
  Raised by the memory commands after their eager checks, and by a reset that aborts one. Safe: the spec puts such
  a run outside the interface. -/
  | notMemory
deriving DecidableEq, Repr

/-- Why the machine refuses an input. -/
inductive Refusal where
  /-- An instruction without a meaning, by its mnemonic. Raised by an arm of `exec` only. Safe. -/
  | notModelled (mnemonic : String)
  /-- A byte, halfword or misaligned access to the register window (R46, R62, I7: "a model refuses it").
  Raised by `busWrite` and `busRead`. Safe. -/
  | narrowAccess
  /-- Another agent's access to a device address that is not ordinary memory: its behaviour belongs to the
  platform and the spec gives none (R69, I16). Raised by `hostMemWrite`, `hostMemRead` and the host's cached accesses. Safe. -/
  | platformDevice
deriving DecidableEq, Repr

/-- The operand registers after reset: all 0 (R52). -/
def Operands.zero : Operands where
  hm00 := 0
  hm01 := 0
  hm10 := 0
  hm11 := 0
  hinC1 := 0
  hinC2 := 0
  key := 0
  klen := 0
  bin := 0
  blen := 0
  fr := 0
  fk := 0
  src := 0
  dst := 0
  ref := 0
  len := 0
  npix := 0
  paddr := 0
  pbits := 0

/-- The result registers and flags after reset: all 0 (R52). -/
def Results.zero : Results where
  hdet := 0
  hdetmod := 0
  hdetinv := 0
  i00 := 0
  i01 := 0
  i10 := 0
  i11 := 0
  o1 := 0
  o2 := 0
  k1 := 0
  k2 := 0
  bout := 0
  fout := 0
  cap := 0
  used := 0
  ptouch := 0
  sseLo := 0
  sseHi := 0
  xbits := 0
  hvalid := false
  kvalid := false
  psnrInf := false

/-- The completion fields of STATUS after reset: all 0 (R52). -/
def Status.zero : Status where
  done := false
  err := false
  werr := false
  errcode := 0

/-- The platform of `State.reset`: window at host address 0, every byte answered, ordinary memory everywhere,
a coherent host. DESIGN CHOICE (notes/assumptions/4.md), unsafe: the spec leaves all four open (R8, R69). -/
def Platform.plain : Platform where
  base := 0
  unanswered := []
  nonMemory := []
  coherent := true

/-- The machine right after reset (R52, R260): every register field 0, phase IDLE. The device fetches nothing
(R21), so no event is pending. -/
def State.reset : State where
  ops := Operands.zero
  res := Results.zero
  status := Status.zero
  ie := false
  phase := .idle
  mem := []
  platform := Platform.plain
  hostCache := []
  inputs := []
  observed := []
  draws := 0

end Sys2Proof.Machine
end

