-- ==== Sys2Proof/Machine/Flags.lean ====
section
/-! DEFINITION. STATUS: the error codes (spec/60_exceptions.md R231), what acceptance and completion do to the
flags (R234, R235), write-1-to-clear (spec/10_state.md R24), the STATUS word, and the interrupt level (R240). -/

namespace Sys2Proof.Machine

/-- The value of an error code in ERRCODE (R231). Code 6 is reserved and has no constructor (R232). -/
def ErrCode.code : ErrCode → BitVec 4
  | .invalidKeyMatrix => 1
  | .invalidKeyLength => 2
  | .invalidBlockLength => 3
  | .capacityExceeded => 4
  | .delimiterNotFound => 5
  | .illegalCommand => 7
  | .invalidLetter => 8
  | .keyNotScheduled => 9
  | .regionOverlap => 10
  | .regionWrap => 11
  | .busError => 12

/-- Acceptance: DONE = 0, ERR = 0 and ERRCODE = 0, WERR unchanged (R234). -/
def Status.accepted (st : Status) : Status := { st with done := false, err := false, errcode := 0 }

/-- A successful completion: DONE = 1, ERR = 0 and ERRCODE = 0, WERR unchanged (R235). -/
def Status.succeeded (st : Status) : Status := { st with done := true, err := false, errcode := 0 }

/-- A completion with error code c: DONE = 1, ERR = 1 and ERRCODE = c, WERR unchanged (R235). -/
def Status.failed (st : Status) (c : ErrCode) : Status := { st with done := true, err := true, errcode := c.code }

/-- A dropped write sets WERR and nothing else (R239). -/
def Status.dropped (st : Status) : Status := { st with werr := true }

/-- A write to STATUS applies each W1C bit on its own (R24): bit 1 clears DONE, bit 2 clears ERR and ERRCODE,
bit 3 clears WERR. The other bits are read-only or reserved. -/
def Status.w1c (st : Status) (v : Word) : Status where
  done := st.done && !v.getLsbD 1
  err := st.err && !v.getLsbD 2
  werr := st.werr && !v.getLsbD 3
  errcode := if v.getLsbD 2 then 0 else st.errcode

/-- BUSY: 1 exactly while the engine is in phase BUSY (R24). -/
def Phase.isBusy : Phase → Bool
  | .idle => false
  | .busy _ _ => true

/-- A field placed at bit `lo` of a register word, the bits around it 0 (spec/10_state.md section 2). -/
def placed {n : Nat} (x : BitVec n) (lo : Nat) : Word := x.setWidth 32 <<< lo

/-- A flag placed at bit `lo` of a register word. -/
def flagAt (b : Bool) (lo : Nat) : Word := placed (BitVec.ofBool b) lo

/-- The STATUS word (R24): BUSY, DONE, ERR, WERR, ERRCODE, HVALID, KVALID, PSNR_INF. -/
def State.statusWord (s : State) : Word :=
  flagAt s.phase.isBusy 0 ||| flagAt s.status.done 1 ||| flagAt s.status.err 2 ||| flagAt s.status.werr 3
    ||| placed s.status.errcode 4 ||| flagAt s.res.hvalid 8 ||| flagAt s.res.kvalid 9 ||| flagAt s.res.psnrInf 10

/-- The interrupt level `irq = CTRL.IE & STATUS.DONE` (R240). -/
def State.irq (s : State) : Bool := s.ie && s.status.done

end Sys2Proof.Machine
end

