-- ==== Sys2Proof/WellFormed.lean ====
section
/-! DEFINITION. Which terms of the syntax are well formed. A command has no operand field, so every command
is (R81). A bus access must be an aligned 32-bit access (R46, R62), and the fields of a host line must fit
what the line stores (R87, R88). -/

namespace Sys2Proof

/-- Every command is well formed: its word is its opcode and nothing else (R81, R83). -/
def Instr.wellFormed : Instr → Bool
  | .nop | .hillCheck | .hillInv | .hillEnc | .hillDec
  | .sdesKey | .sdesEnc | .sdesDec | .sdesF | .sdesEncb | .sdesDecb
  | .lsbEmbed | .lsbExtract | .psnrSse => true

/-- A window offset is well formed for an access of this size: a 32-bit access at a multiple of 4 inside the
0x100-byte window (R46, R62). -/
def Size.wellFormedAt (size : Size) (offset : Nat) : Bool :=
  decide (size = .word) && offset % 4 == 0 && decide (offset < 0x100)

/-- The operands of a host line are ones the line can carry: a stored block of bytes stays inside the
32-bit device memory space (R60), and a CHK compares a field that a 32-bit register has (R87). -/
def HostLine.wellFormed : HostLine → Bool
  | .mem addr bytes => decide (addr.toNat + bytes.length ≤ 2 ^ 32)
  | .chk _ hi lo value => decide (hi < 32) && decide (lo ≤ hi) && decide (value < 2 ^ (hi - lo + 1))
  | .w _ _ | .r _ | .cmd _ | .wait _ | .run _ _ | .clr
  | .loadm _ _ _ _ | .loadkey _ | .loadblk _ | .loadpair _ _ => true

end Sys2Proof
end

