-- ==== Sys2Proof/Decode.lean ====
section
/-! DEFINITION. Decoding and encoding: the command word (spec/30_encoding.md R80 to R85) and the offsets of
the register window (spec/10_state.md section 2). -/

namespace Sys2Proof

/-- Why a word is no command (R85). Both end in ILLEGAL_COMMAND (R84, R238). -/
inductive DecodeError where
  /-- `w[31:8] ≠ 0`: illegal whatever its opcode (R80). -/
  | reservedBits
  /-- `w[7:0]` is none of the 14 assigned opcodes (R85). -/
  | unassignedOpcode
deriving DecidableEq, Repr

/-- The opcode map of R83, from the opcode byte to the command. -/
def opcodeToInstr : Nat → Option Instr
  | 0x00 => some .nop
  | 0x01 => some .hillCheck
  | 0x02 => some .hillInv
  | 0x03 => some .hillEnc
  | 0x04 => some .hillDec
  | 0x10 => some .sdesKey
  | 0x11 => some .sdesEnc
  | 0x12 => some .sdesDec
  | 0x13 => some .sdesF
  | 0x14 => some .sdesEncb
  | 0x15 => some .sdesDecb
  | 0x20 => some .lsbEmbed
  | 0x21 => some .lsbExtract
  | 0x22 => some .psnrSse
  | _ => none

/-- `decode(w)` of R84, a total function of the 32-bit word. -/
def decode (w : Word) : Except DecodeError Instr :=
  if w.extractLsb' 8 24 ≠ 0 then .error .reservedBits
  else
    match opcodeToInstr (w.extractLsb' 0 8).toNat with
    | some i => .ok i
    | none => .error .unassignedOpcode

/-- The opcode of a command (R83). -/
def opcode : Instr → BitVec 8
  | .nop => 0x00
  | .hillCheck => 0x01
  | .hillInv => 0x02
  | .hillEnc => 0x03
  | .hillDec => 0x04
  | .sdesKey => 0x10
  | .sdesEnc => 0x11
  | .sdesDec => 0x12
  | .sdesF => 0x13
  | .sdesEncb => 0x14
  | .sdesDecb => 0x15
  | .lsbEmbed => 0x20
  | .lsbExtract => 0x21
  | .psnrSse => 0x22

/-- The command word: `CMD == zext_32(OPC)` for every legal word (R83). -/
def encode (i : Instr) : Word := (opcode i).setWidth 32

/-- The command word whose low `nbits` bits are those of `w`, every bit above them 0. A command is one
32-bit number written to CMD (R80, R81): it has no byte order of its own. -/
def tableWord (nbits w : Nat) : Word := BitVec.ofNat 32 (w % 2 ^ nbits)

/-- The instruction the decoder reads from a word numbered as spec/opcode_table.json numbers it. -/
def decodeTableWord (nbits w : Nat) : Option Instr :=
  match decode (tableWord nbits w) with
  | .ok i => some i
  | .error _ => none

/-- The offset of a register in the window (spec/10_state.md section 2). -/
def regOffset : Reg → Nat
  | .id => 0x000
  | .ctrl => 0x004
  | .status => 0x008
  | .cmd => 0x00C
  | .hm00 => 0x010
  | .hm01 => 0x014
  | .hm10 => 0x018
  | .hm11 => 0x01C
  | .hdet => 0x020
  | .hdetmod => 0x024
  | .hdetinv => 0x028
  | .hinv => 0x02C
  | .hin => 0x030
  | .hout => 0x034
  | .skey => 0x040
  | .subk => 0x044
  | .sblk => 0x048
  | .sout => 0x04C
  | .sfin => 0x050
  | .sfout => 0x054
  | .src => 0x060
  | .dst => 0x064
  | .ref => 0x068
  | .len => 0x06C
  | .npix => 0x070
  | .paddr => 0x074
  | .pbits => 0x078
  | .cap => 0x07C
  | .used => 0x080
  | .ptouch => 0x084
  | .sseLo => 0x088
  | .sseHi => 0x08C
  | .xbits => 0x090

/-- The register at a window offset, or none for a reserved offset (spec/10_state.md section 2, last row). -/
def regAt : Nat → Option Reg
  | 0x000 => some .id
  | 0x004 => some .ctrl
  | 0x008 => some .status
  | 0x00C => some .cmd
  | 0x010 => some .hm00
  | 0x014 => some .hm01
  | 0x018 => some .hm10
  | 0x01C => some .hm11
  | 0x020 => some .hdet
  | 0x024 => some .hdetmod
  | 0x028 => some .hdetinv
  | 0x02C => some .hinv
  | 0x030 => some .hin
  | 0x034 => some .hout
  | 0x040 => some .skey
  | 0x044 => some .subk
  | 0x048 => some .sblk
  | 0x04C => some .sout
  | 0x050 => some .sfin
  | 0x054 => some .sfout
  | 0x060 => some .src
  | 0x064 => some .dst
  | 0x068 => some .ref
  | 0x06C => some .len
  | 0x070 => some .npix
  | 0x074 => some .paddr
  | 0x078 => some .pbits
  | 0x07C => some .cap
  | 0x080 => some .used
  | 0x084 => some .ptouch
  | 0x088 => some .sseLo
  | 0x08C => some .sseHi
  | 0x090 => some .xbits
  | _ => none

/-- The mnemonic of a command, as R83 and spec/opcode_table.json spell it. -/
def mnemonic : Instr → String
  | .nop => "NOP"
  | .hillCheck => "HILL_CHECK"
  | .hillInv => "HILL_INV"
  | .hillEnc => "HILL_ENC"
  | .hillDec => "HILL_DEC"
  | .sdesKey => "SDES_KEY"
  | .sdesEnc => "SDES_ENC"
  | .sdesDec => "SDES_DEC"
  | .sdesF => "SDES_F"
  | .sdesEncb => "SDES_ENCB"
  | .sdesDecb => "SDES_DECB"
  | .lsbEmbed => "LSB_EMBED"
  | .lsbExtract => "LSB_EXTRACT"
  | .psnrSse => "PSNR_SSE"

/-- The dotted spelling of a command (R89). R89 lists none for NOP. -/
def dottedMnemonic : Instr → String
  | .nop => "NOP"
  | .hillCheck => "HILL.CHECK"
  | .hillInv => "HILL.INV"
  | .hillEnc => "HILL.ENC"
  | .hillDec => "HILL.DEC"
  | .sdesKey => "SDES.KEY"
  | .sdesEnc => "SDES.ENC"
  | .sdesDec => "SDES.DEC"
  | .sdesF => "SDES.F"
  | .sdesEncb => "SDES.ENCB"
  | .sdesDecb => "SDES.DECB"
  | .lsbEmbed => "LSB.EMBED"
  | .lsbExtract => "LSB.EXTRACT"
  | .psnrSse => "PSNR.SSE"

/-- The 14 commands in the order of R83. -/
def allInstrs : List Instr :=
  [.nop, .hillCheck, .hillInv, .hillEnc, .hillDec, .sdesKey, .sdesEnc, .sdesDec, .sdesF, .sdesEncb, .sdesDecb,
   .lsbEmbed, .lsbExtract, .psnrSse]

/-- The command a mnemonic names, in either spelling (R89). -/
def instrNamed (name : String) : Option Instr :=
  allInstrs.find? (fun i => mnemonic i == name || dottedMnemonic i == name)

end Sys2Proof
end

