-- ==== Sys2Proof/Machine/Operands.lean ====
section
/-! DEFINITION. Operand assembly (spec/30_encoding.md R82) and the footprint each command has
(spec/20_memory.md R65 to R67). Lengths are mathematical integers: nothing here wraps. -/

namespace Sys2Proof.Machine

/-- The number of addresses of the device memory space (R60). -/
def addrSpace : Nat := 2 ^ 32

/-- `m00 = sint(HM00[7:0])` (R82). -/
def Snapshot.m00 (p : Snapshot) : Int := p.ops.hm00.toInt
/-- `m01 = sint(HM01[7:0])` (R82). -/
def Snapshot.m01 (p : Snapshot) : Int := p.ops.hm01.toInt
/-- `m10 = sint(HM10[7:0])` (R82). -/
def Snapshot.m10 (p : Snapshot) : Int := p.ops.hm10.toInt
/-- `m11 = sint(HM11[7:0])` (R82). -/
def Snapshot.m11 (p : Snapshot) : Int := p.ops.hm11.toInt
/-- `c1 = zext(HIN[4:0])` (R82). -/
def Snapshot.c1 (p : Snapshot) : Nat := p.ops.hinC1.toNat
/-- `c2 = zext(HIN[12:8])` (R82). -/
def Snapshot.c2 (p : Snapshot) : Nat := p.ops.hinC2.toNat
/-- The source address (R82). -/
def Snapshot.src (p : Snapshot) : Nat := p.ops.src.toNat
/-- The destination address (R82). -/
def Snapshot.dst (p : Snapshot) : Nat := p.ops.dst.toNat
/-- The address of the modified buffer (R82). -/
def Snapshot.ref (p : Snapshot) : Nat := p.ops.ref.toNat
/-- The payload address (R82). -/
def Snapshot.paddr (p : Snapshot) : Nat := p.ops.paddr.toNat
/-- L, the byte count (R82). -/
def Snapshot.byteCount (p : Snapshot) : Nat := p.ops.len.toNat
/-- N, the pixel count (R82). -/
def Snapshot.pixels (p : Snapshot) : Nat := p.ops.npix.toNat
/-- P, the payload length in bits (R82). -/
def Snapshot.payloadBits (p : Snapshot) : Nat := p.ops.pbits.toNat

/-- `U = P + 16`, the used-bit count (R160). -/
def Snapshot.usedBits (p : Snapshot) : Nat := p.payloadBits + 16
/-- `capacityBits = 3N` (R161). -/
def Snapshot.capacityBits (p : Snapshot) : Nat := 3 * p.pixels
/-- `4N`, the bytes of a PixelBuffer (R68). -/
def Snapshot.pixelBytes (p : Snapshot) : Nat := 4 * p.pixels
/-- `ceil(P/8)`, the bytes the payload stream occupies (R66, R150). -/
def Snapshot.payloadBytes (p : Snapshot) : Nat := (p.payloadBits + 7) / 8
/-- `XMAX = ceil(max(3N - 16, 0) / 8)` (R66). -/
def Snapshot.xmax (p : Snapshot) : Nat := (3 * p.pixels - 16 + 7) / 8

/-- Whether an address lies in a region (R65). -/
def Region.contains (r : Region) (a : Nat) : Bool := decide (r.base ≤ a) && decide (a < r.base + r.len)

/-- `n > 0` and `a + n > 2^32` (R65). -/
def Region.wraps (r : Region) : Bool := decide (0 < r.len) && decide (addrSpace < r.base + r.len)

/-- `n > 0`, `m > 0`, `a < b + m` and `b < a + n` (R67). -/
def Region.overlaps (r q : Region) : Bool :=
  decide (0 < r.len) && decide (0 < q.len) && decide (r.base < q.base + q.len) && decide (q.base < r.base + r.len)

/-- `(SRC, L)`. -/
def Snapshot.srcBlocks (p : Snapshot) : Region := ⟨p.src, p.byteCount⟩
/-- `(DST, L)`. -/
def Snapshot.dstBlocks (p : Snapshot) : Region := ⟨p.dst, p.byteCount⟩
/-- `(SRC, 4N)`. -/
def Snapshot.srcPixels (p : Snapshot) : Region := ⟨p.src, p.pixelBytes⟩
/-- `(DST, 4N)`. -/
def Snapshot.dstPixels (p : Snapshot) : Region := ⟨p.dst, p.pixelBytes⟩
/-- `(REF, 4N)`. -/
def Snapshot.refPixels (p : Snapshot) : Region := ⟨p.ref, p.pixelBytes⟩
/-- `(PADDR, ceil(P/8))`. -/
def Snapshot.payload (p : Snapshot) : Region := ⟨p.paddr, p.payloadBytes⟩
/-- `(DST, XMAX)`. -/
def Snapshot.extractOut (p : Snapshot) : Region := ⟨p.dst, p.xmax⟩

/-- The regions a command may read (R66). -/
def readRegions (i : Instr) (p : Snapshot) : List Region :=
  match i with
  | .sdesEncb => [p.srcBlocks]
  | .sdesDecb => [p.srcBlocks]
  | .lsbEmbed => [p.srcPixels, p.payload]
  | .lsbExtract => [p.srcPixels]
  | .psnrSse => [p.srcPixels, p.refPixels]
  | .nop | .hillCheck | .hillInv | .hillEnc | .hillDec | .sdesKey | .sdesEnc | .sdesDec | .sdesF => []

/-- The regions a command may write (R66). -/
def writeRegions (i : Instr) (p : Snapshot) : List Region :=
  match i with
  | .sdesEncb => [p.dstBlocks]
  | .sdesDecb => [p.dstBlocks]
  | .lsbEmbed => [p.dstPixels]
  | .lsbExtract => [p.extractOut]
  | .psnrSse => []
  | .nop | .hillCheck | .hillInv | .hillEnc | .hillDec | .sdesKey | .sdesEnc | .sdesDec | .sdesF => []

/-- The footprint of a command: its read regions, then its write regions (R66). -/
def footprint (i : Instr) (p : Snapshot) : List Region := readRegions i p ++ writeRegions i p

/-- Whether some region of a list contains an address. -/
def covers (rs : List Region) (a : Nat) : Bool := rs.any (fun r => r.contains a)

/-- Whether some region of one list overlaps some region of another (R67). -/
def anyOverlap (rs qs : List Region) : Bool := rs.any (fun r => qs.any (fun q => r.overlaps q))

/-- The write regions of the command in BUSY: none in IDLE, and none for an illegal word (R66, R238). -/
def Phase.writeRegions : Phase → List Region
  | .idle => []
  | .busy w p =>
    match decode w with
    | .ok i => Machine.writeRegions i p
    | .error _ => []

/-- The footprint of the command in BUSY: empty in IDLE, and empty for an illegal word (R66, R238). -/
def Phase.footprint : Phase → List Region
  | .idle => []
  | .busy w p =>
    match decode w with
    | .ok i => Machine.footprint i p
    | .error _ => []

/-- The snapshot taken at acceptance (R234): the operand registers, SUBK and KVALID as they stand. -/
def State.takeSnapshot (s : State) : Snapshot where
  ops := s.ops
  k1 := s.res.k1
  k2 := s.res.k2
  kvalid := s.res.kvalid

/-- The snapshot the executing command reads (R82): the one taken at acceptance. In IDLE, where no step
executes a command, the registers as they stand (notes/assumptions/7.md). -/
def State.inFlight (s : State) : Snapshot :=
  match s.phase with
  | .busy _ p => p
  | .idle => s.takeSnapshot

end Sys2Proof.Machine
end

