-- ==== Sys2Proof/Machine/Ops.lean ====
section
/-! DEFINITION. The shared operations: memory (spec/20_memory.md), acceptance and the three ways a command ends
(spec/60_exceptions.md R234 to R237, HCSC's form of taking an exception), bus errors (R70) and reset
(spec/70_reset_and_hazards.md R260 to R262). -/

namespace Sys2Proof.Machine

/-- What a byte of memory that nothing has written reads as. DESIGN CHOICE (notes/assumptions/1.md), unsafe:
the spec gives memory no reset contents (R52, R264). -/
def unlistedByte : Byte := 0

/-- One byte of memory (R63 `MemRead(a, 1)`). -/
def Memory.read : List Host.Cell → Nat → Byte
  | [], _ => unlistedByte
  | c :: rest, a => if c.1 = a then c.2 else Memory.read rest a

/-- A list of entries by address without one at an address. -/
def Memory.erase {α : Type} (m : List (Nat × α)) (a : Nat) : List (Nat × α) := m.filter (fun c => c.1 != a)

/-- A new entry, before the first entry of a higher address. -/
def Memory.insert {α : Type} : List (Nat × α) → Nat → α → List (Nat × α)
  | [], a, v => [(a, v)]
  | c :: rest, a, v => if a < c.1 then (a, v) :: c :: rest else c :: Memory.insert rest a v

/-- A one-byte write (R63 `MemWrite(a, 1, v)`), keeping the canonical form. -/
def Memory.write (m : List Host.Cell) (a : Nat) (v : Byte) : List Host.Cell :=
  if v = unlistedByte then Memory.erase m a else Memory.insert (Memory.erase m a) a v

/-- The `n` bytes from address `a` on, written in rising order; the byte at address x is `f x`. -/
def Memory.fill (m : List Host.Cell) (a n : Nat) (f : Nat → Byte) : List Host.Cell :=
  match n with
  | 0 => m
  | k + 1 => Memory.write (Memory.fill m a k f) (a + k) (f (a + k))

/-- The canonical form: addresses strictly rising and inside the address space (R60), no entry equal to what an
unlisted address reads as. -/
abbrev Memory.wf (m : List Host.Cell) : Prop :=
  m.Pairwise (fun c d => c.1 < d.1) ∧ ∀ c ∈ m, c.1 < addrSpace ∧ c.2 ≠ unlistedByte

/-- The host cache's copy of a byte, if it holds one (R75). -/
def Cache.read : List (Nat × CachedByte) → Nat → Option CachedByte
  | [], _ => none
  | c :: rest, a => if c.1 = a then some c.2 else Cache.read rest a

/-- The host cache with a byte's copy set. -/
def Cache.put (m : List (Nat × CachedByte)) (a : Nat) (c : CachedByte) : List (Nat × CachedByte) :=
  Memory.insert (Memory.erase m a) a c

/-- The canonical form of the host cache: addresses strictly rising and inside the address space. -/
abbrev Cache.wf (m : List (Nat × CachedByte)) : Prop :=
  m.Pairwise (fun c d => c.1 < d.1) ∧ ∀ c ∈ m, c.1 < addrSpace

/-- One byte of the machine's memory. -/
def State.byteAt (s : State) (a : Nat) : Byte := Memory.read s.mem a

/-- `havoc(region)` (R12): every byte of the region becomes a free value of the given draw. The part of a region
past the end of the address space has no bytes (R60). -/
def havocRegion (draw : Nat) (m : List Host.Cell) (r : Region) : List Host.Cell :=
  Memory.fill m r.base (min r.len (addrSpace - r.base)) (Config.havocByte draw)

/-- `havoc` of every region of a list. -/
def havocRegions (draw : Nat) (m : List Host.Cell) (rs : List Region) : List Host.Cell :=
  rs.foldl (havocRegion draw) m

/-- Acceptance of a command word (R234). Software reaches it only through a CMD write in IDLE (R25). -/
def State.accept (s : State) (w : Word) : State :=
  { s with phase := .busy w s.takeSnapshot, status := s.status.accepted }

/-- A successful completion (R235): results and memory committed, flags set and phase IDLE, as one step. -/
def State.commit (s : State) (res : Results) (mem : List Host.Cell) : State :=
  { s with res := res, mem := mem, status := s.status.succeeded, phase := .idle }

/-- `raise Error(c)` before any memory access (R236): only BUSY, DONE, ERR and ERRCODE change. -/
def State.fail (s : State) (c : ErrCode) : State :=
  { s with status := s.status.failed c, phase := .idle }

/-- An in-flight error (R237): as `State.fail`, and the command's write regions become havoc. -/
def State.failInFlight (s : State) (c : ErrCode) (regions : List Region) : State :=
  { s.fail c with mem := havocRegions s.draws s.mem regions, draws := s.draws + 1 }

/-- `MemOk(a)` (R8, R70). -/
def State.memOk (s : State) (a : Nat) : Bool := !covers s.platform.unanswered a

/-- Whether every address of a list is answered. -/
def State.allAnswered (s : State) (as : List Nat) : Bool := as.all s.memOk

/-- The memory phase of a command whose eager checks have passed. `accessed` holds the addresses its pseudocode
accesses and `finish` is its error-free end. A footprint on non-memory faults (R69, I16). An accessed byte that is
not answered ends in BUS_ERROR (R70). A footprint byte that is not answered and that the pseudocode does not access
ends in either outcome (I11, notes/assumptions/3.md). The fault's place is a DESIGN CHOICE (notes/assumptions/10.md), safe. -/
def State.memoryPhase (s : State) (i : Instr) (accessed : List Nat) (finish : State → State) :
    Host.Outcome State Fault Refusal :=
  let regions := footprint i s.inFlight
  if anyOverlap regions s.platform.nonMemory then .fault .notMemory
  else if !s.allAnswered accessed then .next (s.failInFlight .busError (writeRegions i s.inFlight))
  else if anyOverlap regions s.platform.unanswered then
    let drawn := { s with draws := s.draws + 1 }
    .next (if Config.unaccessedBusError s.draws then drawn.failInFlight .busError (writeRegions i s.inFlight)
      else finish drawn)
  else .next (finish s)

/-- The reset of R260 and R261: every register at its reset value and phase IDLE. A command in BUSY is aborted and
its write regions become havoc (R262); all other memory is unchanged (R264).
DEDUCED (notes/assumptions/11.md), safe. -/
def State.resetDevice (s : State) : State :=
  { s with
    ops := Operands.zero
    res := Results.zero
    status := Status.zero
    ie := false
    phase := .idle
    mem := havocRegions s.draws s.mem s.phase.writeRegions
    draws := if s.phase.isBusy then s.draws + 1 else s.draws }

/-- The reset as a step. Aborting a command whose footprint lies on non-memory is outside the interface (R69, I16). -/
def State.resetStep (s : State) : Host.Outcome State Fault Refusal :=
  if anyOverlap s.phase.footprint s.platform.nonMemory then .fault .notMemory else .next s.resetDevice

end Sys2Proof.Machine
end

