-- ==== Sys2Proof/Machine/Bus.lean ====
section
/-! DEFINITION. The register window (spec/10_state.md section 2 and rules R46 to R49): reads, writes, and the host's and other
agents' accesses as steps (spec/60_exceptions.md R242), those through the host's cache among them (spec/20_memory.md R75). -/

namespace Sys2Proof.Machine

/-- The word a register reads as (spec/10_state.md section 2): its fields, reserved bits 0 (R46). In BUSY a result
register still holds its value from before the command (R49): results are committed at completion only. -/
def readReg (s : State) : Reg → Word
  | .id => 0x48435301
  | .ctrl => flagAt s.ie 0
  | .status => s.statusWord
  | .cmd => 0
  | .hm00 => placed s.ops.hm00 0
  | .hm01 => placed s.ops.hm01 0
  | .hm10 => placed s.ops.hm10 0
  | .hm11 => placed s.ops.hm11 0
  | .hdet => s.res.hdet
  | .hdetmod => placed s.res.hdetmod 0
  | .hdetinv => placed s.res.hdetinv 0
  | .hinv => placed s.res.i00 0 ||| placed s.res.i01 8 ||| placed s.res.i10 16 ||| placed s.res.i11 24
  | .hin => placed s.ops.hinC1 0 ||| placed s.ops.hinC2 8
  | .hout => placed s.res.o1 0 ||| placed s.res.o2 8
  | .skey => placed s.ops.key 0 ||| placed s.ops.klen 16
  | .subk => placed s.res.k1 0 ||| placed s.res.k2 8
  | .sblk => placed s.ops.bin 0 ||| placed s.ops.blen 8
  | .sout => placed s.res.bout 0
  | .sfin => placed s.ops.fr 0 ||| placed s.ops.fk 8
  | .sfout => placed s.res.fout 0
  | .src => s.ops.src
  | .dst => s.ops.dst
  | .ref => s.ops.ref
  | .len => s.ops.len
  | .npix => s.ops.npix
  | .paddr => s.ops.paddr
  | .pbits => s.ops.pbits
  | .cap => s.res.cap
  | .used => s.res.used
  | .ptouch => s.res.ptouch
  | .sseLo => s.res.sseLo
  | .sseHi => s.res.sseHi
  | .xbits => s.res.xbits

/-- The word a window offset reads as; a reserved offset reads 0 (R46). -/
def readOffset (s : State) (offset : Nat) : Word :=
  match regAt offset with
  | some r => readReg s r
  | none => 0

/-- What a write in IDLE stores (R47): the written value's bits at the field positions of an RW register. A write to
a read-only register is ignored (R46). -/
def Operands.stored (o : Operands) (r : Reg) (v : Word) : Operands :=
  match r with
  | .hm00 => { o with hm00 := v.extractLsb' 0 8 }
  | .hm01 => { o with hm01 := v.extractLsb' 0 8 }
  | .hm10 => { o with hm10 := v.extractLsb' 0 8 }
  | .hm11 => { o with hm11 := v.extractLsb' 0 8 }
  | .hin => { o with hinC1 := v.extractLsb' 0 5, hinC2 := v.extractLsb' 8 5 }
  | .skey => { o with key := v.extractLsb' 0 10, klen := v.extractLsb' 16 4 }
  | .sblk => { o with bin := v.extractLsb' 0 8, blen := v.extractLsb' 8 4 }
  | .sfin => { o with fr := v.extractLsb' 0 4, fk := v.extractLsb' 8 8 }
  | .src => { o with src := v }
  | .dst => { o with dst := v }
  | .ref => { o with ref := v }
  | .len => { o with len := v }
  | .npix => { o with npix := v }
  | .paddr => { o with paddr := v }
  | .pbits => { o with pbits := v }
  | .id | .ctrl | .status | .cmd | .hdet | .hdetmod | .hdetinv | .hinv | .hout | .subk | .sout | .sfout
  | .cap | .used | .ptouch | .sseLo | .sseHi | .xbits => o

/-- A write to CTRL, taken in any phase (R23, R48): SRST = 1 resets the device, and otherwise bit 0 is IE. -/
def writeCtrl (s : State) (v : Word) : Host.Outcome State Fault Refusal :=
  if v.getLsbD 1 then s.resetStep else .next { s with ie := v.getLsbD 0 }

/-- A write to an offset other than CTRL and STATUS. In BUSY it is dropped and sets WERR, whatever the offset (R48,
R239). In IDLE a CMD write is accepted (R234) and any other write stores operand fields (R47). -/
def writePlain (s : State) (r : Option Reg) (v : Word) : State :=
  match s.phase with
  | .busy _ _ => { s with status := s.status.dropped }
  | .idle =>
    match r with
    | some .cmd => s.accept v
    | some r => { s with ops := s.ops.stored r v }
    | none => s

/-- A 32-bit write at a window offset (spec/10_state.md section 2). -/
def writeOffset (s : State) (offset : Nat) (v : Word) : Host.Outcome State Fault Refusal :=
  match regAt offset with
  | some .ctrl => writeCtrl s v
  | some .status => .next { s with status := s.status.w1c v }
  | r => .next (writePlain s r v)

/-- How many bytes an access covers. -/
def sizeBytes : Size → Nat
  | .byte => 1
  | .half => 2
  | .word => 4

/-- Where a host access falls. -/
inductive Target where
  /-- No byte of the window: the device does not decode it (I8). -/
  | elsewhere
  /-- An aligned 32-bit access at a window offset (R62). -/
  | window (offset : Nat)
  /-- Any other access that touches the window: outside the interface (R46, R62, I7). -/
  | outside
deriving DecidableEq, Repr

/-- Where a host access of a size at a host address falls, for the window at `s.platform.base` (R61, R62, R77).
DEDUCED (notes/assumptions/8.md, safe, and notes/assumptions/15.md). -/
def State.target (s : State) (size : Size) (addr : Nat) : Target :=
  if addr + sizeBytes size ≤ s.platform.base ∨ s.platform.base + 0x100 ≤ addr then .elsewhere
  else if decide (s.platform.base ≤ addr) && size.wellFormedAt (addr - s.platform.base) then
    .window (addr - s.platform.base)
  else .outside

/-- A host write as a step (R62, R242). -/
def busWrite (s : State) (size : Size) (addr : Nat) (v : Word) : Host.Outcome State Fault Refusal :=
  match s.target size addr with
  | .elsewhere => .next s
  | .window offset => writeOffset s offset v
  | .outside => .refused .narrowAccess

/-- A host read as a step: no side effect (R69), and the value goes to the host. -/
def busRead (s : State) (size : Size) (addr : Nat) : Host.Outcome State Fault Refusal :=
  match s.target size addr with
  | .elsewhere => .next s
  | .window offset => .next { s with observed := .reg addr (readOffset s offset) :: s.observed }
  | .outside => .refused .narrowAccess

/-- Another agent's store of one byte, reaching memory (R270, R71(a)). On a footprint byte of the command in BUSY it is a
HazardFault, whatever stands there. DEDUCED (notes/assumptions/9.md), safe. -/
def hostMemWrite (s : State) (addr : Word) (v : Byte) : Host.Outcome State Fault Refusal :=
  if covers s.phase.footprint addr.toNat then .fault .hazard
  else if covers s.platform.nonMemory addr.toNat then .refused .platformDevice
  else .next { s with mem := Memory.write s.mem addr.toNat v }

/-- An agent gets the value of a byte it read. -/
def State.observe (s : State) (addr : Word) (v : Byte) : State := { s with observed := .mem addr v :: s.observed }

/-- A read of one byte that holds `held` (R270): `got` goes on with a free value from a write region of the command in BUSY,
and elsewhere with the byte held, when it is ordinary memory. -/
def State.readByte (s : State) (addr : Word) (held : Byte) (got : State → Byte → State) :
    Host.Outcome State Fault Refusal :=
  if covers s.phase.writeRegions addr.toNat then
    .next (got { s with draws := s.draws + 1 } (Config.racyByte s.draws addr.toNat))
  else if covers s.platform.nonMemory addr.toNat then .refused .platformDevice
  else .next (got s held)

/-- Another agent's read of one byte of memory (R270). -/
def hostMemRead (s : State) (addr : Word) : Host.Outcome State Fault Refusal :=
  s.readByte addr (s.byteAt addr.toNat) fun t v => t.observe addr v

/-- The host stores one byte (R75). On a coherent platform the store reaches memory. On any other it stays in the host's
cache until it is written back, and on a footprint byte of the command in BUSY it is already the hazard of R270.
DESIGN CHOICE (notes/assumptions/12.md). -/
def hostStore (s : State) (addr : Word) (v : Byte) : Host.Outcome State Fault Refusal :=
  if s.platform.coherent then hostMemWrite s addr v
  else if covers s.phase.footprint addr.toNat then .fault .hazard
  else if covers s.platform.nonMemory addr.toNat then .refused .platformDevice
  else .next { s with hostCache := Cache.put s.hostCache addr.toNat ⟨v, true⟩ }

/-- The host loads one byte (R75). On a coherent platform it reads memory. On any other it gets its cache's copy, and with
no copy it reads memory and keeps what it got. DESIGN CHOICE (notes/assumptions/12.md). -/
def hostLoad (s : State) (addr : Word) : Host.Outcome State Fault Refusal :=
  if s.platform.coherent then hostMemRead s addr
  else
    match Cache.read s.hostCache addr.toNat with
    | some c => s.readByte addr c.value fun t v => t.observe addr v
    | none => s.readByte addr (s.byteAt addr.toNat) fun t v =>
        State.observe { t with hostCache := Cache.put t.hostCache addr.toNat ⟨v, false⟩ } addr v

/-- The host's cache writes one byte back (R75): a dirty copy reaches memory and stays as a clean one. With no dirty copy,
and on a coherent platform, nothing happens. -/
def hostWriteBack (s : State) (addr : Word) : Host.Outcome State Fault Refusal :=
  if s.platform.coherent then .next s
  else
    match Cache.read s.hostCache addr.toNat with
    | some ⟨v, true⟩ =>
      hostMemWrite { s with hostCache := Cache.put s.hostCache addr.toNat ⟨v, false⟩ } addr v
    | some ⟨_, false⟩ => .next s
    | none => .next s

/-- The host's cache drops its copy of one byte (R75). On a coherent platform nothing happens. -/
def hostInvalidate (s : State) (addr : Word) : State :=
  if s.platform.coherent then s else { s with hostCache := Memory.erase s.hostCache addr.toNat }

end Sys2Proof.Machine
end

