-- ==== Sys2Proof/Machine/Control.lean ====
section
/-! DEFINITION. NOP (spec/44_control.md R190) and the completion of an illegal word (spec/60_exceptions.md R238). -/

namespace Sys2Proof.Machine

/-- NOP (R190): "complete", no register or memory written. -/
def execNop (s : State) : Host.Outcome State Fault Refusal := .next (s.commit s.res s.mem)

/-- The completion of an illegal word (R238): ERR = 1, ERRCODE = 7 and nothing else. -/
def execIllegal (s : State) : Host.Outcome State Fault Refusal := .next (s.fail .illegalCommand)

end Sys2Proof.Machine
end

