-- ==== Sys2Proof/Machine/Feistel.lean ====
section
/-! DEFINITION. The Feistel unit (spec/41_feistel.md): the fixed tables, the key schedule, the round function, the
block function, and the commands SDES_KEY, SDES_ENC, SDES_DEC, SDES_F, SDES_ENCB and SDES_DECB. -/

namespace Sys2Proof.Machine

/-- P10 (R120). -/
def tableP10 : List Nat := [3, 5, 2, 7, 4, 10, 1, 9, 8, 6]
/-- P8 (R120). -/
def tableP8 : List Nat := [6, 3, 7, 4, 8, 5, 10, 9]
/-- IP (R120). -/
def tableIP : List Nat := [2, 6, 3, 1, 4, 8, 5, 7]
/-- IP⁻¹ (R120). -/
def tableIPInv : List Nat := [4, 1, 3, 5, 7, 2, 8, 6]
/-- EP (R120). -/
def tableEP : List Nat := [4, 1, 2, 3, 2, 3, 4, 1]
/-- P4 (R120). -/
def tableP4 : List Nat := [2, 4, 3, 1]
/-- S0, row by row (R120). -/
def boxS0 : List (List Nat) := [[1, 0, 3, 2], [3, 2, 1, 0], [0, 2, 1, 3], [3, 1, 3, 2]]
/-- S1, row by row (R120). -/
def boxS1 : List (List Nat) := [[0, 1, 2, 3], [2, 0, 1, 3], [3, 0, 1, 0], [2, 1, 0, 3]]

/-- `perm_T(v)` (R10): of an n-bit value, the m-bit value whose bit m-j is bit n-T[j] of v, the first position
of the table giving the most significant bit. -/
def perm {n : Nat} (m : Nat) (table : List Nat) (v : BitVec n) : BitVec m :=
  table.foldl (fun acc pos => acc.shiftConcat (v.getLsbD (n - pos))) 0

/-- `rol5(h, s) = ((h << s) | (h >> (5-s)))[4:0]` (R10). -/
def rol5 (h : BitVec 5) (s : Nat) : BitVec 5 := (h <<< s) ||| (h >>> (5 - s))

/-- The two rotated halves after P10 and the left rotation by `s` places from the unrotated halves. -/
def rotatedHalves (key : BitVec 10) (s : Nat) : BitVec 10 :=
  rol5 ((perm 10 tableP10 key).extractLsb' 5 5) s ++ rol5 ((perm 10 tableP10 key).extractLsb' 0 5) s

/-- K1 of `sdes_keys` (R122): both halves rotated left by 1, then P8. -/
def subkey1 (key : BitVec 10) : Byte := perm 8 tableP8 (rotatedHalves key 1)

/-- K2 of `sdes_keys` (R122): the halves already rotated by 1 are rotated by 2 more, then P8. -/
def subkey2 (key : BitVec 10) : Byte :=
  perm 8 tableP8
    (rol5 ((rotatedHalves key 1).extractLsb' 5 5) 2 ++ rol5 ((rotatedHalves key 1).extractLsb' 0 5) 2 : BitVec 10)

/-- `sbox(S, g)` (R123): row {g[3], g[0]}, column {g[2], g[1]}. -/
def sbox (table : List (List Nat)) (g : BitVec 4) : BitVec 2 :=
  BitVec.ofNat 2 ((table.getD (2 * (g.getLsbD 3).toNat + (g.getLsbD 0).toNat) []).getD
    (2 * (g.getLsbD 2).toNat + (g.getLsbD 1).toNat) 0)

/-- The S-box stage of the round function on the 8-bit XOR (R125): the left group goes to S0, the right to S1. -/
def sboxStage (x : Byte) : BitVec 4 := sbox boxS0 (x.extractLsb' 4 4) ++ sbox boxS1 (x.extractLsb' 0 4)

/-- `sdes_f(r, k)` (R125). -/
def sdesF (r : BitVec 4) (k : Byte) : BitVec 4 := perm 4 tableP4 (sboxStage (perm 8 tableEP r ^^^ k))

/-- The two rounds of the block function on the halves (R125), giving {L2, R2}: no swap after round 2. -/
def sdesRounds (l r : BitVec 4) (ka kb : Byte) : Byte :=
  let r1 := l ^^^ sdesF r ka
  (r ^^^ sdesF r1 kb) ++ r1

/-- `sdes_block(b, ka, kb)` (R125). -/
def sdesBlock (b ka kb : Byte) : Byte :=
  perm 8 tableIPInv
    (sdesRounds ((perm 8 tableIP b).extractLsb' 4 4) ((perm 8 tableIP b).extractLsb' 0 4) ka kb)

/-- SDES_KEY (R124). -/
def execSdesKey (s : State) : Host.Outcome State Fault Refusal :=
  let p := s.inFlight
  if p.ops.klen ≠ 10 then .next (s.fail .invalidKeyLength)
  else .next (s.commit { s.res with k1 := subkey1 p.ops.key, k2 := subkey2 p.ops.key, kvalid := true } s.mem)

/-- One block through the cipher with the given subkey order: the checks and the result of SDES_ENC and SDES_DEC
(R126, R127). -/
def blockCommand (s : State) (ka kb : Byte) : Host.Outcome State Fault Refusal :=
  let p := s.inFlight
  if !p.kvalid then .next (s.fail .keyNotScheduled)
  else if p.ops.blen ≠ 8 then .next (s.fail .invalidBlockLength)
  else .next (s.commit { s.res with bout := sdesBlock p.ops.bin ka kb } s.mem)

/-- SDES_ENC (R126): K1, then K2. -/
def execSdesEnc (s : State) : Host.Outcome State Fault Refusal := blockCommand s s.inFlight.k1 s.inFlight.k2

/-- SDES_DEC (R127): "K2 first". -/
def execSdesDec (s : State) : Host.Outcome State Fault Refusal := blockCommand s s.inFlight.k2 s.inFlight.k1

/-- SDES_F (R128): no checks, and no scheduled key is needed. -/
def execSdesF (s : State) : Host.Outcome State Fault Refusal :=
  .next (s.commit { s.res with fout := sdesF s.inFlight.ops.fr s.inFlight.ops.fk } s.mem)

/-- The memory after a buffer command (R129): the byte at DST+i is the image of the byte at SRC+i as it was before. -/
def bufferImage (m : List Host.Cell) (p : Snapshot) (f : Byte → Byte) : List Host.Cell :=
  Memory.fill m p.dst p.byteCount (fun x => f (Memory.read m (p.src + (x - p.dst))))

/-- The addresses a buffer command accesses (R129): L bytes from SRC and L bytes from DST. -/
def bufferAccesses (p : Snapshot) : List Nat :=
  (List.range p.byteCount).map (p.src + ·) ++ (List.range p.byteCount).map (p.dst + ·)

/-- A byte buffer through a byte function: the checks, in order, and the effect of SDES_ENCB and SDES_DECB
(R129, R130). Exact in-place processing is allowed (D43). -/
def bufferCommand (i : Instr) (s : State) (f : Byte → Byte) : Host.Outcome State Fault Refusal :=
  let p := s.inFlight
  if !p.kvalid then .next (s.fail .keyNotScheduled)
  else if p.srcBlocks.wraps || p.dstBlocks.wraps then .next (s.fail .regionWrap)
  else if p.ops.src != p.ops.dst && p.srcBlocks.overlaps p.dstBlocks then .next (s.fail .regionOverlap)
  else s.memoryPhase i (bufferAccesses p) (fun t => t.commit t.res (bufferImage t.mem p f))

/-- SDES_ENCB (R129). -/
def execSdesEncb (s : State) : Host.Outcome State Fault Refusal :=
  bufferCommand .sdesEncb s (fun b => sdesBlock b s.inFlight.k1 s.inFlight.k2)

/-- SDES_DECB (R130). -/
def execSdesDecb (s : State) : Host.Outcome State Fault Refusal :=
  bufferCommand .sdesDecb s (fun b => sdesBlock b s.inFlight.k2 s.inFlight.k1)

end Sys2Proof.Machine
end

