-- ==== Sys2Proof/Machine/Hill.lean ====
section
/-! DEFINITION. The Hill unit (spec/40_hill.md): validation, inverse and pair transform mod 26, and the commands
HILL_CHECK, HILL_INV, HILL_ENC and HILL_DEC. All arithmetic is on mathematical integers (R110). -/

namespace Sys2Proof.Machine

/-- `mod26(x) = x - 26*floor(x/26)`, in 0..25 also for negative x (R11). -/
def mod26 (x : Int) : Nat := (x % 26).toNat

/-- What `hill_validate` computes (R100). -/
structure HillCheck where
  /-- The determinant. -/
  det : Int
  /-- The determinant mod 26. -/
  dm : Nat
  /-- The inverse of `dm` mod 26, 0 for none. -/
  inv : Nat
deriving DecidableEq, Repr

/-- `valid = (inv != 0)` (R100). -/
def HillCheck.valid (v : HillCheck) : Bool := v.inv != 0

/-- The least x in 1..25 with `mod26(dm*x) == 1`, or 0 if there is none: an exhaustive scan (R100). -/
def hillScan (dm : Nat) : Nat := ((List.range' 1 25).find? (fun (x : Nat) => mod26 ((dm : Int) * (x : Int)) == 1)).getD 0

/-- `hill_validate` (R100). -/
def hillValidate (p : Snapshot) : HillCheck where
  det := p.m00 * p.m11 - p.m01 * p.m10
  dm := mod26 (p.m00 * p.m11 - p.m01 * p.m10)
  inv := hillScan (mod26 (p.m00 * p.m11 - p.m01 * p.m10))

/-- A 2×2 matrix of integers, row by row. -/
structure Matrix2 where
  a00 : Int
  a01 : Int
  a10 : Int
  a11 : Int
deriving DecidableEq, Repr

/-- The key matrix of a snapshot (R26). -/
def keyMatrix (p : Snapshot) : Matrix2 := ⟨p.m00, p.m01, p.m10, p.m11⟩

/-- `hill_inverse` (R101): `detInv * [[m11, -m01], [-m10, m00]] mod 26`. Meaningful when the matrix is valid. -/
def hillInverse (p : Snapshot) : Matrix2 where
  a00 := mod26 ((hillValidate p).inv * p.m11)
  a01 := mod26 (-(hillValidate p).inv * p.m01)
  a10 := mod26 (-(hillValidate p).inv * p.m10)
  a11 := mod26 ((hillValidate p).inv * p.m00)

/-- `hill_apply` (R102). -/
def hillApply (a : Matrix2) (c1 c2 : Nat) : Nat × Nat :=
  (mod26 (a.a00 * c1 + a.a01 * c2), mod26 (a.a10 * c1 + a.a11 * c2))

/-- HDET, HDETMOD, HDETINV and HVALID, which every successful Hill command writes (R27 to R29, R51). -/
def Results.withCheck (r : Results) (v : HillCheck) : Results :=
  { r with hdet := BitVec.ofInt 32 v.det, hdetmod := BitVec.ofNat 5 v.dm, hdetinv := BitVec.ofNat 5 v.inv, hvalid := v.valid }

/-- HINV, written by HILL_INV and HILL_DEC (R30). -/
def Results.withInverse (r : Results) (a : Matrix2) : Results :=
  { r with i00 := BitVec.ofInt 5 a.a00, i01 := BitVec.ofInt 5 a.a01, i10 := BitVec.ofInt 5 a.a10, i11 := BitVec.ofInt 5 a.a11 }

/-- HOUT, written by HILL_ENC and HILL_DEC (R32). -/
def Results.withPair (r : Results) (o : Nat × Nat) : Results :=
  { r with o1 := BitVec.ofNat 5 o.1, o2 := BitVec.ofNat 5 o.2 }

/-- `C1 ≤ 25` and `C2 ≤ 25` (R105 check 2). -/
def lettersLegal (p : Snapshot) : Bool := decide (p.c1 ≤ 25) && decide (p.c2 ≤ 25)

/-- HILL_CHECK (R103): reports validity and never fails. -/
def execHillCheck (s : State) : Host.Outcome State Fault Refusal :=
  .next (s.commit (s.res.withCheck (hillValidate s.inFlight)) s.mem)

/-- HILL_INV (R104). -/
def execHillInv (s : State) : Host.Outcome State Fault Refusal :=
  let p := s.inFlight
  let v := hillValidate p
  if !v.valid then .next (s.fail .invalidKeyMatrix)
  else .next (s.commit ((s.res.withCheck v).withInverse (hillInverse p)) s.mem)

/-- HILL_ENC (R105): the matrix is checked before the letters. -/
def execHillEnc (s : State) : Host.Outcome State Fault Refusal :=
  let p := s.inFlight
  let v := hillValidate p
  if !v.valid then .next (s.fail .invalidKeyMatrix)
  else if !lettersLegal p then .next (s.fail .invalidLetter)
  else .next (s.commit ((s.res.withCheck v).withPair (hillApply (keyMatrix p) p.c1 p.c2)) s.mem)

/-- HILL_DEC (R106): the inverse is computed anew from HM*, never read from HINV. -/
def execHillDec (s : State) : Host.Outcome State Fault Refusal :=
  let p := s.inFlight
  let v := hillValidate p
  if !v.valid then .next (s.fail .invalidKeyMatrix)
  else if !lettersLegal p then .next (s.fail .invalidLetter)
  else
    .next (s.commit
      (((s.res.withCheck v).withInverse (hillInverse p)).withPair (hillApply (hillInverse p) p.c1 p.c2)) s.mem)

end Sys2Proof.Machine
end

