-- ==== Sys2Proof/Machine/BitStream.lean ====
section
/-! DEFINITION. Bit-stream packing (spec/42_bitstream.md): most significant bit first. -/

namespace Sys2Proof.Machine

/-- Stream bit i of the stream at address a (R150): bit `7 - (i mod 8)` of the byte at `a + (i div 8)`. -/
def streamBit (m : List Host.Cell) (a i : Nat) : Bool := (Memory.read m (a + i / 8)).getLsbD (7 - i % 8)

/-- `bits(a, L)` (R13, R150). -/
def bits (m : List Host.Cell) (a len : Nat) : List Bool := (List.range len).map (streamBit m a)

/-- Byte k of a packed stream, the bits past its end 0 (R150, R152). -/
def packedByte (bs : List Bool) (k : Nat) : Byte :=
  (List.range 8).foldl (fun acc t => acc.shiftConcat (bs.getD (8 * k + t) false)) 0

/-- `segmentBlocks(bits, width=8)` (R152): `ceil(L/8)` blocks, the last one right-zero-padded. -/
def segmentBlocks (bs : List Bool) : List Byte := (List.range ((bs.length + 7) / 8)).map (packedByte bs)

/-- DELIM (R13): fifteen 1 bits and a 0. -/
def delim : List Bool := List.replicate 15 true ++ [false]

end Sys2Proof.Machine
end

