-- ==== Sys2Proof/Machine/Lsb.lean ====
section
/-! DEFINITION. The LSB unit (spec/43_lsb.md): the channel walk, the exact sum of squared differences, and the
commands LSB_EMBED, LSB_EXTRACT and PSNR_SSE. -/

namespace Sys2Proof.Machine

/-- `q(j) = 4*(j div 3) + (j mod 3)`, the byte offset of stream bit j (R162). -/
def walk (j : Nat) : Nat := 4 * (j / 3) + j % 3

/-- The squared difference of two bytes read as unsigned 0..255 (R163). -/
def sqDiff (x y : Byte) : Nat := ((x.toNat : Int) - (y.toNat : Int)).natAbs ^ 2

/-- `sse` (R163) of two PixelBuffers of n pixels, given byte by byte: the sum over R, G and B of every pixel. -/
def sse (f g : Nat → Byte) : Nat → Nat
  | 0 => 0
  | n + 1 =>
    sse f g n + (sqDiff (f (4 * n)) (g (4 * n)) + sqDiff (f (4 * n + 1)) (g (4 * n + 1))
      + sqDiff (f (4 * n + 2)) (g (4 * n + 2)))

/-- SSE_LO, SSE_HI and PSNR_INF, which LSB_EMBED and PSNR_SSE write together (R44, R170, R172). -/
def Results.withSse (r : Results) (e : Nat) : Results :=
  { r with sseLo := BitVec.ofNat 32 e, sseHi := BitVec.ofNat 32 (e / 2 ^ 32), psnrInf := e == 0 }

/-- The full payload `bits(PADDR, P) ++ DELIM` (R160). -/
def fullPayload (m : List Host.Cell) (p : Snapshot) : List Bool := bits m p.paddr p.payloadBits ++ delim

/-- A byte with its low bit replaced: "clear the low bit and OR in the next payload bit" (R170). -/
def withLsb (b : Byte) (bit : Bool) : Byte := (b &&& 0xFE) ||| (BitVec.ofBool bit).setWidth 8

/-- One stream bit written into the buffer at its place in the walk (R170). -/
def embedBit (full : List Bool) (out : List Byte) (j : Nat) : List Byte :=
  out.set (walk j) (withLsb (out.getD (walk j) 0) (full.getD j false))

/-- The stego buffer `out` of R170: a clone of the carrier, then the walk over the full payload. -/
def stegoBuffer (m : List Host.Cell) (p : Snapshot) : List Byte :=
  (List.range p.usedBits).foldl (embedBit (fullPayload m p))
    ((List.range p.pixelBytes).map (fun q => Memory.read m (p.src + q)))

/-- The addresses LSB_EMBED accesses (R170): the carrier, the payload and the output buffer, every byte. -/
def embedAccesses (p : Snapshot) : List Nat :=
  (List.range p.pixelBytes).map (p.src + ·) ++ (List.range p.payloadBytes).map (p.paddr + ·)
    ++ (List.range p.pixelBytes).map (p.dst + ·)

/-- The error-free end of LSB_EMBED with the stego buffer `out` (R170). -/
def embedFinish (t : State) (p : Snapshot) (out : List Byte) : State :=
  t.commit
    ({ t.res with
        cap := BitVec.ofNat 32 p.capacityBits
        used := BitVec.ofNat 32 p.usedBits
        ptouch := BitVec.ofNat 32 ((p.usedBits + 2) / 3) }.withSse
      (sse (fun q => Memory.read t.mem (p.src + q)) (fun q => out.getD q 0) p.pixels))
    (Memory.fill t.mem p.dst p.pixelBytes (fun x => out.getD (x - p.dst) 0))

/-- LSB_EMBED (R170). -/
def execLsbEmbed (s : State) : Host.Outcome State Fault Refusal :=
  let p := s.inFlight
  if p.capacityBits < p.usedBits then .next (s.fail .capacityExceeded)
  else if p.srcPixels.wraps || p.dstPixels.wraps || p.payload.wraps then .next (s.fail .regionWrap)
  else if p.dstPixels.overlaps p.srcPixels || p.dstPixels.overlaps p.payload then .next (s.fail .regionOverlap)
  else s.memoryPhase .lsbEmbed (embedAccesses p) (fun t => embedFinish t p (stegoBuffer t.mem p))

/-- Whether the last 16 accumulated bits equal DELIM; compared once there are 16 (R171, D28). -/
def endsWithDelim (acc : List Bool) : Bool := decide (16 ≤ acc.length) && acc.drop (acc.length - 16) == delim

/-- The extraction walk (R171) over a bit source, with `fuel` bits left and `acc` accumulated: the bits preceding
the first delimiter, or none when the walk is exhausted. -/
def extractWalk (bit : Nat → Bool) : Nat → List Bool → Option (List Bool)
  | 0, _ => none
  | fuel + 1, acc =>
    let acc' := acc ++ [bit acc.length]
    if endsWithDelim acc' then some (acc'.take (acc'.length - 16)) else extractWalk bit fuel acc'

/-- Walked bit j of the PixelBuffer at an address: the low bit of its channel byte (R162, R171). -/
def walkedBit (m : List Host.Cell) (a j : Nat) : Bool := (Memory.read m (a + walk j)).getLsbD 0

/-- What LSB_EXTRACT finds in a memory: the payload bits, or none when no delimiter is found (R171). -/
def extracted (m : List Host.Cell) (p : Snapshot) : Option (List Bool) :=
  extractWalk (walkedBit m p.src) (3 * p.pixels) []

/-- The addresses LSB_EXTRACT accesses (R171): the walked bytes up to the match and the payload bytes written. -/
def extractAccesses (m : List Host.Cell) (p : Snapshot) : List Nat :=
  match extracted m p with
  | some found =>
    (List.range (found.length + 16)).map (fun j => p.src + walk j)
      ++ (List.range ((found.length + 7) / 8)).map (p.dst + ·)
  | none => (List.range (3 * p.pixels)).map (fun j => p.src + walk j)

/-- The end of LSB_EXTRACT without a bus error (R171): the payload packed at DST and XBITS written, or
DELIMITER_NOT_FOUND with (DST, XMAX) havoc (R237). -/
def extractFinish (t : State) (p : Snapshot) : State :=
  match extracted t.mem p with
  | some found =>
    t.commit { t.res with xbits := BitVec.ofNat 32 found.length }
      (Memory.fill t.mem p.dst ((found.length + 7) / 8) (fun x => packedByte found (x - p.dst)))
  | none => t.failInFlight .delimiterNotFound (writeRegions .lsbExtract p)

/-- LSB_EXTRACT (R171). -/
def execLsbExtract (s : State) : Host.Outcome State Fault Refusal :=
  let p := s.inFlight
  if p.srcPixels.wraps || p.extractOut.wraps then .next (s.fail .regionWrap)
  else if p.extractOut.overlaps p.srcPixels then .next (s.fail .regionOverlap)
  else s.memoryPhase .lsbExtract (extractAccesses s.mem p) (fun t => extractFinish t p)

/-- The addresses PSNR_SSE accesses (R172): the R, G and B bytes of both buffers. -/
def psnrAccesses (p : Snapshot) : List Nat :=
  (List.range (3 * p.pixels)).map (fun j => p.src + walk j) ++ (List.range (3 * p.pixels)).map (fun j => p.ref + walk j)

/-- PSNR_SSE (R172). -/
def execPsnrSse (s : State) : Host.Outcome State Fault Refusal :=
  let p := s.inFlight
  if p.srcPixels.wraps || p.refPixels.wraps then .next (s.fail .regionWrap)
  else
    s.memoryPhase .psnrSse (psnrAccesses p) (fun t =>
      t.commit
        (t.res.withSse (sse (fun q => Memory.read t.mem (p.src + q)) (fun q => Memory.read t.mem (p.ref + q)) p.pixels))
        t.mem)

end Sys2Proof.Machine
end

