-- ==== Sys2Proof/Machine/Dispatch.lean ====
section
/-! DEFINITION. One arm per command: the completion of the command (spec/60_exceptions.md R235). -/

namespace Sys2Proof.Machine

def exec (i : Instr) (s : State) : Host.Outcome State Fault Refusal :=
  match i with
  | .nop => Sys2Proof.Machine.execNop s
  | .hillCheck => Sys2Proof.Machine.execHillCheck s
  | .hillInv => Sys2Proof.Machine.execHillInv s
  | .hillEnc => Sys2Proof.Machine.execHillEnc s
  | .hillDec => Sys2Proof.Machine.execHillDec s
  | .sdesKey => Sys2Proof.Machine.execSdesKey s
  | .sdesEnc => Sys2Proof.Machine.execSdesEnc s
  | .sdesDec => Sys2Proof.Machine.execSdesDec s
  | .sdesF => Sys2Proof.Machine.execSdesF s
  | .sdesEncb => Sys2Proof.Machine.execSdesEncb s
  | .sdesDecb => Sys2Proof.Machine.execSdesDecb s
  | .lsbEmbed => Sys2Proof.Machine.execLsbEmbed s
  | .lsbExtract => Sys2Proof.Machine.execLsbExtract s
  | .psnrSse => Sys2Proof.Machine.execPsnrSse s

end Sys2Proof.Machine
end

