-- ==== Sys2Proof/Machine/Engine.lean ====
section
/-! DEFINITION. The command engine's move (spec/60_exceptions.md R235, R238) and the choice of the next event
(R242). -/

namespace Sys2Proof.Machine

/-- The engine's move: in BUSY the accepted command completes (R235), an illegal word with ILLEGAL_COMMAND (R238); in
IDLE nothing happens (R249). -/
def engineTurn (s : State) : Host.Outcome State Fault Refusal :=
  match s.phase with
  | .idle => .next s
  | .busy w _ =>
    match decode w with
    | .ok i => exec i s
    | .error _ => execIllegal s

/-- One event as one atomic step (R242). -/
def takeInput (s : State) (e : Input) : Host.Outcome State Fault Refusal :=
  match e with
  | .engine => engineTurn s
  | .busWrite size addr v => busWrite s size addr v
  | .busRead size addr => busRead s size addr
  | .memWrite addr v => hostMemWrite s addr v
  | .memRead addr => hostMemRead s addr
  | .hostStore addr v => hostStore s addr v
  | .hostLoad addr => hostLoad s addr
  | .writeBack addr => hostWriteBack s addr
  | .invalidate addr => .next (hostInvalidate s addr)
  | .rst => s.resetStep

/-- The next event, taken off the pending list. With none pending the engine moves, so every accepted command
completes after finitely many steps (R277). -/
def nextEvent (s : State) : Host.Outcome State Fault Refusal :=
  match s.inputs with
  | [] => engineTurn s
  | e :: rest => takeInput { s with inputs := rest } e

/-- The state in which the engine is about to complete the command word: phase BUSY with the operands as they stand
(R21, R234), and no other event before the engine's move. -/
def placeCommand (s : State) (w : Word) : State :=
  { s.accept w with
    inputs :=
      match s.inputs with
      | [] => []
      | e :: rest => .engine :: e :: rest }

end Sys2Proof.Machine
end

