-- ==== Sys2Proof/Machine/Step.lean ====
section
/-! DEFINITION. One step of the machine, and how a command comes to be the one the next step runs. -/

namespace Sys2Proof.Machine

/-- One step: the next outside event, or the engine's move when none is pending (spec/60_exceptions.md R242). -/
def step (s : State) : Host.Outcome State Fault Refusal := nextEvent s

/-- The command word with these bits, accepted (spec/60_exceptions.md R234), so that the next step completes it.
HCSC fetches nothing (R21): a program is the host's CMD writes (notes/assumptions/6.md). -/
def State.withFetchWord (s : State) (nbits w : Nat) : State := placeCommand s (tableWord nbits w)

end Sys2Proof.Machine
end

