-- ==== Sys2Proof/Machine/HostNotation.lean ====
section
/-! DEFINITION. The host program notation (spec/30_encoding.md R87, R88): the transactions of a line, and the events
they are to the machine. -/

namespace Sys2Proof.Machine

/-- One bus transaction of a program's encoding (R87): `(W, offset, value)` or `(R, offset, -)`. -/
inductive Transaction where
  | write (offset : Nat) (value : Word)
  | read (offset : Nat)
deriving DecidableEq, Repr

/-- `W <REG>, <imm32>` (R87). -/
def writeTo (r : Reg) (v : Word) : Transaction := .write (regOffset r) v

/-- `R <REG>` (R87). -/
def readFrom (r : Reg) : Transaction := .read (regOffset r)

/-- The encoding of a line: its list of transactions (R87, R88). The stores of a MEM line are no HCSC transactions. -/
def transactions : HostLine → List Transaction
  | .w r v => [writeTo r v]
  | .r r => [readFrom r]
  | .mem _ _ => []
  | .cmd i => [writeTo .cmd (encode i)]
  | .wait polls => List.replicate (polls + 1) (readFrom .status)
  | .run i polls => writeTo .cmd (encode i) :: List.replicate (polls + 1) (readFrom .status)
  | .clr => [writeTo .status 0x0000000E]
  | .loadm a b c d =>
    [writeTo .hm00 (BitVec.ofInt 32 a &&& 0xFF), writeTo .hm01 (BitVec.ofInt 32 b &&& 0xFF),
     writeTo .hm10 (BitVec.ofInt 32 c &&& 0xFF), writeTo .hm11 (BitVec.ofInt 32 d &&& 0xFF)]
  | .loadkey k => [writeTo .skey (0x000A0000 ||| k.setWidth 32)]
  | .loadblk b => [writeTo .sblk (0x00000800 ||| b.setWidth 32)]
  | .loadpair c1 c2 => [writeTo .hin ((c2.setWidth 32 <<< 8) ||| c1.setWidth 32)]
  | .chk r _ _ _ => [readFrom r]

/-- A transaction as an event, for a window at host address `base`. -/
def Transaction.event (base : Nat) : Transaction → Input
  | .write offset v => .busWrite .word (base + offset) v
  | .read offset => .busRead .word (base + offset)

/-- The events of a poll loop whose first `polls` reads find BUSY = 1: the command completes before the last read. -/
def waitEvents (base polls : Nat) : List Input :=
  List.replicate polls ((readFrom .status).event base) ++ [.engine, (readFrom .status).event base]

/-- The host's stores of bytes from an address on, each then written back: R75's duty before a CMD write, which does nothing
on a coherent platform. -/
def storeEvents (a : Word) (bytes : List Byte) : List Input :=
  bytes.zipIdx.map (fun b => .hostStore (a + BitVec.ofNat 32 b.2) b.1) ++
    (List.range bytes.length).map (fun i => .writeBack (a + BitVec.ofNat 32 i))

/-- The host's loads of `n` bytes from an address on, each byte's copy dropped first: R75's duty before reading a write
region, which does nothing on a coherent platform. -/
def loadEvents (a : Word) (n : Nat) : List Input :=
  (List.range n).map (fun i => .invalidate (a + BitVec.ofNat 32 i)) ++
    (List.range n).map (fun i => .hostLoad (a + BitVec.ofNat 32 i))

/-- The events of a line. This is one schedule: the engine moves inside WAIT, right before its last read
(notes/assumptions/14.md). -/
def events (base : Nat) : HostLine → List Input
  | .mem a bytes => storeEvents a bytes
  | .wait polls => waitEvents base polls
  | .run i polls => (writeTo .cmd (encode i)).event base :: waitEvents base polls
  | .w r v => (transactions (.w r v)).map (·.event base)
  | .r r => (transactions (.r r)).map (·.event base)
  | .cmd i => (transactions (.cmd i)).map (·.event base)
  | .clr => (transactions .clr).map (·.event base)
  | .loadm a b c d => (transactions (.loadm a b c d)).map (·.event base)
  | .loadkey k => (transactions (.loadkey k)).map (·.event base)
  | .loadblk b => (transactions (.loadblk b)).map (·.event base)
  | .loadpair c1 c2 => (transactions (.loadpair c1 c2)).map (·.event base)
  | .chk r hi lo v => (transactions (.chk r hi lo v)).map (·.event base)

/-- `k` steps, stopping at the first fault or refusal. -/
def runSteps : Nat → State → Host.Outcome State Fault Refusal
  | 0, s => .next s
  | k + 1, s =>
    match step s with
    | .next t => runSteps k t
    | .fault r => .fault r
    | .refused r => .refused r

/-- The machine after a list of events, one step each. -/
def runEvents (es : List Input) (s : State) : Host.Outcome State Fault Refusal :=
  runSteps es.length { s with inputs := es }

/-- The machine after the lines of a host program. -/
def runLines (ls : List HostLine) (s : State) : Host.Outcome State Fault Refusal :=
  runEvents (ls.flatMap (events s.platform.base)) s

/-- The value of the last register read, as the host holds it. -/
def State.lastRead (s : State) : Word :=
  match s.observed with
  | .reg _ v :: _ => v
  | .mem _ _ :: _ => 0
  | [] => 0

/-- Whether a CHK's comparison holds of the value read: field [hi:lo] equals v (R87). -/
def checkHolds (word : Word) (hi lo v : Nat) : Bool := (word.extractLsb' lo (hi - lo + 1)).toNat == v

end Sys2Proof.Machine
end

