-- ==== Sys2Proof/Machine/HostPipeline.lean ====
section
/-! DEFINITION. The host's reference behaviour (spec/48_host_pipeline.md R200 to R212) and the exact PSNR
(spec/43_lsb.md R176). None of this is hardware: each function drives the machine through its window. -/

namespace Sys2Proof.Machine

/-- Why a host function gives no result. -/
inductive HostError where
  /-- InvalidKeyMatrix (R202, R203). -/
  | invalidKeyMatrix
  /-- InvalidKeyLength (R205). -/
  | invalidKeyLength
  /-- ImageDecodeFailure, reported before any command on the carrier (R211). -/
  | imageDecodeFailure
  /-- A buffer that a command would write touches the carrier (R212). -/
  | carrierIsDestination
  /-- A ciphertext of odd length or with a character outside 'A'..'Z' (R203). -/
  | badCipherText
  /-- A bit stream whose length is not a multiple of 8 (R207). -/
  | notByteAligned
  /-- A command completed with this error code (R231), or the host found the cause that the command would report before
  issuing it (R208). -/
  | command (code : Nat)
  /-- The machine faulted or refused. -/
  | stopped
deriving DecidableEq, Repr

/-- `normalize` (R200): the ASCII letters, upper-cased. -/
def normalize (text : List Char) : List Char := (text.filter Char.isAlpha).map Char.toUpper

/-- `pad` (R201): one 'X' when the length is odd. -/
def pad (t : List Char) : List Char := if t.length % 2 = 1 then t ++ ['X'] else t

/-- The index of a letter, `ord - 0x41` (R201). -/
def letterIndex (c : Char) : BitVec 5 := BitVec.ofNat 5 (c.toNat - 0x41)

/-- The letter of an index, ASCII code `0x41 + c` (R201). -/
def letterOf (c : Nat) : Char := Char.ofNat (0x41 + c)

/-- The ASCII codes of a text as bytes: the text's own bit stream (R151, R206). -/
def textBytes (t : List Char) : List Byte := t.map (fun c => BitVec.ofNat 8 c.toNat)

/-- The characters whose codes are these bytes (R207). -/
def bytesText (bs : List Byte) : List Char := bs.map (fun b => Char.ofNat b.toNat)

/-- Whether every character of a key string is '0' or '1' (R205). -/
def isBinary (str : List Char) : Bool := str.all (fun c => c == '0' || c == '1')

/-- The low 10 bits of the value of a string of binary digits, the leftmost digit most significant (R10). -/
def keyBits (str : List Char) : BitVec 10 := str.foldl (fun acc c => acc.shiftConcat (c == '1')) 0

/-- The value of a key string (R10, R205): exactly 10 characters, each '0' or '1'. -/
def keyValue (str : List Char) : Option (BitVec 10) :=
  if str.length = 10 && isBinary str then some (keyBits str) else none

/-- The SKEY word of a host that passes the string's length through (R205): KLEN = min(length, 15). What KEY holds for a
length other than 10 is a DESIGN CHOICE (notes/assumptions/17.md). -/
def passedKeyWord (str : List Char) : Word :=
  (BitVec.ofNat 32 (min str.length 15) <<< 16) ||| (keyBits str).setWidth 32

/-- The events of a host, run to their end. -/
def drive (es : List Input) (s : State) : Except HostError State :=
  match runEvents es s with
  | .next t => .ok t
  | .fault _ => .error .stopped
  | .refused _ => .error .stopped

/-- The lines of a host program, run to their end. -/
def driveLines (ls : List HostLine) (s : State) : Except HostError State :=
  drive (ls.flatMap (events s.platform.base)) s

/-- Operand writes and one command, waited for; an error code ends the host function (R191). -/
def command (ls : List HostLine) (i : Instr) (s : State) : Except HostError State := do
  let t ← driveLines (ls ++ [.run i 0]) s
  if t.lastRead.getLsbD 2 then .error (.command (t.lastRead.extractLsb' 4 4).toNat) else .ok t

/-- A register read by the host. -/
def readBack (r : Reg) (s : State) : Except HostError (Word × State) := do
  let t ← driveLines [.r r] s
  .ok (t.lastRead, t)

/-- The host reads `n` bytes of memory from an address. -/
def loadBytes (a : Word) (n : Nat) (s : State) : Except HostError (List Byte × State) := do
  let t ← drive (loadEvents a n) s
  .ok ((t.observed.take n).reverse.map (fun o => match o with
    | .mem _ v => v
    | .reg _ _ => 0), t)

/-- The eager matrix check of R202 and R203: LOADM, HILL_CHECK, HVALID. -/
def checkMatrix (m : Matrix2) (s : State) : Except HostError State := do
  let t ← command [.loadm m.a00 m.a01 m.a10 m.a11] .hillCheck s
  if t.lastRead.getLsbD 8 then .ok t else .error .invalidKeyMatrix

/-- Letter pairs through HILL_ENC or HILL_DEC, one command a pair (R202, R203). -/
def pairs (i : Instr) : List Char → State → Except HostError (List Char × State)
  | a :: b :: rest, s => do
    let t ← command [.loadpair (letterIndex a) (letterIndex b)] i s
    let (o, u) ← readBack .hout t
    let (out, v) ← pairs i rest u
    .ok (letterOf (o.extractLsb' 0 5).toNat :: letterOf (o.extractLsb' 8 5).toNat :: out, v)
  | [_], s => .ok ([], s)
  | [], s => .ok ([], s)

/-- The result of `hill_encode` (R202). -/
structure Encoded where
  processedText : List Char
  originalLength : Nat
  cipherText : List Char
deriving DecidableEq, Repr

/-- `hill_encode` (R202). An empty normalised text gives an empty cipherText (D44, notes/assumptions/14.md). -/
def hillEncode (text : List Char) (m : Matrix2) (s : State) : Except HostError (Encoded × State) := do
  let t ← checkMatrix m s
  let (out, u) ← pairs .hillEnc (pad (normalize text)) t
  .ok (⟨pad (normalize text), (normalize text).length, out⟩, u)

/-- `hill_decode` (R203, R204). -/
def hillDecode (cipherText : List Char) (m : Matrix2) (originalLength : Option Nat) (s : State) :
    Except HostError (List Char × State) := do
  let t ← checkMatrix m s
  if cipherText.length % 2 = 1 || !cipherText.all Char.isUpper then .error .badCipherText
  else do
    let (out, u) ← pairs .hillDec cipherText t
    match originalLength with
    | some n => .ok (out.take n, u)
    | none => .ok (out, u)

/-- `key10` (R205): a bad string fails before any command is issued. -/
def scheduleKey (str : List Char) (s : State) : Except HostError State :=
  match keyValue str with
  | some k => command [.loadkey k] .sdesKey s
  | none => .error .invalidKeyLength

/-- The other form of `key10` (R205): the length is passed through and the hardware reports INVALID_KEY_LENGTH. Checking the
characters stays the host's (D14). -/
def scheduleKeyPassed (str : List Char) (s : State) : Except HostError State :=
  if isBinary str then command [.w .skey (passedKeyWord str)] .sdesKey s else .error .invalidKeyLength

/-- `bitsToText` (R153, R207): refused unless the length in bits is a multiple of 8. -/
def bitsToText (a : Word) (x : Nat) (s : State) : Except HostError (List Char × State) := do
  if x % 8 ≠ 0 then .error .notByteAligned
  else do
    let (bs, t) ← loadBytes a (x / 8) s
    .ok (bytesText bs, t)

/-- A PSNR in dB, exact (R176): infinite, or `10·log10 r` of a rational r. -/
inductive Psnr where
  | infinite
  | tenLogTen (r : ℚ)
deriving DecidableEq, Repr

/-- The extended real number that a PSNR is. A host's rounding of it is its own (I23, notes/assumptions/16.md). -/
def Psnr.Denotes : Psnr → EReal → Prop
  | .infinite, x => x = ⊤
  | .tenLogTen r, x => x = ((10 * Real.logb 10 (r : ℝ) : ℝ) : EReal)

/-- `psnr(SSE, N)` (R176): infinite when SSE = 0, else `10·log10(195075·N / SSE)`. -/
def psnr (e n : Nat) : Psnr := if e = 0 then .infinite else .tenLogTen (195075 * n / e)

/-- A decoded carrier image in device memory. -/
structure Carrier where
  addr : Word
  pixels : Word
deriving DecidableEq, Repr

/-- The artifact of `encrypt` (R208). -/
structure Artifact where
  originalLength : Nat
  matrix : Matrix2
  key10 : List Char
  stego : Word
  pixels : Word
  cap : Word
  used : Word
  ptouch : Word
  sse : Nat
  psnr : Psnr
deriving DecidableEq, Repr

/-- A buffer of n bytes touches the carrier: it starts where the carrier does or shares a byte with it (R212). -/
def Carrier.touches (c : Carrier) (a : Word) (n : Nat) : Bool :=
  a == c.addr || (Region.mk a.toNat n).overlaps ⟨c.addr.toNat, 4 * c.pixels.toNat⟩

/-- What a host finds of a cipherText of n letters before it stores it at `buffer` (R208 step 3, R212): a command would write
the carrier, the payload exceeds the capacity (with the pre-check of R208's last sentence), the buffer does not fit the address space, or
LEN cannot hold n, which exceeds every capacity. The order is a DESIGN CHOICE (notes/assumptions/18.md). -/
def placementError (precheck : Bool) (c : Carrier) (buffer stego : Word) (n : Nat) : Option HostError :=
  if c.touches buffer n || c.touches stego (4 * c.pixels.toNat) then some .carrierIsDestination
  else if precheck && decide (3 * c.pixels.toNat < 8 * n + 16) then some (.command 4)
  else if addrSpace < buffer.toNat + n then some (.command 11)
  else if addrSpace ≤ n then some (.command 4)
  else none

/-- LSB_EMBED of n payload bytes with PBITS = 8n (R208 step 5). Where 32 bits cannot hold 8n, no command can be issued:
CapacityExceeded if the payload exceeds the capacity, else the carrier's region wraps
(notes/assumptions/18.md). -/
def embedBytes (c : Carrier) (buffer stego : Word) (n : Nat) (s : State) : Except HostError State :=
  if 2 ^ 32 ≤ 8 * n then .error (.command (if 3 * c.pixels.toNat < 8 * n + 16 then 4 else 11))
  else command [.w .src c.addr, .w .dst stego, .w .npix c.pixels, .w .paddr buffer, .w .pbits (BitVec.ofNat 32 (8 * n))]
    .lsbEmbed s

/-- `encrypt` (R208), with a text buffer and a stego buffer of the host's choice, and with or without the capacity check
before step 3. `carrier` is none when the external image decoder failed. The spec places ImageDecodeFailure only before any
command that would use the carrier (R211, R232). That it comes before the checks of the matrix and the key here, so that it
wins when those are invalid too, is a DESIGN CHOICE (notes/assumptions/19.md). -/
def encryptWith (precheck : Bool) (plainText : List Char) (m : Matrix2) (key : List Char) (carrier : Option Carrier)
    (buffer stego : Word) (s : State) : Except HostError (Artifact × State) := do
  match carrier with
  | none => .error .imageDecodeFailure
  | some c =>
    let (hill, s1) ← hillEncode plainText m s
    let s2 ← scheduleKey key s1
    let n := hill.cipherText.length
    match placementError precheck c buffer stego n with
    | some e => .error e
    | none =>
      let s3 ← command [.mem buffer (textBytes hill.cipherText), .w .src buffer, .w .dst buffer,
        .w .len (BitVec.ofNat 32 n)] .sdesEncb s2
      let s4 ← embedBytes c buffer stego n s3
      let (cap, s5) ← readBack .cap s4
      let (used, s6) ← readBack .used s5
      let (ptouch, s7) ← readBack .ptouch s6
      let (lo, s8) ← readBack .sseLo s7
      let (hi, s9) ← readBack .sseHi s8
      let e := hi.toNat * 2 ^ 32 + lo.toNat
      .ok (⟨hill.originalLength, m, key, stego, c.pixels, cap, used, ptouch, e, psnr e c.pixels.toNat⟩, s9)

/-- `encrypt` as R208's five steps stand: CapacityExceeded is the hardware's first check of step 5. An unreadable carrier is
reported first, a DESIGN CHOICE (notes/assumptions/19.md). -/
def encrypt (plainText : List Char) (m : Matrix2) (key : List Char) (carrier : Option Carrier) (buffer stego : Word)
    (s : State) : Except HostError (Artifact × State) :=
  encryptWith false plainText m key carrier buffer stego s

/-- `encrypt` of a host that wants no partial work at all: `8n + 16 ≤ 3N` is checked before step 3 (R208, last sentence). -/
def encryptPrechecked (plainText : List Char) (m : Matrix2) (key : List Char) (carrier : Option Carrier)
    (buffer stego : Word) (s : State) : Except HostError (Artifact × State) :=
  encryptWith true plainText m key carrier buffer stego s

/-- `decrypt` (R209), with a text buffer of the host's choice. -/
def decrypt (art : Artifact) (buffer : Word) (s : State) : Except HostError (List Char × State) := do
  let s1 ← command [.w .src art.stego, .w .dst buffer, .w .npix art.pixels] .lsbExtract s
  let (x, s2) ← readBack .xbits s1
  if x.toNat % 8 ≠ 0 then .error .notByteAligned
  else do
    let s3 ← scheduleKey art.key10 s2
    let s4 ← command [.w .src buffer, .w .dst buffer, .w .len (BitVec.ofNat 32 (x.toNat / 8))] .sdesDecb s3
    let (cipherText, s5) ← bitsToText buffer x.toNat s4
    hillDecode cipherText art.matrix (some art.originalLength) s5

end Sys2Proof.Machine
end

