-- ==== Sys2Proof/Safety.lean ====
section
/-! DEFINITION. The terms that claims about HCSC are stated in: what a completion leaves (spec/60_exceptions.md R235 to
R237), what a well-placed footprint is, the events that reset the device, and the invariant of the machine. -/

namespace Sys2Proof.Machine

/-- The state after a successful completion (R235): the given results and memory, DONE = 1, ERR = 0, ERRCODE = 0, IDLE.
Everything else is as before. -/
def State.completedWith (s : State) (res : Results) (mem : List Host.Cell) : State :=
  { s with res := res, mem := mem, status := ⟨true, false, s.status.werr, 0⟩, phase := .idle }

/-- The state after an eager error (R236): DONE = 1, ERR = 1, ERRCODE = the code, IDLE. Everything else is as before. -/
def State.failedWith (s : State) (code : BitVec 4) : State :=
  { s with status := ⟨true, true, s.status.werr, code⟩, phase := .idle }

/-- What an in-flight error leaves (R237): as `failedWith`, but memory inside the given regions is unconstrained. -/
def State.FailedInFlight (s t : State) (code : BitVec 4) (regions : List Region) : Prop :=
  t = { s.failedWith code with mem := t.mem, draws := t.draws } ∧
    ∀ a, covers regions a = false → t.byteAt a = s.byteAt a

/-- Every footprint byte of the command is ordinary memory that the platform answers (R69, R70). -/
def State.FootprintOrdinary (s : State) (i : Instr) : Prop :=
  ∀ a, covers (footprint i s.inFlight) a = true → s.memOk a = true ∧ covers s.platform.nonMemory a = false

/-- No footprint byte of the command lies on non-memory (R69). -/
def State.FootprintIsMemory (s : State) (i : Instr) : Prop :=
  ∀ a, covers (footprint i s.inFlight) a = true → covers s.platform.nonMemory a = false

/-- No footprint byte of the command in BUSY lies on non-memory (R69). -/
def State.BusyFootprintIsMemory (s : State) : Prop :=
  ∀ a, covers s.phase.footprint a = true → covers s.platform.nonMemory a = false

/-- The next event resets the device: `rst`, or a CTRL write with SRST = 1 (R260, R261). -/
def State.ResetIsNext (s : State) : Prop :=
  (∃ rest, s.inputs = .rst :: rest) ∨
    ∃ v rest, v.getLsbD 1 = true ∧ s.inputs = .busWrite .word (s.platform.base + 0x004) v :: rest

/-- The bits a write stores in an RW operand register (spec/10_state.md section 2); none for the other registers. -/
def storedMask : Reg → Option Word
  | .hm00 | .hm01 | .hm10 | .hm11 => some 0x000000FF
  | .hin => some 0x00001F1F
  | .skey => some 0x000F03FF
  | .sblk => some 0x00000FFF
  | .sfin => some 0x0000FF0F
  | .src | .dst | .ref | .len | .npix | .paddr | .pbits => some 0xFFFFFFFF
  | .id | .ctrl | .status | .cmd | .hdet | .hdetmod | .hdetinv | .hinv | .hout | .subk | .sout | .sfout
  | .cap | .used | .ptouch | .sseLo | .sseHi | .xbits => none

/-- The determinant of the key matrix in mathematical integers (R100). -/
def Operands.det (o : Operands) : Int := o.hm00.toInt * o.hm11.toInt - o.hm01.toInt * o.hm10.toInt

/-- What every successful Hill command reports of the matrix (R27 to R29, R100): HDET, HDETMOD, the least inverse or 0,
and HVALID. -/
def Results.ReportsMatrix (r : Results) (o : Operands) : Prop :=
  r.hdet.toInt = o.det ∧ (r.hdetmod.toNat : Int) = o.det % 26 ∧
    (r.hvalid = true ↔ r.hdetinv.toNat ≠ 0) ∧ r.hdetinv.toNat ≤ 25 ∧
    (r.hdetinv.toNat ≠ 0 → r.hdetmod.toNat * r.hdetinv.toNat % 26 = 1) ∧
    ∀ x, 1 ≤ x → x ≤ 25 → r.hdetmod.toNat * x % 26 = 1 → r.hdetinv.toNat ≠ 0 ∧ r.hdetinv.toNat ≤ x

/-- HINV holds `detInv * [[m11, -m01], [-m10, m00]] mod 26` (R101). -/
def Results.HoldsInverse (r : Results) (o : Operands) : Prop :=
  (r.i00.toNat : Int) = (r.hdetinv.toNat * o.hm11.toInt) % 26 ∧
    (r.i01.toNat : Int) = (-(r.hdetinv.toNat : Int) * o.hm01.toInt) % 26 ∧
    (r.i10.toNat : Int) = (-(r.hdetinv.toNat : Int) * o.hm10.toInt) % 26 ∧
    (r.i11.toNat : Int) = (r.hdetinv.toNat * o.hm00.toInt) % 26

/-- The 64-bit SSE register (R44). -/
def Results.sse (r : Results) : Nat := r.sseHi.toNat * 2 ^ 32 + r.sseLo.toNat

/-- Bit j of the full payload in a memory (R150, R160): the payload's bit for j < P, then DELIM. -/
def State.fullBit (s : State) (p : Snapshot) (j : Nat) : Bool :=
  if j < p.payloadBits then (s.byteAt (p.paddr + j / 8)).getLsbD (7 - j % 8) else decide (j < p.payloadBits + 15)

/-- Bit j of the walked LSB stream of the PixelBuffer at an address (R162, R171). -/
def State.lsbAt (s : State) (buf j : Nat) : Bool := (s.byteAt (buf + (4 * (j / 3) + j % 3))).getLsbD 0

/-- DELIM stands at position X of a stream (R13). -/
def DelimAt (stream : Nat → Bool) (x : Nat) : Prop := ∀ k, k < 16 → stream (x + k) = decide (k < 15)

/-- The sum of squared channel differences of two PixelBuffers of n pixels (R163), in integers. -/
def channelSse (f g : Nat → Byte) (n : Nat) : Int :=
  ∑ p ∈ Finset.range n, ∑ c ∈ Finset.range 3, (((f (4 * p + c)).toNat : Int) - ((g (4 * p + c)).toNat : Int)) ^ 2

/-- What every step keeps. Each field is a promise the spec makes about the whole machine. -/
structure State.Inv (s : State) : Prop where
  /-- Memory stays in canonical form. -/
  memory : Memory.wf s.mem
  /-- The host's cache stays in canonical form, and empty on a coherent platform. -/
  cache : Cache.wf s.hostCache ∧ (s.platform.coherent = true → s.hostCache = [])
  /-- ERRCODE is never a reserved code (R231, R232, I6). -/
  errcodeNamed : s.status.errcode ≠ 6 ∧ s.status.errcode ≠ 13 ∧ s.status.errcode ≠ 14 ∧ s.status.errcode ≠ 15
  /-- ERR = 1 exactly when ERRCODE ≠ 0 (R230, R24). -/
  errIffCode : s.status.err = true ↔ s.status.errcode ≠ 0
  /-- In BUSY, DONE, ERR and ERRCODE are 0 (R234). -/
  busyCleared : ∀ w p, s.phase = .busy w p → s.status.done = false ∧ s.status.err = false ∧ s.status.errcode = 0
  /-- In BUSY, the operand registers, SUBK and KVALID are still those of the snapshot (R48, R49, R273). -/
  snapshotHolds : ∀ w p, s.phase = .busy w p → p = s.takeSnapshot
  /-- Residues and letters lie in 0..25 (R28 to R30, R32). -/
  residues : s.res.hdetmod.toNat < 26 ∧ s.res.hdetinv.toNat < 26 ∧ s.res.i00.toNat < 26 ∧ s.res.i01.toNat < 26 ∧
    s.res.i10.toNat < 26 ∧ s.res.i11.toNat < 26 ∧ s.res.o1.toNat < 26 ∧ s.res.o2.toNat < 26
  /-- HVALID and HDETINV always agree (R51, R100). -/
  hvalidIffInverse : s.res.hvalid = true ↔ s.res.hdetinv ≠ 0
  /-- PSNR_INF = 1 only over SSE = 0 (R24, R51). -/
  psnrInfZero : s.res.psnrInf = true → s.res.sseLo = 0 ∧ s.res.sseHi = 0
  /-- Embed statistics never exceed the capacity (R170, R174). -/
  usedWithinCap : s.res.used.toNat ≤ s.res.cap.toNat
  /-- No subkey stands in SUBK before a key is scheduled (R34, R51). -/
  subkeysNeedKey : s.res.kvalid = false → s.res.k1 = 0 ∧ s.res.k2 = 0

end Sys2Proof.Machine
end

