-- ==== Sys2Proof/Certificates/Slice0/Obligations.lean ====
section
/-! DEFINITION. The statements for the provers. Each docstring names the rule of spec/ it formalises. In a statement
about a command, `s.inFlight` is the snapshot the command reads. -/

open Sys2Proof Sys2Proof.Machine

/-! ### Reset and the register window -/

/-- R52, first sentence and its list, for `State.reset`: every offset reads 0 except ID, the phase is IDLE and irq is 0. -/
def Obligations.ResetStateReadsZeroExceptId : Prop :=
  (∀ offset, readOffset State.reset offset = if offset = 0x000 then 0x48435301 else 0) ∧
    State.reset.phase = .idle ∧ State.reset.irq = false

/-- R52, R260, R261, R262, R264: from any state, `rst` and a CTRL write with SRST = 1 do one and the same thing. Every
register reads its reset value, the phase is IDLE, irq is 0, and memory outside an aborted command's write regions is
unchanged. The premise on non-memory is the model's (notes/assumptions/10.md). -/
def Obligations.EitherResetClearsTheDevice : Prop :=
  ∀ (s : State) (v : Word), s.BusyFootprintIsMemory → v.getLsbD 1 = true →
    ∃ t, takeInput s .rst = .next t ∧ takeInput s (.busWrite .word (s.platform.base + 0x004) v) = .next t ∧
      (∀ offset, readOffset t offset = if offset = 0x000 then 0x48435301 else 0) ∧
      t.phase = .idle ∧ t.irq = false ∧
      (∀ a, covers s.phase.writeRegions a = false → t.byteAt a = s.byteAt a) ∧
      t.platform = s.platform ∧ t.hostCache = s.hostCache ∧ t.inputs = s.inputs ∧ t.observed = s.observed

/-- R47, first two sentences: a write in IDLE to an RW register stores the bits at its field positions, a later read
gives them back with reserved bits 0, and no other register, no memory byte and nothing else changes. -/
def Obligations.IdleWriteStoresFieldBits : Prop :=
  ∀ (s : State) (r : Reg) (mask v : Word), storedMask r = some mask → s.phase = .idle →
    ∃ t, busWrite s .word (s.platform.base + regOffset r) v = .next t ∧
      readReg t r = v &&& mask ∧ (∀ r', r' ≠ r → readReg t r' = readReg s r') ∧ t = { s with ops := t.ops }

/-- R46: in IDLE a write to a read-only register or a reserved offset changes nothing, and a reserved offset reads 0. -/
def Obligations.IdleWriteToReadOnlyIsIgnored : Prop :=
  ∀ (s : State) (offset : Nat) (v : Word), s.phase = .idle → offset % 4 = 0 → offset < 0x100 →
    (∀ r, regAt offset = some r → storedMask r = none ∧ r ≠ .ctrl ∧ r ≠ .status ∧ r ≠ .cmd) →
    busWrite s .word (s.platform.base + offset) v = .next s ∧ (regAt offset = none → readOffset s offset = 0)

/-- R48: in BUSY a write to any offset other than CTRL and STATUS only sets WERR. A CTRL write (IE, or the reset of SRST)
and each W1C bit of a STATUS write take effect in any phase. -/
def Obligations.BusyWriteIsDroppedWithWerr : Prop :=
  (∀ (s : State) (w : Word) (p : Snapshot) (offset : Nat) (v : Word), s.phase = .busy w p →
    offset % 4 = 0 → offset < 0x100 → offset ≠ 0x004 → offset ≠ 0x008 →
    busWrite s .word (s.platform.base + offset) v = .next { s with status := { s.status with werr := true } }) ∧
  (∀ (s : State) (v : Word), v.getLsbD 1 = false →
    busWrite s .word (s.platform.base + 0x004) v = .next { s with ie := v.getLsbD 0 }) ∧
  (∀ (s : State) (v : Word), v.getLsbD 1 = true →
    busWrite s .word (s.platform.base + 0x004) v = takeInput s .rst) ∧
  (∀ (s : State) (v : Word), busWrite s .word (s.platform.base + 0x008) v = .next { s with status :=
    ⟨s.status.done && !v.getLsbD 1, s.status.err && !v.getLsbD 2, s.status.werr && !v.getLsbD 3,
      if v.getLsbD 2 then 0 else s.status.errcode⟩ })

/-- R24, last paragraph, and the W1C bits of R24: each bit of a STATUS write acts on its own. -/
def Obligations.StatusWriteClearsEachBitAlone : Prop :=
  ∀ (s : State) (v : Word), ∃ t, busWrite s .word (s.platform.base + 0x008) v = .next t ∧
    t = { s with status := t.status } ∧
    t.status.done = (s.status.done && !v.getLsbD 1) ∧ t.status.err = (s.status.err && !v.getLsbD 2) ∧
    t.status.werr = (s.status.werr && !v.getLsbD 3) ∧
    t.status.errcode = (if v.getLsbD 2 then 0 else s.status.errcode)

/-- R69, first sentence, with R62: an aligned 32-bit read in the window has no side effect and gives the host the
register's value. That value is, register by register, the fields of the register map of 10_state.md section 2 (R22 to R45)
at their bits, with every other bit 0 (R46). -/
def Obligations.RegisterReadHasNoSideEffect : Prop :=
  (∀ (s : State) (offset : Nat), offset % 4 = 0 → offset < 0x100 →
    busRead s .word (s.platform.base + offset) =
      .next { s with observed := .reg (s.platform.base + offset) (readOffset s offset) :: s.observed }) ∧
  ∀ s : State,
    readOffset s 0x000 = 0x48435301 ∧
    (readOffset s 0x004).toNat = s.ie.toNat ∧
    (readOffset s 0x008).toNat = s.phase.isBusy.toNat + s.status.done.toNat * 2 ^ 1 + s.status.err.toNat * 2 ^ 2
      + s.status.werr.toNat * 2 ^ 3 + s.status.errcode.toNat * 2 ^ 4 + s.res.hvalid.toNat * 2 ^ 8
      + s.res.kvalid.toNat * 2 ^ 9 + s.res.psnrInf.toNat * 2 ^ 10 ∧
    readOffset s 0x00C = 0 ∧
    (readOffset s 0x010).toNat = s.ops.hm00.toNat ∧ (readOffset s 0x014).toNat = s.ops.hm01.toNat ∧
    (readOffset s 0x018).toNat = s.ops.hm10.toNat ∧ (readOffset s 0x01C).toNat = s.ops.hm11.toNat ∧
    readOffset s 0x020 = s.res.hdet ∧
    (readOffset s 0x024).toNat = s.res.hdetmod.toNat ∧ (readOffset s 0x028).toNat = s.res.hdetinv.toNat ∧
    (readOffset s 0x02C).toNat = s.res.i00.toNat + s.res.i01.toNat * 2 ^ 8 + s.res.i10.toNat * 2 ^ 16
      + s.res.i11.toNat * 2 ^ 24 ∧
    (readOffset s 0x030).toNat = s.ops.hinC1.toNat + s.ops.hinC2.toNat * 2 ^ 8 ∧
    (readOffset s 0x034).toNat = s.res.o1.toNat + s.res.o2.toNat * 2 ^ 8 ∧
    (readOffset s 0x040).toNat = s.ops.key.toNat + s.ops.klen.toNat * 2 ^ 16 ∧
    (readOffset s 0x044).toNat = s.res.k1.toNat + s.res.k2.toNat * 2 ^ 8 ∧
    (readOffset s 0x048).toNat = s.ops.bin.toNat + s.ops.blen.toNat * 2 ^ 8 ∧
    (readOffset s 0x04C).toNat = s.res.bout.toNat ∧
    (readOffset s 0x050).toNat = s.ops.fr.toNat + s.ops.fk.toNat * 2 ^ 8 ∧
    (readOffset s 0x054).toNat = s.res.fout.toNat ∧
    readOffset s 0x060 = s.ops.src ∧ readOffset s 0x064 = s.ops.dst ∧ readOffset s 0x068 = s.ops.ref ∧
    readOffset s 0x06C = s.ops.len ∧ readOffset s 0x070 = s.ops.npix ∧ readOffset s 0x074 = s.ops.paddr ∧
    readOffset s 0x078 = s.ops.pbits ∧ readOffset s 0x07C = s.res.cap ∧ readOffset s 0x080 = s.res.used ∧
    readOffset s 0x084 = s.res.ptouch ∧ readOffset s 0x088 = s.res.sseLo ∧ readOffset s 0x08C = s.res.sseHi ∧
    readOffset s 0x090 = s.res.xbits

/-- R62 and I7: an access that touches the window is refused exactly when it is not an aligned 32-bit access.
That this takes in accesses straddling the window's end is the model's reading (notes/assumptions/8.md). -/
def Obligations.NarrowAccessesAreRefused : Prop :=
  ∀ (s : State) (size : Size) (addr : Nat) (v : Word),
    s.platform.base ≤ addr → addr < s.platform.base + 0x100 →
    ((busRead s size addr = .refused .narrowAccess ↔ ¬ (size = .word ∧ (addr - s.platform.base) % 4 = 0)) ∧
      (busWrite s size addr v = .refused .narrowAccess ↔ ¬ (size = .word ∧ (addr - s.platform.base) % 4 = 0)))

/-- R240: `irq = CTRL.IE & STATUS.DONE`, read through the registers. -/
def Obligations.IrqIsEnableAndDone : Prop :=
  ∀ s : State, s.irq = ((readOffset s 0x004).getLsbD 0 && (readOffset s 0x008).getLsbD 1)

/-! ### Acceptance, completion, and what a step is -/

/-- R234: a CMD write in IDLE is accepted, whatever the word. BUSY = 1, DONE = ERR = ERRCODE = 0, the snapshot is taken,
irq is 0, WERR and all else are unchanged. In BUSY a CMD write is not accepted and sets WERR. -/
def Obligations.CmdWriteIsAcceptedInIdle : Prop :=
  ∀ (s : State) (w : Word),
    (s.phase = .idle → ∃ t, busWrite s .word (s.platform.base + 0x00C) w = .next t ∧ t.irq = false ∧
      t = { s with
        phase := .busy w ⟨s.ops, s.res.k1, s.res.k2, s.res.kvalid⟩
        status := ⟨false, false, s.status.werr, 0⟩ }) ∧
    (∀ w' p, s.phase = .busy w' p →
      busWrite s .word (s.platform.base + 0x00C) w = .next { s with status := { s.status with werr := true } })

/-- R238: an illegal word is accepted, then completes with code 7 and changes nothing else. -/
def Obligations.IllegalWordCompletesWithCodeSeven : Prop :=
  ∀ (s : State) (w : Word), s.phase = .idle →
    (w.extractLsb' 8 24 ≠ 0 ∨
      (w.extractLsb' 0 8).toNat ∉
        [0x00, 0x01, 0x02, 0x03, 0x04, 0x10, 0x11, 0x12, 0x13, 0x14, 0x15, 0x20, 0x21, 0x22]) →
    ∃ t, busWrite s .word (s.platform.base + 0x00C) w = .next t ∧ t.phase.isBusy = true ∧
      takeInput t .engine = .next (s.failedWith 7)

/-- A step runs the decoded command (R235): in BUSY with a word that decodes to i, the engine's move is `exec i`. The
step adds only that the event is taken off the pending list. With nothing pending the engine moves by itself
(notes/assumptions/5.md). -/
def Obligations.StepRunsTheDecodedCommand : Prop :=
  ∀ (s : State) (w : Word) (p : Snapshot) (i : Instr), s.phase = .busy w p → decode w = .ok i →
    (s.inputs = [] → step s = exec i s) ∧
    (∀ rest, s.inputs = .engine :: rest → step s = exec i { s with inputs := rest })

/-- R88 `RUN`, from an idle machine, for every command and every number of busy polls: the command is accepted on the
operands as they stand, completes as `exec` says, and the host's last read finds STATUS of the completed state.
The schedule of the polls is the model's choice (notes/assumptions/14.md). -/
def Obligations.RunLineAcceptsThenCompletes : Prop :=
  ∀ (s t : State) (i : Instr) (polls : Nat), s.phase = .idle → s.inputs = [] →
    exec i { s with
      phase := .busy (encode i) ⟨s.ops, s.res.k1, s.res.k2, s.res.kvalid⟩
      status := ⟨false, false, s.status.werr, 0⟩ } = .next t →
    ∃ obs, runLines [.run i polls] s = .next { t with observed := .reg (s.platform.base + 0x008) t.statusWord :: obs }

/-- R83: the decoder reads a command from exactly the 14 words of the opcode map, and each gives its own command. -/
def Obligations.DecodeReadsExactlyTheOpcodeMap : Prop :=
  (∀ (w : Word) (i : Instr), decode w = .ok i ↔
    (w, i) ∈ [(0x00000000, Instr.nop), (0x00000001, .hillCheck), (0x00000002, .hillInv), (0x00000003, .hillEnc),
      (0x00000004, .hillDec), (0x00000010, .sdesKey), (0x00000011, .sdesEnc), (0x00000012, .sdesDec),
      (0x00000013, .sdesF), (0x00000014, .sdesEncb), (0x00000015, .sdesDecb), (0x00000020, .lsbEmbed),
      (0x00000021, .lsbExtract), (0x00000022, .psnrSse)]) ∧
  ∀ i : Instr, i.wellFormed = true → decode (encode i) = .ok i

/-- Decoding is right on a word of each family, written from the opcode map of R83, and on two illegal words. -/
def Obligations.DecodesOneWordOfEachFamily : Prop :=
  decode 0x00000000 = .ok .nop ∧ decode 0x00000003 = .ok .hillEnc ∧ decode 0x00000014 = .ok .sdesEncb ∧
    decode 0x00000021 = .ok .lsbExtract ∧ decode 0x00000100 = .error .reservedBits ∧
    decode 0x00000005 = .error .unassignedOpcode

/-- The register map: the 33 rows of 10_state.md section 2. The window decodes an offset to a register, and a register
stands at an offset, exactly when the pair is one of these rows. -/
def Obligations.RegisterMapIsOneToOne : Prop :=
  ∀ (offset : Nat) (r : Reg), (regAt offset = some r ↔ offset = regOffset r) ∧ (regAt offset = some r ↔
    (offset, r) ∈ [(0x000, Reg.id), (0x004, .ctrl), (0x008, .status), (0x00C, .cmd), (0x010, .hm00), (0x014, .hm01),
      (0x018, .hm10), (0x01C, .hm11), (0x020, .hdet), (0x024, .hdetmod), (0x028, .hdetinv), (0x02C, .hinv),
      (0x030, .hin), (0x034, .hout), (0x040, .skey), (0x044, .subk), (0x048, .sblk), (0x04C, .sout), (0x050, .sfin),
      (0x054, .sfout), (0x060, .src), (0x064, .dst), (0x068, .ref), (0x06C, .len), (0x070, .npix), (0x074, .paddr),
      (0x078, .pbits), (0x07C, .cap), (0x080, .used), (0x084, .ptouch), (0x088, .sseLo), (0x08C, .sseHi),
      (0x090, .xbits)])

/-! ### Control and the Hill unit -/

/-- R190: NOP is the word 0, and it only completes. 0x00000100 is no command. A NOP written in BUSY only sets WERR. -/
def Obligations.NopOnlyCompletes : Prop :=
  decode 0x00000000 = .ok .nop ∧ (∀ i, decode 0x00000100 ≠ .ok i) ∧
    (∀ s : State, exec .nop s = .next (s.completedWith s.res s.mem)) ∧
    ∀ (s : State) (w : Word) (p : Snapshot), s.phase = .busy w p →
      busWrite s .word (s.platform.base + 0x00C) 0 = .next { s with status := { s.status with werr := true } }

/-- R103 with R100: HILL_CHECK always succeeds and reports the determinant, its residue, the least inverse and validity.
Nothing but those registers, HVALID and the completion flags changes. -/
def Obligations.HillCheckReportsTheMatrix : Prop :=
  decode 0x00000001 = .ok .hillCheck ∧
    ∀ s : State, ∃ t, exec .hillCheck s = .next t ∧ t.res.ReportsMatrix s.inFlight.ops ∧
      t = s.completedWith
        { s.res with
          hdet := t.res.hdet, hdetmod := t.res.hdetmod, hdetinv := t.res.hdetinv, hvalid := t.res.hvalid } s.mem

/-- R104: HILL_INV writes the inverse matrix when gcd(det, 26) = 1, and fails with code 1 otherwise. -/
def Obligations.HillInvWritesTheInverse : Prop :=
  decode 0x00000002 = .ok .hillInv ∧
    ∀ s : State,
      (Int.gcd s.inFlight.ops.det 26 = 1 →
        ∃ t, exec .hillInv s = .next t ∧ t.res.ReportsMatrix s.inFlight.ops ∧ t.res.HoldsInverse s.inFlight.ops ∧
          t.res.hvalid = true ∧
          t = s.completedWith
            { s.res with
              hdet := t.res.hdet, hdetmod := t.res.hdetmod, hdetinv := t.res.hdetinv, hvalid := t.res.hvalid
              i00 := t.res.i00, i01 := t.res.i01, i10 := t.res.i10, i11 := t.res.i11 } s.mem) ∧
      (Int.gcd s.inFlight.ops.det 26 ≠ 1 → exec .hillInv s = .next (s.failedWith 1))

/-- R105: HILL_ENC transforms the pair by the key matrix mod 26. An invalid matrix gives code 1, whatever the letters; a
letter above 25 under a valid matrix gives code 8. -/
def Obligations.HillEncTransformsThePair : Prop :=
  decode 0x00000003 = .ok .hillEnc ∧
    ∀ s : State,
      (Int.gcd s.inFlight.ops.det 26 = 1 → s.inFlight.ops.hinC1.toNat ≤ 25 → s.inFlight.ops.hinC2.toNat ≤ 25 →
        ∃ t, exec .hillEnc s = .next t ∧ t.res.ReportsMatrix s.inFlight.ops ∧ t.res.hvalid = true ∧
          (t.res.o1.toNat : Int) = (s.inFlight.ops.hm00.toInt * s.inFlight.ops.hinC1.toNat
            + s.inFlight.ops.hm01.toInt * s.inFlight.ops.hinC2.toNat) % 26 ∧
          (t.res.o2.toNat : Int) = (s.inFlight.ops.hm10.toInt * s.inFlight.ops.hinC1.toNat
            + s.inFlight.ops.hm11.toInt * s.inFlight.ops.hinC2.toNat) % 26 ∧
          t = s.completedWith
            { s.res with
              hdet := t.res.hdet, hdetmod := t.res.hdetmod, hdetinv := t.res.hdetinv, hvalid := t.res.hvalid
              o1 := t.res.o1, o2 := t.res.o2 } s.mem) ∧
      (Int.gcd s.inFlight.ops.det 26 ≠ 1 → exec .hillEnc s = .next (s.failedWith 1)) ∧
      (Int.gcd s.inFlight.ops.det 26 = 1 → (25 < s.inFlight.ops.hinC1.toNat ∨ 25 < s.inFlight.ops.hinC2.toNat) →
        exec .hillEnc s = .next (s.failedWith 8))

/-- R106: HILL_DEC transforms the pair by the inverse matrix, which it computes from the key matrix and writes to HINV.
Errors are as for HILL_ENC. -/
def Obligations.HillDecTransformsByTheInverse : Prop :=
  decode 0x00000004 = .ok .hillDec ∧
    ∀ s : State,
      (Int.gcd s.inFlight.ops.det 26 = 1 → s.inFlight.ops.hinC1.toNat ≤ 25 → s.inFlight.ops.hinC2.toNat ≤ 25 →
        ∃ t, exec .hillDec s = .next t ∧ t.res.ReportsMatrix s.inFlight.ops ∧ t.res.HoldsInverse s.inFlight.ops ∧
          t.res.hvalid = true ∧
          t.res.o1.toNat = (t.res.i00.toNat * s.inFlight.ops.hinC1.toNat
            + t.res.i01.toNat * s.inFlight.ops.hinC2.toNat) % 26 ∧
          t.res.o2.toNat = (t.res.i10.toNat * s.inFlight.ops.hinC1.toNat
            + t.res.i11.toNat * s.inFlight.ops.hinC2.toNat) % 26 ∧
          t = s.completedWith
            { s.res with
              hdet := t.res.hdet, hdetmod := t.res.hdetmod, hdetinv := t.res.hdetinv, hvalid := t.res.hvalid
              i00 := t.res.i00, i01 := t.res.i01, i10 := t.res.i10, i11 := t.res.i11
              o1 := t.res.o1, o2 := t.res.o2 } s.mem) ∧
      (Int.gcd s.inFlight.ops.det 26 ≠ 1 → exec .hillDec s = .next (s.failedWith 1)) ∧
      (Int.gcd s.inFlight.ops.det 26 = 1 → (25 < s.inFlight.ops.hinC1.toNat ∨ 25 < s.inFlight.ops.hinC2.toNat) →
        exec .hillDec s = .next (s.failedWith 8))

/-- R109: for a valid matrix, HILL_INV leaves in HINV an inverse on both sides mod 26. For every pair of letters, HILL_DEC
applied to the HOUT of HILL_ENC gives the pair back, and HILL_ENC applied to the HOUT of HILL_DEC does too. The second
command runs in any state whose operands are those of the first with the pair replaced. -/
def Obligations.HillEncodeAndDecodeUndoEachOther : Prop :=
  ∀ (s : State) (o : Operands), o = s.inFlight.ops → Int.gcd o.det 26 = 1 →
    (∃ t, exec .hillInv s = .next t ∧
      (o.hm00.toInt * t.res.i00.toNat + o.hm01.toInt * t.res.i10.toNat) % 26 = 1 ∧
      (o.hm00.toInt * t.res.i01.toNat + o.hm01.toInt * t.res.i11.toNat) % 26 = 0 ∧
      (o.hm10.toInt * t.res.i00.toNat + o.hm11.toInt * t.res.i10.toNat) % 26 = 0 ∧
      (o.hm10.toInt * t.res.i01.toNat + o.hm11.toInt * t.res.i11.toNat) % 26 = 1 ∧
      (t.res.i00.toNat * o.hm00.toInt + t.res.i01.toNat * o.hm10.toInt) % 26 = 1 ∧
      (t.res.i00.toNat * o.hm01.toInt + t.res.i01.toNat * o.hm11.toInt) % 26 = 0 ∧
      (t.res.i10.toNat * o.hm00.toInt + t.res.i11.toNat * o.hm10.toInt) % 26 = 0 ∧
      (t.res.i10.toNat * o.hm01.toInt + t.res.i11.toNat * o.hm11.toInt) % 26 = 1) ∧
    (o.hinC1.toNat ≤ 25 → o.hinC2.toNat ≤ 25 →
      (∃ t, exec .hillEnc s = .next t ∧
        ∀ u : State, u.inFlight.ops = { o with hinC1 := t.res.o1, hinC2 := t.res.o2 } →
          ∃ v, exec .hillDec u = .next v ∧ v.res.o1 = o.hinC1 ∧ v.res.o2 = o.hinC2) ∧
      (∃ t, exec .hillDec s = .next t ∧
        ∀ u : State, u.inFlight.ops = { o with hinC1 := t.res.o1, hinC2 := t.res.o2 } →
          ∃ v, exec .hillEnc u = .next v ∧ v.res.o1 = o.hinC1 ∧ v.res.o2 = o.hinC2))

/-- R107, first sentence and the inverse table: a residue has an inverse exactly when it is coprime with 26. -/
def Obligations.InverseScanFindsExactlyTheUnits : Prop :=
  (∀ dm, dm < 26 → (hillScan dm ≠ 0 ↔ Nat.gcd dm 26 = 1)) ∧
    ([1, 3, 5, 7, 9, 11, 15, 17, 19, 21, 23, 25].map hillScan) = [1, 9, 21, 15, 3, 19, 7, 23, 11, 5, 17, 25]

/-- R108: two states whose operands differ only in key-matrix entries with equal residues mod 26 get the same HDETMOD,
HDETINV, HVALID, HINV, HOUT and error code from every Hill command. -/
def Obligations.HillResultsDependOnResiduesOnly : Prop :=
  ∀ (s s' t t' : State) (o o' : Operands) (i : Instr), i ∈ [Instr.hillCheck, .hillInv, .hillEnc, .hillDec] →
    o = s.inFlight.ops → o' = s'.inFlight.ops →
    o' = { o with hm00 := o'.hm00, hm01 := o'.hm01, hm10 := o'.hm10, hm11 := o'.hm11 } →
    s'.res = s.res → s'.status = s.status →
    o.hm00.toInt % 26 = o'.hm00.toInt % 26 → o.hm01.toInt % 26 = o'.hm01.toInt % 26 →
    o.hm10.toInt % 26 = o'.hm10.toInt % 26 → o.hm11.toInt % 26 = o'.hm11.toInt % 26 →
    exec i s = .next t → exec i s' = .next t' →
    t'.res = { t.res with hdet := t'.res.hdet } ∧ t'.status = t.status

/-! ### The Feistel unit -/

/-- R121: the permutations of R120, read as R10 says, are these register bit moves, and IP⁻¹ undoes IP. -/
def Obligations.PermutationTablesMoveTheseBits : Prop :=
  (∀ v : BitVec 10, ∀ k, k < 10 → (perm 10 tableP10 v).getLsbD k = v.getLsbD ([4, 2, 1, 9, 0, 6, 3, 8, 5, 7].getD k 0)) ∧
  (∀ v : BitVec 10, ∀ k, k < 8 → (perm 8 tableP8 v).getLsbD k = v.getLsbD ([1, 0, 5, 2, 6, 3, 7, 4].getD k 0)) ∧
  (∀ v : BitVec 8, ∀ k, k < 8 → (perm 8 tableIP v).getLsbD k = v.getLsbD ([1, 3, 0, 4, 7, 5, 2, 6].getD k 0)) ∧
  (∀ v : BitVec 8, ∀ k, k < 8 → (perm 8 tableIPInv v).getLsbD k = v.getLsbD ([2, 0, 6, 1, 3, 5, 7, 4].getD k 0)) ∧
  (∀ v : BitVec 4, ∀ k, k < 8 → (perm 8 tableEP v).getLsbD k = v.getLsbD ([3, 0, 1, 2, 1, 2, 3, 0].getD k 0)) ∧
  (∀ v : BitVec 4, ∀ k, k < 4 → (perm 4 tableP4 v).getLsbD k = v.getLsbD ([3, 1, 0, 2].getD k 0)) ∧
  (∀ v : BitVec 8, perm 8 tableIPInv (perm 8 tableIP v) = v)

/-- R123, its table: the S-box lookup for every group value. -/
def Obligations.SboxLookupTable : Prop :=
  (List.range 16).map (fun g => (sbox boxS0 (BitVec.ofNat 4 g)).toNat) = [1, 3, 0, 2, 3, 1, 2, 0, 0, 3, 2, 1, 1, 3, 3, 2] ∧
    (List.range 16).map (fun g => (sbox boxS1 (BitVec.ofNat 4 g)).toNat) = [0, 2, 1, 0, 2, 1, 3, 3, 3, 2, 0, 1, 1, 0, 0, 3]

/-- R124 with R122: SDES_KEY needs KLEN = 10, else code 2. The two tables are P8 after the rotations after P10, worked out
by hand from R122: K1 takes the key's positions 1 7 9 4 8 3 10 6, and K2 the positions 8 3 6 5 10 2 9 1. -/
def Obligations.SdesKeySchedulesBothSubkeys : Prop :=
  decode 0x00000010 = .ok .sdesKey ∧
    ∀ s : State,
      (s.inFlight.ops.klen = 10 →
        exec .sdesKey s = .next (s.completedWith
          { s.res with
            k1 := perm 8 [1, 7, 9, 4, 8, 3, 10, 6] s.inFlight.ops.key
            k2 := perm 8 [8, 3, 6, 5, 10, 2, 9, 1] s.inFlight.ops.key
            kvalid := true } s.mem)) ∧
      (s.inFlight.ops.klen ≠ 10 → exec .sdesKey s = .next (s.failedWith 2))

/-- R126, R127 with R125: SDES_ENC and SDES_DEC run the block function with K1, K2 and with K2, K1. KEY_NOT_SCHEDULED is
checked before INVALID_BLOCK_LENGTH, and an error leaves SOUT and everything but STATUS alone. The last clause is the block
function of R125 spelled out: IP, the halves L and R, two rounds with f of EP, XOR, S-boxes and P4, no swap, IP⁻¹. -/
def Obligations.BlockCommandsRunTheBlockFunction : Prop :=
  decode 0x00000011 = .ok .sdesEnc ∧ decode 0x00000012 = .ok .sdesDec ∧
    (∀ s : State,
      (s.inFlight.kvalid = true → s.inFlight.ops.blen = 8 →
        exec .sdesEnc s = .next (s.completedWith
          { s.res with bout := sdesBlock s.inFlight.ops.bin s.inFlight.k1 s.inFlight.k2 } s.mem) ∧
        exec .sdesDec s = .next (s.completedWith
          { s.res with bout := sdesBlock s.inFlight.ops.bin s.inFlight.k2 s.inFlight.k1 } s.mem)) ∧
      (s.inFlight.kvalid = false →
        exec .sdesEnc s = .next (s.failedWith 9) ∧ exec .sdesDec s = .next (s.failedWith 9)) ∧
      (s.inFlight.kvalid = true → s.inFlight.ops.blen ≠ 8 →
        exec .sdesEnc s = .next (s.failedWith 3) ∧ exec .sdesDec s = .next (s.failedWith 3))) ∧
    ∀ (b ka kb : Byte) (l r l1 r1 l2 r2 : BitVec 4) (x1 x2 : Byte), l ++ r = perm 8 tableIP b →
      x1 = perm 8 tableEP r ^^^ ka → l1 = r →
      r1 = l ^^^ perm 4 tableP4 (sbox boxS0 (x1.extractLsb' 4 4) ++ sbox boxS1 (x1.extractLsb' 0 4) : BitVec 4) →
      x2 = perm 8 tableEP r1 ^^^ kb →
      l2 = l1 ^^^ perm 4 tableP4 (sbox boxS0 (x2.extractLsb' 4 4) ++ sbox boxS1 (x2.extractLsb' 0 4) : BitVec 4) →
      r2 = r1 → sdesBlock b ka kb = perm 8 tableIPInv (l2 ++ r2 : Byte)

/-- R128 with R125: SDES_F always succeeds. Its result is P4 of the two S-box outputs of EP(FR) xor FK. -/
def Obligations.SdesFEvaluatesTheRoundFunction : Prop :=
  decode 0x00000013 = .ok .sdesF ∧
    ∀ s : State, ∃ x : Byte, x = perm 8 tableEP s.inFlight.ops.fr ^^^ s.inFlight.ops.fk ∧
      exec .sdesF s = .next (s.completedWith
        { s.res with fout := perm 4 tableP4 (sbox boxS0 (x.extractLsb' 4 4) ++ sbox boxS1 (x.extractLsb' 0 4) : BitVec 4) }
        s.mem)

/-- R131: decryption is encryption with the subkeys swapped, for every block and every subkey pair. -/
def Obligations.BlockFunctionIsUndoneBySwappedSubkeys : Prop :=
  ∀ b ka kb : Byte, sdesBlock (sdesBlock b ka kb) kb ka = b

/-- R129: SDES_ENCB on an ordinary footprint. The checks in order (codes 9, 11, 10); on success byte i of DST becomes the
encryption of byte i of SRC as it was, and nothing else but STATUS changes. In place is allowed. -/
def Obligations.SdesEncbEncryptsTheBuffer : Prop :=
  decode 0x00000014 = .ok .sdesEncb ∧
    ∀ (s : State) (p : Snapshot), p = s.inFlight →
      (p.kvalid = false → exec .sdesEncb s = .next (s.failedWith 9)) ∧
      (p.kvalid = true → (p.srcBlocks.wraps = true ∨ p.dstBlocks.wraps = true) →
        exec .sdesEncb s = .next (s.failedWith 11)) ∧
      (p.kvalid = true → p.srcBlocks.wraps = false → p.dstBlocks.wraps = false →
        p.ops.src ≠ p.ops.dst → p.srcBlocks.overlaps p.dstBlocks = true → exec .sdesEncb s = .next (s.failedWith 10)) ∧
      (p.kvalid = true → p.srcBlocks.wraps = false → p.dstBlocks.wraps = false →
        (p.ops.src = p.ops.dst ∨ p.srcBlocks.overlaps p.dstBlocks = false) → s.FootprintOrdinary .sdesEncb →
        ∃ t, exec .sdesEncb s = .next t ∧ t = s.completedWith s.res t.mem ∧
          (∀ i, i < p.byteCount → t.byteAt (p.dst + i) = sdesBlock (s.byteAt (p.src + i)) p.k1 p.k2) ∧
          ∀ a, p.dstBlocks.contains a = false → t.byteAt a = s.byteAt a)

/-- R130: SDES_DECB, as SDES_ENCB with the subkeys swapped. -/
def Obligations.SdesDecbDecryptsTheBuffer : Prop :=
  decode 0x00000015 = .ok .sdesDecb ∧
    ∀ (s : State) (p : Snapshot), p = s.inFlight →
      (p.kvalid = false → exec .sdesDecb s = .next (s.failedWith 9)) ∧
      (p.kvalid = true → (p.srcBlocks.wraps = true ∨ p.dstBlocks.wraps = true) →
        exec .sdesDecb s = .next (s.failedWith 11)) ∧
      (p.kvalid = true → p.srcBlocks.wraps = false → p.dstBlocks.wraps = false →
        p.ops.src ≠ p.ops.dst → p.srcBlocks.overlaps p.dstBlocks = true → exec .sdesDecb s = .next (s.failedWith 10)) ∧
      (p.kvalid = true → p.srcBlocks.wraps = false → p.dstBlocks.wraps = false →
        (p.ops.src = p.ops.dst ∨ p.srcBlocks.overlaps p.dstBlocks = false) → s.FootprintOrdinary .sdesDecb →
        ∃ t, exec .sdesDecb s = .next t ∧ t = s.completedWith s.res t.mem ∧
          (∀ i, i < p.byteCount → t.byteAt (p.dst + i) = sdesBlock (s.byteAt (p.src + i)) p.k2 p.k1) ∧
          ∀ a, p.dstBlocks.contains a = false → t.byteAt a = s.byteAt a)

/-- R130, corner case: SDES_DECB applied to the output of SDES_ENCB, with the same SUBK and L, restores the input bytes. -/
def Obligations.DecryptingAnEncryptedBufferRestoresIt : Prop :=
  ∀ (s t u : State), s.FootprintOrdinary .sdesEncb → u.FootprintOrdinary .sdesDecb →
    exec .sdesEncb s = .next t → t.status.err = false →
    (∀ a, s.inFlight.dstBlocks.contains a = true → u.byteAt a = t.byteAt a) →
    u.inFlight.kvalid = true → u.inFlight.k1 = s.inFlight.k1 → u.inFlight.k2 = s.inFlight.k2 →
    u.inFlight.ops.src = s.inFlight.ops.dst → u.inFlight.ops.len = s.inFlight.ops.len →
    u.inFlight.dstBlocks.wraps = false →
    (u.inFlight.ops.src = u.inFlight.ops.dst ∨ u.inFlight.srcBlocks.overlaps u.inFlight.dstBlocks = false) →
    ∃ v, exec .sdesDecb u = .next v ∧ v.status.err = false ∧
      ∀ i, i < s.inFlight.byteCount → v.byteAt (u.inFlight.dst + i) = s.byteAt (s.inFlight.src + i)

/-! ### The LSB unit -/

/-- R150, R152: the packed bytes of a bit stream, stored in memory, read back as the stream. -/
def Obligations.PackedBytesReadBackAsTheStream : Prop :=
  ∀ (m : List Host.Cell) (a : Nat) (bs : List Bool),
    bits (Memory.fill m a ((bs.length + 7) / 8) (fun x => packedByte bs (x - a))) a bs.length = bs ∧
      segmentBlocks bs = (List.range ((bs.length + 7) / 8)).map
        (Memory.read (Memory.fill m a ((bs.length + 7) / 8) (fun x => packedByte bs (x - a))) <| a + ·)

/-- R65, R67: a region wraps exactly when it has a byte past the address space, and two regions overlap exactly when they
share a byte. -/
def Obligations.WrapAndOverlapAreAboutBytes : Prop :=
  (∀ r : Region, r.wraps = true ↔ ∃ a, r.contains a = true ∧ 2 ^ 32 ≤ a) ∧
    ∀ r q : Region, r.overlaps q = true ↔ ∃ a, r.contains a = true ∧ q.contains a = true

/-- R170 on an ordinary footprint: LSB_EMBED's statistics, its stego buffer byte by byte (walked channels get the stream
bit, every other byte is the carrier's), the exact SSE and PSNR_INF; every byte outside DST is unchanged. -/
def Obligations.LsbEmbedWritesTheStegoBuffer : Prop :=
  decode 0x00000020 = .ok .lsbEmbed ∧
    ∀ (s : State) (p : Snapshot), p = s.inFlight → p.payloadBits + 16 ≤ 3 * p.pixels →
      p.srcPixels.wraps = false → p.dstPixels.wraps = false → p.payload.wraps = false →
      p.dstPixels.overlaps p.srcPixels = false → p.dstPixels.overlaps p.payload = false →
      s.FootprintOrdinary .lsbEmbed →
      ∃ t, exec .lsbEmbed s = .next t ∧
        t = s.completedWith
          { s.res with
            cap := t.res.cap, used := t.res.used, ptouch := t.res.ptouch
            sseLo := t.res.sseLo, sseHi := t.res.sseHi, psnrInf := t.res.psnrInf } t.mem ∧
        t.res.cap.toNat = 3 * p.pixels ∧ t.res.used.toNat = p.payloadBits + 16 ∧
        t.res.ptouch.toNat = (p.payloadBits + 16 + 2) / 3 ∧
        (∀ j, j < p.payloadBits + 16 → t.byteAt (p.dst + (4 * (j / 3) + j % 3)) =
          (s.byteAt (p.src + (4 * (j / 3) + j % 3)) &&& 0xFE) ||| (if s.fullBit p j then 1 else 0)) ∧
        (∀ q, q < 4 * p.pixels → (q % 4 = 3 ∨ p.payloadBits + 16 ≤ 3 * (q / 4) + q % 4) →
          t.byteAt (p.dst + q) = s.byteAt (p.src + q)) ∧
        (∀ a, p.dstPixels.contains a = false → t.byteAt a = s.byteAt a) ∧
        (t.res.sse : Int) = channelSse (fun q => s.byteAt (p.src + q)) (fun q => t.byteAt (p.dst + q)) p.pixels ∧
        (t.res.psnrInf = true ↔ t.res.sse = 0)

/-- R170's eager checks, in order: codes 4, 11 and 10, each leaving everything but STATUS alone. The capacity bound is
exact (R174). -/
def Obligations.LsbEmbedChecksInOrder : Prop :=
  ∀ (s : State) (p : Snapshot), p = s.inFlight →
    (3 * p.pixels < p.payloadBits + 16 → exec .lsbEmbed s = .next (s.failedWith 4)) ∧
    (p.payloadBits + 16 ≤ 3 * p.pixels →
      (p.srcPixels.wraps = true ∨ p.dstPixels.wraps = true ∨ p.payload.wraps = true) →
      exec .lsbEmbed s = .next (s.failedWith 11)) ∧
    (p.payloadBits + 16 ≤ 3 * p.pixels → p.srcPixels.wraps = false → p.dstPixels.wraps = false → p.payload.wraps = false →
      (p.dstPixels.overlaps p.srcPixels = true ∨ p.dstPixels.overlaps p.payload = true) →
      exec .lsbEmbed s = .next (s.failedWith 10))

/-- R173: after a successful LSB_EMBED, DST differs from SRC only at walked bytes, each by 1 or 0. The SSE is the number of
walked channels whose low bit was not already the stream bit, so at most U = P + 16, and PSNR_INF = 1 iff there is none. -/
def Obligations.EmbedFlipsAtMostOneBitPerChannel : Prop :=
  ∀ (s t : State) (p : Snapshot), p = s.inFlight → s.FootprintOrdinary .lsbEmbed →
    exec .lsbEmbed s = .next t → t.status.err = false →
    (∀ q, q < 4 * p.pixels →
      (((t.byteAt (p.dst + q)).toNat : Int) - ((s.byteAt (p.src + q)).toNat : Int)).natAbs ≤ 1) ∧
    (∀ q, q < 4 * p.pixels → t.byteAt (p.dst + q) ≠ s.byteAt (p.src + q) →
      ∃ j, j < p.payloadBits + 16 ∧ q = 4 * (j / 3) + j % 3) ∧
    t.res.sse = ((List.range (p.payloadBits + 16)).filter (fun j => s.fullBit p j != s.lsbAt p.src j)).length ∧
    t.res.sse ≤ p.payloadBits + 16 ∧
    (t.res.psnrInf = true ↔ ∀ j, j < p.payloadBits + 16 → s.fullBit p j = s.lsbAt p.src j)

/-- R171 on an ordinary footprint, success: the delimiter's first place in the walked stream is X. XBITS is X, DST holds
the X bits packed with zero padding, and every other byte is unchanged. -/
def Obligations.LsbExtractReturnsTheBitsBeforeTheDelimiter : Prop :=
  decode 0x00000021 = .ok .lsbExtract ∧
    ∀ (s : State) (p : Snapshot) (x : Nat), p = s.inFlight →
      p.srcPixels.wraps = false → p.extractOut.wraps = false → p.extractOut.overlaps p.srcPixels = false →
      s.FootprintOrdinary .lsbExtract → x + 16 ≤ 3 * p.pixels →
      DelimAt (s.lsbAt p.src) x → (∀ y, y < x → ¬ DelimAt (s.lsbAt p.src) y) →
      ∃ t, exec .lsbExtract s = .next t ∧ t = s.completedWith { s.res with xbits := t.res.xbits } t.mem ∧
        t.res.xbits.toNat = x ∧
        (∀ k b, k < (x + 7) / 8 → b < 8 → (t.byteAt (p.dst + k)).getLsbD (7 - b) =
          (decide (8 * k + b < x) && s.lsbAt p.src (8 * k + b))) ∧
        ∀ a, (Region.mk p.dst ((x + 7) / 8)).contains a = false → t.byteAt a = s.byteAt a

/-- R171 and R237: the eager checks of LSB_EXTRACT (codes 11 and 10), and DELIMITER_NOT_FOUND when no delimiter stands in
the walked stream: only STATUS and bytes of (DST, XMAX) change. -/
def Obligations.LsbExtractErrors : Prop :=
  ∀ (s : State) (p : Snapshot), p = s.inFlight →
    ((p.srcPixels.wraps = true ∨ p.extractOut.wraps = true) → exec .lsbExtract s = .next (s.failedWith 11)) ∧
    (p.srcPixels.wraps = false → p.extractOut.wraps = false → p.extractOut.overlaps p.srcPixels = true →
      exec .lsbExtract s = .next (s.failedWith 10)) ∧
    (p.srcPixels.wraps = false → p.extractOut.wraps = false → p.extractOut.overlaps p.srcPixels = false →
      s.FootprintOrdinary .lsbExtract →
      (∀ x, x + 16 ≤ 3 * p.pixels → ¬ DelimAt (s.lsbAt p.src) x) →
      ∃ t, exec .lsbExtract s = .next t ∧ s.FailedInFlight t 5 [p.extractOut])

/-- R175: LSB_EXTRACT on the buffer an LSB_EMBED produced. Without the delimiter in the payload it returns the payload;
with it, the prefix before the first occurrence. -/
def Obligations.ExtractReturnsWhatWasEmbedded : Prop :=
  ∀ (s t u : State) (p p' : Snapshot), p = s.inFlight → p' = u.inFlight →
    s.FootprintOrdinary .lsbEmbed → exec .lsbEmbed s = .next t → t.status.err = false →
    (∀ a, p.dstPixels.contains a = true → u.byteAt a = t.byteAt a) →
    p'.ops.src = p.ops.dst → p'.ops.npix = p.ops.npix →
    u.FootprintOrdinary .lsbExtract → p'.extractOut.wraps = false → p'.extractOut.overlaps p'.srcPixels = false →
    ((∀ y, y + 16 ≤ p.payloadBits → ¬ DelimAt (s.fullBit p) y) →
      ∃ v, exec .lsbExtract u = .next v ∧ v.status.err = false ∧ v.res.xbits.toNat = p.payloadBits ∧
        bits v.mem p'.dst p.payloadBits = bits s.mem p.paddr p.payloadBits) ∧
    (∀ x, x + 16 ≤ p.payloadBits → DelimAt (s.fullBit p) x → (∀ y, y < x → ¬ DelimAt (s.fullBit p) y) →
      ∃ v, exec .lsbExtract u = .next v ∧ v.status.err = false ∧ v.res.xbits.toNat = x ∧
        bits v.mem p'.dst x = bits s.mem p.paddr x)

/-- R172 with R163: PSNR_SSE fails with code 11 on a wrap. On an ordinary footprint it writes the exact SSE, which the 64-bit
register never truncates, and PSNR_INF. Memory is unchanged. -/
def Obligations.PsnrSseSumsTheSquaredDifferences : Prop :=
  decode 0x00000022 = .ok .psnrSse ∧
    ∀ (s : State) (p : Snapshot), p = s.inFlight →
      ((p.srcPixels.wraps = true ∨ p.refPixels.wraps = true) → exec .psnrSse s = .next (s.failedWith 11)) ∧
      (p.srcPixels.wraps = false → p.refPixels.wraps = false → s.FootprintOrdinary .psnrSse →
        ∃ t, exec .psnrSse s = .next t ∧
          t = s.completedWith
            { s.res with sseLo := t.res.sseLo, sseHi := t.res.sseHi, psnrInf := t.res.psnrInf } s.mem ∧
          (t.res.sse : Int) = channelSse (fun q => s.byteAt (p.src + q)) (fun q => s.byteAt (p.ref + q)) p.pixels ∧
          t.res.sse ≤ 195075 * p.pixels ∧ (t.res.psnrInf = true ↔ t.res.sse = 0))

/-- R176: `psnr(SSE, N)` is infinite for SSE = 0. Otherwise it is the one real number that both forms of the formula give. -/
def Obligations.PsnrFormulasAgree : Prop :=
  (∀ (n : Nat) (x : EReal), (psnr 0 n).Denotes x ↔ x = ⊤) ∧
    ∀ (e n : Nat) (x : EReal), 0 < e → 0 < n →
      ((psnr e n).Denotes x ↔ x = ((20 * Real.logb 10 (255 / Real.sqrt ((e : ℝ) / (3 * n))) : ℝ) : EReal)) ∧
      ((psnr e n).Denotes x ↔ x = ((10 * Real.logb 10 (195075 * n / e) : ℝ) : EReal))

/-! ### Bus errors, footprints and the whole machine -/

/-- R70, first sentence, for the commands whose accessed bytes the snapshot fixes: an accessed byte that the platform does
not answer ends the command with code 12. Only STATUS and bytes of the write regions change. That these are the accessed
bytes is read from the pseudocode (notes/assumptions/3.md). -/
def Obligations.UnansweredAccessEndsInBusError : Prop :=
  ∀ (s : State) (p : Snapshot), p = s.inFlight →
    (∀ i ∈ [Instr.sdesEncb, .sdesDecb], s.FootprintIsMemory i → p.kvalid = true →
      p.srcBlocks.wraps = false → p.dstBlocks.wraps = false →
      (p.ops.src = p.ops.dst ∨ p.srcBlocks.overlaps p.dstBlocks = false) →
      (∃ k, k < p.byteCount ∧ (s.memOk (p.src + k) = false ∨ s.memOk (p.dst + k) = false)) →
      ∃ t, exec i s = .next t ∧ s.FailedInFlight t 12 [p.dstBlocks]) ∧
    (s.FootprintIsMemory .lsbEmbed → p.payloadBits + 16 ≤ 3 * p.pixels →
      p.srcPixels.wraps = false → p.dstPixels.wraps = false → p.payload.wraps = false →
      p.dstPixels.overlaps p.srcPixels = false → p.dstPixels.overlaps p.payload = false →
      (∃ a, covers (footprint .lsbEmbed p) a = true ∧ s.memOk a = false) →
      ∃ t, exec .lsbEmbed s = .next t ∧ s.FailedInFlight t 12 [p.dstPixels]) ∧
    (s.FootprintIsMemory .psnrSse → p.srcPixels.wraps = false → p.refPixels.wraps = false →
      (∃ q, q < 4 * p.pixels ∧ q % 4 ≠ 3 ∧ (s.memOk (p.src + q) = false ∨ s.memOk (p.ref + q) = false)) →
      ∃ t, exec .psnrSse s = .next t ∧ s.FailedInFlight t 12 [])

/-- R233, last part: a bus error on a walked read before any delimiter is complete wins over everything that would follow,
and a bus error on a payload write after the match gives code 12 too. Only STATUS and bytes of (DST, XMAX) change (R66, R237).
That these bytes are accessed, so that an unanswered one must end the command in code 12 (R70), is read from R171's
pseudocode and is the model's (notes/assumptions/3.md). -/
def Obligations.ExtractReadErrorBeforeTheDelimiterWins : Prop :=
  ∀ (s : State) (p : Snapshot), p = s.inFlight → s.FootprintIsMemory .lsbExtract →
    p.srcPixels.wraps = false → p.extractOut.wraps = false → p.extractOut.overlaps p.srcPixels = false →
    (∀ j, j < 3 * p.pixels → s.memOk (p.src + (4 * (j / 3) + j % 3)) = false →
      (∀ x, x + 16 ≤ j → ¬ DelimAt (s.lsbAt p.src) x) →
      ∃ t, exec .lsbExtract s = .next t ∧ s.FailedInFlight t 12 [p.extractOut]) ∧
    (∀ x k, x + 16 ≤ 3 * p.pixels → DelimAt (s.lsbAt p.src) x → (∀ y, y < x → ¬ DelimAt (s.lsbAt p.src) y) →
      k < (x + 7) / 8 → s.memOk (p.dst + k) = false →
      ∃ t, exec .lsbExtract s = .next t ∧ s.FailedInFlight t 12 [p.extractOut])

/-- R230, R235, and R47's last sentence, for every command: a completion leaves IDLE and DONE = 1, ERR = 1 exactly with a
code other than 0, and never touches an operand register, CTRL.IE, WERR, the platform, the host's cache, or what is pending or
observed. -/
def Obligations.EveryCompletionKeepsOperandsAndControl : Prop :=
  ∀ (i : Instr) (s t : State), exec i s = .next t →
    t.phase = .idle ∧ t.status.done = true ∧ (t.status.err = true ↔ t.status.errcode ≠ 0) ∧
      t.status.werr = s.status.werr ∧ t.ops = s.ops ∧ t.ie = s.ie ∧ t.platform = s.platform ∧
      t.hostCache = s.hostCache ∧ t.inputs = s.inputs ∧ t.observed = s.observed

/-- R236: a completion with any error code but 5 and 12 changes only BUSY, DONE, ERR and ERRCODE, on whatever platform. -/
def Obligations.EagerErrorsChangeOnlyStatus : Prop :=
  ∀ (i : Instr) (s t : State), exec i s = .next t → t.status.err = true → t.status.errcode ≠ 5 → t.status.errcode ≠ 12 →
    t = s.failedWith t.status.errcode

/-- R237: a completion with code 5 or 12 changes no result register and no byte outside the command's write regions. -/
def Obligations.InFlightErrorsLeaveResultsAlone : Prop :=
  ∀ (i : Instr) (s t : State), exec i s = .next t → (t.status.errcode = 5 ∨ t.status.errcode = 12) →
    s.FailedInFlight t t.status.errcode (writeRegions i s.inFlight)

/-- R66: no command changes a byte outside its write regions, however it ends. -/
def Obligations.CommandsWriteOnlyTheirWriteRegions : Prop :=
  ∀ (i : Instr) (s t : State) (a : Nat), exec i s = .next t → covers (writeRegions i s.inFlight) a = false →
    t.byteAt a = s.byteAt a

/-- R272: a command's outcome depends on the snapshot and on the bytes of its read regions only. Two states that agree on
those (and on what a completion leaves alone, the platform, and the free values) end alike: same results, same status, and
every byte is either written alike or left alone in both. -/
def Obligations.OutcomeDependsOnlyOnTheReadRegions : Prop :=
  ∀ (i : Instr) (s s' t : State), s.inFlight = s'.inFlight → s.res = s'.res → s.status.werr = s'.status.werr →
    s.platform = s'.platform → s.draws = s'.draws →
    (∀ a, covers (readRegions i s.inFlight) a = true → s.byteAt a = s'.byteAt a) →
    exec i s = .next t →
    ∃ t', exec i s' = .next t' ∧ t.res = t'.res ∧ t.status = t'.status ∧
      ∀ a, t.byteAt a = t'.byteAt a ∨ (t.byteAt a = s.byteAt a ∧ t'.byteAt a = s'.byteAt a)

/-- R270: another agent's store to a footprint byte of the command in BUSY is a HazardFault. A store elsewhere, or in IDLE,
changes that byte only. A read from a write region gives some value, any other read gives the memory's byte, and a read never
disturbs the command. That the footprint counts whatever the command's checks will say is the model's reading
(notes/assumptions/9.md).
R75, for the host's own loads and stores: with PLATFORM_COHERENT they are the accesses above. Without it a store is the hazard
on the same bytes; elsewhere it leaves memory alone until its write-back, and a load of a byte whose copy was dropped gets what
memory holds. How the host's cache behaves beyond that is the model's choice (notes/assumptions/12.md). -/
def Obligations.FootprintHazardFaults : Prop :=
  ∀ (s : State) (a : Word) (v : Byte),
    (covers s.phase.footprint a.toNat = true →
      takeInput s (.memWrite a v) = .fault .hazard ∧ takeInput s (.hostStore a v) = .fault .hazard) ∧
    (covers s.phase.footprint a.toNat = false → covers s.platform.nonMemory a.toNat = false →
      ∃ t, takeInput s (.memWrite a v) = .next t ∧ t = { s with mem := t.mem } ∧ t.byteAt a.toNat = v ∧
        ∀ b, b ≠ a.toNat → t.byteAt b = s.byteAt b) ∧
    (covers s.phase.writeRegions a.toNat = true ∨ covers s.platform.nonMemory a.toNat = false →
      ∃ t x, takeInput s (.memRead a) = .next t ∧
        t = { s with observed := .mem a x :: s.observed, draws := t.draws } ∧
        (covers s.phase.writeRegions a.toNat = false → x = s.byteAt a.toNat)) ∧
    (s.platform.coherent = true →
      takeInput s (.hostStore a v) = takeInput s (.memWrite a v) ∧ takeInput s (.hostLoad a) = takeInput s (.memRead a) ∧
        takeInput s (.writeBack a) = .next s ∧ takeInput s (.invalidate a) = .next s) ∧
    (s.platform.coherent = false → covers s.platform.nonMemory a.toNat = false →
      (covers s.phase.footprint a.toNat = false →
        ∃ t u, takeInput s (.hostStore a v) = .next t ∧ t = { s with hostCache := t.hostCache } ∧
          takeInput t (.writeBack a) = .next u ∧ u = { t with mem := u.mem, hostCache := u.hostCache } ∧
          u.byteAt a.toNat = v ∧ ∀ b, b ≠ a.toNat → u.byteAt b = s.byteAt b) ∧
      (covers s.phase.writeRegions a.toNat = false → ∃ t u, takeInput s (.invalidate a) = .next t ∧ t = { s with hostCache := t.hostCache } ∧
        takeInput t (.hostLoad a) = .next u ∧
        u = { t with observed := .mem a (s.byteAt a.toNat) :: s.observed, hostCache := u.hostCache }))

/-- The only faults are the two the spec asks for (R270, R69): a step faults only on another agent's store to a footprint
byte in BUSY (a write-back of the host's cache among them), or when the command in BUSY or its abort would act on non-memory. A command with non-memory in its footprint
faults unless an eager check ends it first, and a reset in BUSY faults there too. Where this fault is raised is the model's
choice (notes/assumptions/10.md). -/
def Obligations.FaultsHaveOnlyTheirCauses : Prop :=
  (∀ (s : State) (f : Fault), step s = .fault f →
    (f = .hazard ∧ ∃ a v rest, covers s.phase.footprint a.toNat = true ∧
        (s.inputs = .memWrite a v :: rest ∨ s.inputs = .hostStore a v :: rest ∨
          (s.inputs = .writeBack a :: rest ∧ s.platform.coherent = false ∧
            Cache.read s.hostCache a.toNat = some ⟨v, true⟩))) ∨
      (f = .notMemory ∧ ∃ a, covers s.phase.footprint a = true ∧ covers s.platform.nonMemory a = true)) ∧
  (∀ (i : Instr) (s : State),
    (∃ a, covers (footprint i s.inFlight) a = true ∧ covers s.platform.nonMemory a = true) →
    exec i s = .fault .notMemory ∨ ∃ c, exec i s = .next (s.failedWith c) ∧ c ≠ 0 ∧ c ≠ 5 ∧ c ≠ 12) ∧
  ∀ s : State, (∃ a, covers s.phase.footprint a = true ∧ covers s.platform.nonMemory a = true) →
    takeInput s .rst = .fault .notMemory

/-- No step refuses a command: a refusal is always a host access that touches the window without being an aligned 32-bit access
inside it (R62, I7), or another agent's or the host's access to an address that is no memory (R69). The first kind always is
refused, the second outside the bytes of R270. A host access that touches no byte of the window leaves the state as it is
(R77, I8). Both refusals and the reading of I8 are the model's (notes/assumptions/8.md, 10.md and 15.md). -/
def Obligations.OnlyOutsideAccessesAreRefused : Prop :=
  (∀ (s : State) (a : Word) (v : Byte), covers s.platform.nonMemory a.toNat = true →
    (covers s.phase.footprint a.toNat = false → takeInput s (.memWrite a v) = .refused .platformDevice ∧
      takeInput s (.hostStore a v) = .refused .platformDevice) ∧
    (covers s.phase.writeRegions a.toNat = false → takeInput s (.memRead a) = .refused .platformDevice ∧
      takeInput s (.hostLoad a) = .refused .platformDevice)) ∧
  (∀ (s : State) (size : Size) (addr : Nat) (v : Word),
    (s.platform.base < addr + sizeBytes size → addr < s.platform.base + 0x100 →
      ¬ (size = .word ∧ s.platform.base ≤ addr ∧ (addr - s.platform.base) % 4 = 0) →
      takeInput s (.busRead size addr) = .refused .narrowAccess ∧
        takeInput s (.busWrite size addr v) = .refused .narrowAccess) ∧
    (addr + sizeBytes size ≤ s.platform.base ∨ s.platform.base + 0x100 ≤ addr →
      takeInput s (.busRead size addr) = .next s ∧ takeInput s (.busWrite size addr v) = .next s)) ∧
  ∀ (s : State) (r : Refusal), step s = .refused r →
    (r = .narrowAccess ∧ ∃ size addr rest, (s.inputs = .busRead size addr :: rest ∨
        ∃ v, s.inputs = .busWrite size addr v :: rest) ∧
        s.platform.base < addr + sizeBytes size ∧ addr < s.platform.base + 0x100 ∧
        ¬ (size = .word ∧ s.platform.base ≤ addr ∧ (addr - s.platform.base) % 4 = 0)) ∨
      (r = .platformDevice ∧ ∃ a rest, (s.inputs = .memRead a :: rest ∨ s.inputs = .hostLoad a :: rest ∨
          s.inputs = .writeBack a :: rest ∨
          ∃ v, s.inputs = .memWrite a v :: rest ∨ s.inputs = .hostStore a v :: rest) ∧
        covers s.platform.nonMemory a.toNat = true)

/-- R51, the rows of the result flags: without a reset, KVALID is never cleared and only a successful SDES_KEY sets it. Only a
Hill command changes HVALID, and only HILL_CHECK of an invalid matrix clears it. Only LSB_EMBED or PSNR_SSE changes PSNR_INF.
A success of those commands leaves KVALID = 1, HVALID = the matrix's validity, and PSNR_INF = 1 exactly when SSE is 0. -/
def Obligations.ResultFlagsChangeOnlyAsTabled : Prop :=
  ∀ s t : State, step s = .next t → ¬ s.ResetIsNext →
    (s.res.kvalid = true → t.res.kvalid = true) ∧
    (t.res.kvalid ≠ s.res.kvalid →
      ∃ w p, s.phase = .busy w p ∧ decode w = .ok .sdesKey ∧ p.ops.klen = 10 ∧ t.status.err = false) ∧
    (t.res.hvalid ≠ s.res.hvalid → ∃ w p i, s.phase = .busy w p ∧ decode w = .ok i ∧
      i ∈ [Instr.hillCheck, .hillInv, .hillEnc, .hillDec] ∧ t.status.err = false) ∧
    (s.res.hvalid = true → t.res.hvalid = false →
      ∃ w p, s.phase = .busy w p ∧ decode w = .ok .hillCheck ∧ Int.gcd p.ops.det 26 ≠ 1) ∧
    (t.res.psnrInf ≠ s.res.psnrInf → ∃ w p i, s.phase = .busy w p ∧ decode w = .ok i ∧
      i ∈ [Instr.lsbEmbed, .psnrSse] ∧ t.status.err = false) ∧
    ∀ w p i, s.phase = .busy w p → decode w = .ok i → t.phase = .idle → t.status.err = false →
      (i = .sdesKey → t.res.kvalid = true) ∧
      (i ∈ [Instr.hillCheck, .hillInv, .hillEnc, .hillDec] → (t.res.hvalid = true ↔ Int.gcd p.ops.det 26 = 1)) ∧
      (i ∈ [Instr.hillInv, .hillEnc, .hillDec] → t.res.hvalid = true) ∧
      (i ∈ [Instr.lsbEmbed, .psnrSse] → (t.res.psnrInf = true ↔ t.res.sse = 0))

/-- R239, and the WERR row of R51: once set, WERR stays until the host writes 1 to it or a reset occurs. -/
def Obligations.WerrStaysUntilClearedOrReset : Prop :=
  ∀ s t : State, step s = .next t → s.status.werr = true → t.status.werr = false →
    s.ResetIsNext ∨ ∃ v rest, v.getLsbD 3 = true ∧ s.inputs = .busWrite .word (s.platform.base + 0x008) v :: rest

/-- R241, last sentence, with R23: IE changes only by a write to CTRL or a reset. -/
def Obligations.OnlyCtrlWritesAndResetsChangeIe : Prop :=
  ∀ s t : State, step s = .next t → t.ie ≠ s.ie →
    s.inputs.head? = some .rst ∨ ∃ v, s.inputs.head? = some (.busWrite .word (s.platform.base + 0x004) v)

/-- R49, R71(c), R273: while a command stays in BUSY, its word, its snapshot, the operand registers, the results and every
byte of its footprint stay as they were at acceptance. -/
def Obligations.BusyFreezesOperandsResultsAndFootprint : Prop :=
  ∀ (s t : State) (w : Word) (p : Snapshot), s.phase = .busy w p → step s = .next t → t.phase ≠ .idle →
    t.phase = .busy w p ∧ t.ops = s.ops ∧ t.res = s.res ∧
      ∀ a, covers s.phase.footprint a = true → t.byteAt a = s.byteAt a

/-- R277: from BUSY, with only engine moves and aligned register accesses other than CTRL writes pending, the command
completes within as many steps as there are pending events, plus one. That the engine moves once nothing is pending is the
model's form of weak fairness (notes/assumptions/5.md). -/
def Obligations.AcceptedCommandCompletes : Prop :=
  ∀ (s : State) (w : Word) (p : Snapshot), s.phase = .busy w p → s.platform.nonMemory = [] →
    (∀ e ∈ s.inputs, e = .engine ∨ ∃ r, e = .busRead .word (s.platform.base + regOffset r) ∨
      (r ≠ .ctrl ∧ ∃ v, e = .busWrite .word (s.platform.base + regOffset r) v)) →
    ∃ k t, k ≤ s.inputs.length + 1 ∧ runSteps k s = .next t ∧ t.phase = .idle ∧ t.status.done = true

/-- The invariant holds at reset. -/
def Obligations.InvariantHoldsAtReset : Prop := State.reset.Inv

/-- Every step keeps the invariant, from every state that has it: canonical memory and host cache, no reserved error code
(R232), ERR with ERRCODE, BUSY with a clear STATUS and its snapshot (R234, R273), residues in 0..25, HVALID with HDETINV,
PSNR_INF over a zero SSE, USED within CAP, no subkey without a key. -/
def Obligations.EveryStepKeepsTheInvariant : Prop :=
  ∀ s t : State, s.Inv → step s = .next t → t.Inv
end

