-- ==== Sys2Proof/Laws/Memory.lean ====
section
/-! SUPPORT. The laws of memory: a read after a write, a read after a fill, and the canonical form, which every memory
operation keeps. -/

namespace Sys2Proof.Machine

@[simp] theorem Memory.read_nil (a : Nat) : Memory.read [] a = unlistedByte := rfl

theorem Memory.read_erase (m : List Host.Cell) (a b : Nat) :
    Memory.read (Memory.erase m a) b = if b = a then unlistedByte else Memory.read m b := by
  induction m with
  | nil => simp [Memory.erase, Memory.read]
  | cons c rest ih =>
    simp only [Memory.erase] at ih
    by_cases hc : c.1 = a
    · by_cases hb : b = a
      · simp_all [Memory.erase]
      · have : ¬ c.1 = b := by omega
        simp_all [Memory.erase, Memory.read]
    · by_cases hb : b = a
      · subst hb; simp_all [Memory.erase, Memory.read]
      · simp_all [Memory.erase, Memory.read]

theorem Memory.read_insert (m : List Host.Cell) (a b : Nat) (v : Byte) (h : ∀ c ∈ m, c.1 ≠ a) :
    Memory.read (Memory.insert m a v) b = if b = a then v else Memory.read m b := by
  induction m with
  | nil =>
    by_cases hb : b = a
    · simp [Memory.insert, Memory.read, hb]
    · simp [Memory.insert, Memory.read, hb, Ne.symm hb]
  | cons c rest ih =>
    have hc : c.1 ≠ a := h c (by simp)
    have ih := ih (fun d hd => h d (by simp [hd]))
    unfold Memory.insert
    split
    · by_cases hb : b = a
      · simp [Memory.read, hb]
      · simp [Memory.read, hb, Ne.symm hb]
    · by_cases hb : b = a
      · subst hb; simp [Memory.read, hc, ih]
      · simp [Memory.read, ih, hb]

theorem Memory.mem_erase {α : Type} {m : List (Nat × α)} {a : Nat} {c : Nat × α} (h : c ∈ Memory.erase m a) : c ∈ m ∧ c.1 ≠ a := by
  simpa [Memory.erase] using h

/-- Everything a byte write does to reads: the byte written is there, every other byte is as before. -/
@[simp] theorem Memory.read_write (m : List Host.Cell) (a b : Nat) (v : Byte) :
    Memory.read (Memory.write m a v) b = if b = a then v else Memory.read m b := by
  unfold Memory.write
  split
  · rename_i h; rw [Memory.read_erase, h]
  · rw [Memory.read_insert _ _ _ _ (fun c hc => (Memory.mem_erase hc).2), Memory.read_erase]
    split <;> simp_all

/-- Everything a fill does to reads: the filled addresses read as the function says, every other byte is as before. -/
theorem Memory.read_fill (m : List Host.Cell) (a n : Nat) (f : Nat → Byte) (b : Nat) :
    Memory.read (Memory.fill m a n f) b = if a ≤ b ∧ b < a + n then f b else Memory.read m b := by
  induction n with
  | zero => simp [Memory.fill, show ¬ (a ≤ b ∧ b < a) by omega]
  | succ k ih =>
    simp only [Memory.fill, Memory.read_write, ih]
    by_cases hb : b = a + k
    · subst hb; simp
    · by_cases h1 : a ≤ b ∧ b < a + k
      · have h2 : a ≤ b ∧ b < a + (k + 1) := by omega
        simp [hb, h1, h2]
      · have h2 : ¬ (a ≤ b ∧ b < a + (k + 1)) := by omega
        simp [hb, h1, h2]

theorem Memory.read_fill_in {m : List Host.Cell} {a n : Nat} {f : Nat → Byte} {b : Nat} (h1 : a ≤ b) (h2 : b < a + n) :
    Memory.read (Memory.fill m a n f) b = f b := by
  rw [Memory.read_fill, if_pos ⟨h1, h2⟩]

theorem Memory.read_fill_out {m : List Host.Cell} {a n : Nat} {f : Nat → Byte} {b : Nat} (h : ¬ (a ≤ b ∧ b < a + n)) :
    Memory.read (Memory.fill m a n f) b = Memory.read m b := by
  rw [Memory.read_fill, if_neg h]

theorem Memory.wf_nil : Memory.wf [] := by simp [Memory.wf]

theorem Memory.wf_erase {m : List Host.Cell} (h : Memory.wf m) (a : Nat) : Memory.wf (Memory.erase m a) :=
  ⟨h.1.filter _, fun c hc => h.2 c (Memory.mem_erase hc).1⟩

theorem Memory.mem_insert {α : Type} {m : List (Nat × α)} {a : Nat} {v : α} {c : Nat × α} :
    c ∈ Memory.insert m a v ↔ c = (a, v) ∨ c ∈ m := by
  induction m with
  | nil => simp [Memory.insert]
  | cons d rest ih =>
    unfold Memory.insert
    split
    · simp
    · simp only [List.mem_cons, ih]; tauto

theorem Memory.sorted_insert {α : Type} {m : List (Nat × α)} {a : Nat} {v : α} (h : m.Pairwise (fun c d => c.1 < d.1))
    (ha : ∀ c ∈ m, c.1 ≠ a) : (Memory.insert m a v).Pairwise (fun c d => c.1 < d.1) := by
  induction m with
  | nil => simp [Memory.insert]
  | cons d rest ih =>
    rw [List.pairwise_cons] at h
    have hd : d.1 ≠ a := ha d (by simp)
    unfold Memory.insert
    split
    · rename_i hlt
      refine List.pairwise_cons.2 ⟨fun c hc => ?_, List.pairwise_cons.2 h⟩
      rcases List.mem_cons.1 hc with rfl | hc
      · exact hlt
      · exact Nat.lt_trans hlt (h.1 c hc)
    · rename_i hlt
      refine List.pairwise_cons.2 ⟨fun c hc => ?_, ih h.2 (fun c hc => ha c (by simp [hc]))⟩
      rcases Memory.mem_insert.1 hc with rfl | hc
      · show d.1 < a; omega
      · exact h.1 c hc

/-- A write inside the address space keeps the canonical form. -/
theorem Memory.wf_write {m : List Host.Cell} (h : Memory.wf m) {a : Nat} (ha : a < addrSpace) (v : Byte) :
    Memory.wf (Memory.write m a v) := by
  unfold Memory.write
  split
  · exact Memory.wf_erase h a
  · rename_i hv
    have he := Memory.wf_erase h a
    refine ⟨Memory.sorted_insert he.1 (fun c hc => (Memory.mem_erase hc).2), fun c hc => ?_⟩
    rcases Memory.mem_insert.1 hc with rfl | hc
    · exact ⟨ha, hv⟩
    · exact he.2 c hc

/-- Dropping a byte's copy keeps the canonical form of the host cache. -/
theorem Cache.wf_erase {m : List (Nat × CachedByte)} (h : Cache.wf m) (a : Nat) : Cache.wf (Memory.erase m a) :=
  ⟨h.1.filter _, fun c hc => h.2 c (Memory.mem_erase hc).1⟩

/-- Setting a byte's copy keeps the canonical form of the host cache. -/
theorem Cache.wf_put {m : List (Nat × CachedByte)} (h : Cache.wf m) {a : Nat} (ha : a < addrSpace) (c : CachedByte) :
    Cache.wf (Cache.put m a c) := by
  have he := Cache.wf_erase h a
  refine ⟨Memory.sorted_insert he.1 (fun c hc => (Memory.mem_erase hc).2), fun d hd => ?_⟩
  rcases Memory.mem_insert.1 hd with rfl | hd
  · exact ha
  · exact he.2 d hd

@[simp] theorem Cache.read_nil (a : Nat) : Cache.read [] a = none := rfl

/-- Everything dropping a copy does to lookups. -/
@[simp] theorem Cache.read_erase (m : List (Nat × CachedByte)) (a b : Nat) :
    Cache.read (Memory.erase m a) b = if b = a then none else Cache.read m b := by
  induction m with
  | nil => simp [Memory.erase]
  | cons c rest ih =>
    simp only [Memory.erase] at ih
    by_cases hc : c.1 = a <;> by_cases hb : b = a <;> simp_all [Memory.erase, Cache.read]
    intro h; exact absurd h.symm hb

theorem Cache.read_insert (m : List (Nat × CachedByte)) (a b : Nat) (v : CachedByte) (h : ∀ c ∈ m, c.1 ≠ a) :
    Cache.read (Memory.insert m a v) b = if b = a then some v else Cache.read m b := by
  induction m with
  | nil =>
    by_cases hb : b = a
    · simp [Memory.insert, Cache.read, hb]
    · simp [Memory.insert, Cache.read, hb, Ne.symm hb]
  | cons c rest ih =>
    have hc : c.1 ≠ a := h c (by simp)
    have ih := ih (fun d hd => h d (by simp [hd]))
    unfold Memory.insert
    split <;> by_cases hb : b = a <;> simp_all [Cache.read, eq_comm]

/-- Everything setting a copy does to lookups. -/
@[simp] theorem Cache.read_put (m : List (Nat × CachedByte)) (a b : Nat) (v : CachedByte) :
    Cache.read (Cache.put m a v) b = if b = a then some v else Cache.read m b := by
  rw [Cache.put, Cache.read_insert _ _ _ _ (fun c hc => (Memory.mem_erase hc).2), Cache.read_erase]
  split <;> simp_all

/-- A fill inside the address space keeps the canonical form. -/
theorem Memory.wf_fill {m : List Host.Cell} (h : Memory.wf m) {a n : Nat} (hn : n = 0 ∨ a + n ≤ addrSpace) (f : Nat → Byte) :
    Memory.wf (Memory.fill m a n f) := by
  induction n with
  | zero => exact h
  | succ k ih => exact Memory.wf_write (ih (by omega)) (by omega) _

/-- Havoc of a region keeps the canonical form, whatever the free bytes are. -/
theorem wf_havocRegion {m : List Host.Cell} (h : Memory.wf m) (draw : Nat) (r : Region) :
    Memory.wf (havocRegion draw m r) :=
  Memory.wf_fill h (by omega) _

theorem wf_havocRegions {m : List Host.Cell} (h : Memory.wf m) (draw : Nat) (rs : List Region) :
    Memory.wf (havocRegions draw m rs) := by
  induction rs generalizing m with
  | nil => exact h
  | cons r rest ih => exact ih (wf_havocRegion h draw r)

/-- Canonical memories that read alike everywhere are equal data. -/
theorem Memory.eq_of_read_eq {m n : List Host.Cell} (hm : Memory.wf m) (hn : Memory.wf n)
    (h : ∀ a, Memory.read m a = Memory.read n a) : m = n := by
  have notin : ∀ {l : List Host.Cell} {a : Nat}, (∀ c ∈ l, a < c.1) → Memory.read l a = unlistedByte := by
    intro l a hl
    induction l with
    | nil => rfl
    | cons c rest ih =>
      have := hl c (by simp)
      rw [Memory.read, if_neg (by omega)]
      exact ih (fun d hd => hl d (by simp [hd]))
  induction m generalizing n with
  | nil =>
    cases n with
    | nil => rfl
    | cons d _ =>
      have := h d.1
      simp [Memory.read] at this
      exact absurd this.symm (hn.2 d (by simp)).2
  | cons c rest ih =>
    have hc := List.pairwise_cons.1 hm.1
    cases n with
    | nil =>
      have := h c.1
      simp [Memory.read] at this
      exact absurd this (hm.2 c (by simp)).2
    | cons d rest' =>
      have hd := List.pairwise_cons.1 hn.1
      have key : c.1 = d.1 := by
        rcases Nat.lt_trichotomy c.1 d.1 with hlt | heq | hgt
        · have h1 := h c.1
          rw [notin (l := d :: rest') (a := c.1) (by
            intro e he
            rcases List.mem_cons.1 he with rfl | he
            · exact hlt
            · exact Nat.lt_trans hlt (hd.1 e he))] at h1
          simp [Memory.read] at h1
          exact absurd h1 (hm.2 c (by simp)).2
        · exact heq
        · have h1 := h d.1
          rw [notin (l := c :: rest) (a := d.1) (by
            intro e he
            rcases List.mem_cons.1 he with rfl | he
            · exact hgt
            · exact Nat.lt_trans hgt (hc.1 e he))] at h1
          simp [Memory.read] at h1
          exact absurd h1.symm (hn.2 d (by simp)).2
      have hv : c.2 = d.2 := by
        have := h c.1
        simpa [Memory.read, key] using this
      have hrest : rest = rest' := by
        refine ih ⟨hc.2, fun e he => hm.2 e (by simp [he])⟩ ⟨hd.2, fun e he => hn.2 e (by simp [he])⟩ (fun a => ?_)
        by_cases ha : a = c.1
        · subst ha
          rw [notin (fun e he => hc.1 e he), notin (fun e he => by rw [key]; exact hd.1 e he)]
        · have := h a
          have h1 : c.1 ≠ a := fun e => ha e.symm
          have h2 : d.1 ≠ a := fun e => ha (by rw [key, e])
          simpa [Memory.read, h1, h2] using this
      rw [hrest, show c = d from Prod.ext key hv]

end Sys2Proof.Machine
end

