-- ==== Sys2Proof/Laws/Regions.lean ====
section
/-! SUPPORT. Regions as sets of addresses, and what havoc does to reads. -/

namespace Sys2Proof.Machine

@[simp] theorem Region.contains_iff (r : Region) (a : Nat) : r.contains a = true ↔ r.base ≤ a ∧ a < r.base + r.len := by
  simp [Region.contains]

theorem Region.contains_eq_false (r : Region) (a : Nat) : r.contains a = false ↔ ¬ (r.base ≤ a ∧ a < r.base + r.len) := by
  rw [← Bool.not_eq_true, Region.contains_iff]

/-- The wrap test of R65, read off. -/
theorem Region.wraps_iff (r : Region) : r.wraps = true ↔ 0 < r.len ∧ 2 ^ 32 < r.base + r.len := by
  unfold Region.wraps
  rw [Bool.and_eq_true, decide_eq_true_eq, decide_eq_true_eq]
  rfl

theorem Region.wraps_eq_false (r : Region) : r.wraps = false ↔ r.len = 0 ∨ r.base + r.len ≤ 2 ^ 32 := by
  rw [← Bool.not_eq_true, Region.wraps_iff]
  omega

/-- The overlap test of R67, read off. -/
theorem Region.overlaps_iff (r q : Region) : r.overlaps q = true ↔
    0 < r.len ∧ 0 < q.len ∧ r.base < q.base + q.len ∧ q.base < r.base + r.len := by
  unfold Region.overlaps
  simp only [Bool.and_eq_true, decide_eq_true_eq, and_assoc]

theorem covers_iff (rs : List Region) (a : Nat) : covers rs a = true ↔ ∃ r ∈ rs, r.base ≤ a ∧ a < r.base + r.len := by
  simp [covers]

@[simp] theorem covers_nil (a : Nat) : covers [] a = false := rfl

@[simp] theorem covers_cons (r : Region) (rs : List Region) (a : Nat) : covers (r :: rs) a = (r.contains a || covers rs a) := by
  simp [covers]

@[simp] theorem covers_append (rs qs : List Region) (a : Nat) : covers (rs ++ qs) a = (covers rs a || covers qs a) := by
  simp [covers]

/-- The overlap check on two lists of regions says that no address is in both (R67). -/
theorem anyOverlap_eq_false_iff (rs qs : List Region) :
    anyOverlap rs qs = false ↔ ∀ a, covers rs a = true → covers qs a = false := by
  constructor
  · intro h a ha
    rw [covers_iff] at ha
    obtain ⟨r, hr, h1, h2⟩ := ha
    rw [← Bool.not_eq_true, covers_iff]
    rintro ⟨q, hq, h3, h4⟩
    have := (List.any_eq_false.1 h) r hr
    apply this
    rw [List.any_eq_true]
    exact ⟨q, hq, by simp [Region.overlaps]; omega⟩
  · intro h
    rw [anyOverlap, List.any_eq_false]
    intro r hr hq
    rw [List.any_eq_true] at hq
    obtain ⟨q, hq, ho⟩ := hq
    simp only [Region.overlaps, Bool.and_eq_true, decide_eq_true_eq] at ho
    have h1 : covers rs (max r.base q.base) = true := (covers_iff _ _).2 ⟨r, hr, by omega⟩
    have h2 : covers qs (max r.base q.base) = true := (covers_iff _ _).2 ⟨q, hq, by omega⟩
    simp [h _ h1] at h2

theorem anyOverlap_eq_true_iff (rs qs : List Region) :
    anyOverlap rs qs = true ↔ ∃ a, covers rs a = true ∧ covers qs a = true := by
  rw [← Bool.not_eq_false, anyOverlap_eq_false_iff]
  simp

@[simp] theorem anyOverlap_nil_left (qs : List Region) : anyOverlap [] qs = false := rfl

@[simp] theorem anyOverlap_nil_right (rs : List Region) : anyOverlap rs [] = false := by
  simp [anyOverlap]

/-- Everything havoc does to reads: inside a region a free byte of the draw, outside as before (R237). -/
theorem read_havocRegions (draw : Nat) (m : List Host.Cell) (rs : List Region) (a : Nat) :
    Memory.read (havocRegions draw m rs) a =
      if covers rs a = true ∧ a < addrSpace then Config.havocByte draw a else Memory.read m a := by
  induction rs generalizing m with
  | nil => simp [havocRegions]
  | cons r rest ih =>
    have := ih (havocRegion draw m r)
    rw [havocRegions, List.foldl_cons, ← havocRegions, this, havocRegion, Memory.read_fill]
    by_cases h1 : covers rest a = true ∧ a < addrSpace
    · simp [h1]
    · rw [if_neg h1]
      by_cases h2 : r.base ≤ a ∧ a < r.base + r.len
      · by_cases h3 : a < addrSpace
        · rw [if_pos (by omega), if_pos (by simp [h2, h3])]
        · rw [if_neg (by omega), if_neg (by simp [h3])]
      · rw [if_neg (by omega), if_neg]
        rintro ⟨h4, h5⟩
        simp only [covers_cons, Bool.or_eq_true, Region.contains_iff] at h4
        rcases h4 with h4 | h4
        · exact h2 h4
        · exact h1 ⟨h4, h5⟩

theorem read_havocRegions_out {draw : Nat} {m : List Host.Cell} {rs : List Region} {a : Nat} (h : covers rs a = false) :
    Memory.read (havocRegions draw m rs) a = Memory.read m a := by
  rw [read_havocRegions, if_neg (by simp [h])]

end Sys2Proof.Machine
end

