-- ==== Sys2Proof/Laws/State.lean ====
section
/-! SUPPORT. One lemma per field per update of the state, each true by rfl, so that no proof unfolds a record update; and
the completions written out as the claims state them. -/

namespace Sys2Proof.Machine

@[simp] theorem State.accept_ops (s : State) (w : Word) : (s.accept w).ops = s.ops := rfl
@[simp] theorem State.accept_res (s : State) (w : Word) : (s.accept w).res = s.res := rfl
@[simp] theorem State.accept_status (s : State) (w : Word) : (s.accept w).status = s.status.accepted := rfl
@[simp] theorem State.accept_ie (s : State) (w : Word) : (s.accept w).ie = s.ie := rfl
@[simp] theorem State.accept_phase (s : State) (w : Word) : (s.accept w).phase = .busy w s.takeSnapshot := rfl
@[simp] theorem State.accept_mem (s : State) (w : Word) : (s.accept w).mem = s.mem := rfl
@[simp] theorem State.accept_platform (s : State) (w : Word) : (s.accept w).platform = s.platform := rfl
@[simp] theorem State.accept_hostCache (s : State) (w : Word) : (s.accept w).hostCache = s.hostCache := rfl
@[simp] theorem State.accept_inputs (s : State) (w : Word) : (s.accept w).inputs = s.inputs := rfl
@[simp] theorem State.accept_observed (s : State) (w : Word) : (s.accept w).observed = s.observed := rfl
@[simp] theorem State.accept_draws (s : State) (w : Word) : (s.accept w).draws = s.draws := rfl

@[simp] theorem State.commit_ops (s : State) (r : Results) (m : List Host.Cell) : (s.commit r m).ops = s.ops := rfl
@[simp] theorem State.commit_res (s : State) (r : Results) (m : List Host.Cell) : (s.commit r m).res = r := rfl
@[simp] theorem State.commit_status (s : State) (r : Results) (m : List Host.Cell) :
    (s.commit r m).status = s.status.succeeded := rfl
@[simp] theorem State.commit_ie (s : State) (r : Results) (m : List Host.Cell) : (s.commit r m).ie = s.ie := rfl
@[simp] theorem State.commit_phase (s : State) (r : Results) (m : List Host.Cell) :
    (s.commit r m).phase = .idle := rfl
@[simp] theorem State.commit_mem (s : State) (r : Results) (m : List Host.Cell) : (s.commit r m).mem = m := rfl
@[simp] theorem State.commit_platform (s : State) (r : Results) (m : List Host.Cell) :
    (s.commit r m).platform = s.platform := rfl
@[simp] theorem State.commit_hostCache (s : State) (r : Results) (m : List Host.Cell) :
    (s.commit r m).hostCache = s.hostCache := rfl
@[simp] theorem State.commit_inputs (s : State) (r : Results) (m : List Host.Cell) :
    (s.commit r m).inputs = s.inputs := rfl
@[simp] theorem State.commit_observed (s : State) (r : Results) (m : List Host.Cell) :
    (s.commit r m).observed = s.observed := rfl
@[simp] theorem State.commit_draws (s : State) (r : Results) (m : List Host.Cell) :
    (s.commit r m).draws = s.draws := rfl

@[simp] theorem State.fail_ops (s : State) (c : ErrCode) : (s.fail c).ops = s.ops := rfl
@[simp] theorem State.fail_res (s : State) (c : ErrCode) : (s.fail c).res = s.res := rfl
@[simp] theorem State.fail_status (s : State) (c : ErrCode) : (s.fail c).status = s.status.failed c := rfl
@[simp] theorem State.fail_ie (s : State) (c : ErrCode) : (s.fail c).ie = s.ie := rfl
@[simp] theorem State.fail_phase (s : State) (c : ErrCode) : (s.fail c).phase = .idle := rfl
@[simp] theorem State.fail_mem (s : State) (c : ErrCode) : (s.fail c).mem = s.mem := rfl
@[simp] theorem State.fail_platform (s : State) (c : ErrCode) : (s.fail c).platform = s.platform := rfl
@[simp] theorem State.fail_hostCache (s : State) (c : ErrCode) : (s.fail c).hostCache = s.hostCache := rfl
@[simp] theorem State.fail_inputs (s : State) (c : ErrCode) : (s.fail c).inputs = s.inputs := rfl
@[simp] theorem State.fail_observed (s : State) (c : ErrCode) : (s.fail c).observed = s.observed := rfl
@[simp] theorem State.fail_draws (s : State) (c : ErrCode) : (s.fail c).draws = s.draws := rfl

@[simp] theorem State.failInFlight_ops (s : State) (c : ErrCode) (rs : List Region) :
    (s.failInFlight c rs).ops = s.ops := rfl
@[simp] theorem State.failInFlight_res (s : State) (c : ErrCode) (rs : List Region) :
    (s.failInFlight c rs).res = s.res := rfl
@[simp] theorem State.failInFlight_status (s : State) (c : ErrCode) (rs : List Region) :
    (s.failInFlight c rs).status = s.status.failed c := rfl
@[simp] theorem State.failInFlight_ie (s : State) (c : ErrCode) (rs : List Region) :
    (s.failInFlight c rs).ie = s.ie := rfl
@[simp] theorem State.failInFlight_phase (s : State) (c : ErrCode) (rs : List Region) :
    (s.failInFlight c rs).phase = .idle := rfl
@[simp] theorem State.failInFlight_mem (s : State) (c : ErrCode) (rs : List Region) :
    (s.failInFlight c rs).mem = havocRegions s.draws s.mem rs := rfl
@[simp] theorem State.failInFlight_platform (s : State) (c : ErrCode) (rs : List Region) :
    (s.failInFlight c rs).platform = s.platform := rfl
@[simp] theorem State.failInFlight_hostCache (s : State) (c : ErrCode) (rs : List Region) :
    (s.failInFlight c rs).hostCache = s.hostCache := rfl
@[simp] theorem State.failInFlight_inputs (s : State) (c : ErrCode) (rs : List Region) :
    (s.failInFlight c rs).inputs = s.inputs := rfl
@[simp] theorem State.failInFlight_observed (s : State) (c : ErrCode) (rs : List Region) :
    (s.failInFlight c rs).observed = s.observed := rfl
@[simp] theorem State.failInFlight_draws (s : State) (c : ErrCode) (rs : List Region) :
    (s.failInFlight c rs).draws = s.draws + 1 := rfl

@[simp] theorem State.resetDevice_ops (s : State) : s.resetDevice.ops = Operands.zero := rfl
@[simp] theorem State.resetDevice_res (s : State) : s.resetDevice.res = Results.zero := rfl
@[simp] theorem State.resetDevice_status (s : State) : s.resetDevice.status = Status.zero := rfl
@[simp] theorem State.resetDevice_ie (s : State) : s.resetDevice.ie = false := rfl
@[simp] theorem State.resetDevice_phase (s : State) : s.resetDevice.phase = .idle := rfl
@[simp] theorem State.resetDevice_mem (s : State) :
    s.resetDevice.mem = havocRegions s.draws s.mem s.phase.writeRegions := rfl
@[simp] theorem State.resetDevice_platform (s : State) : s.resetDevice.platform = s.platform := rfl
@[simp] theorem State.resetDevice_hostCache (s : State) : s.resetDevice.hostCache = s.hostCache := rfl
@[simp] theorem State.resetDevice_inputs (s : State) : s.resetDevice.inputs = s.inputs := rfl
@[simp] theorem State.resetDevice_observed (s : State) : s.resetDevice.observed = s.observed := rfl
@[simp] theorem State.resetDevice_draws (s : State) :
    s.resetDevice.draws = if s.phase.isBusy then s.draws + 1 else s.draws := rfl

@[simp] theorem State.completedWith_ops (s : State) (r : Results) (m : List Host.Cell) :
    (s.completedWith r m).ops = s.ops := rfl
@[simp] theorem State.completedWith_res (s : State) (r : Results) (m : List Host.Cell) :
    (s.completedWith r m).res = r := rfl
@[simp] theorem State.completedWith_status (s : State) (r : Results) (m : List Host.Cell) :
    (s.completedWith r m).status = ⟨true, false, s.status.werr, 0⟩ := rfl
@[simp] theorem State.completedWith_ie (s : State) (r : Results) (m : List Host.Cell) :
    (s.completedWith r m).ie = s.ie := rfl
@[simp] theorem State.completedWith_phase (s : State) (r : Results) (m : List Host.Cell) :
    (s.completedWith r m).phase = .idle := rfl
@[simp] theorem State.completedWith_mem (s : State) (r : Results) (m : List Host.Cell) :
    (s.completedWith r m).mem = m := rfl
@[simp] theorem State.completedWith_platform (s : State) (r : Results) (m : List Host.Cell) :
    (s.completedWith r m).platform = s.platform := rfl
@[simp] theorem State.completedWith_hostCache (s : State) (r : Results) (m : List Host.Cell) :
    (s.completedWith r m).hostCache = s.hostCache := rfl
@[simp] theorem State.completedWith_inputs (s : State) (r : Results) (m : List Host.Cell) :
    (s.completedWith r m).inputs = s.inputs := rfl
@[simp] theorem State.completedWith_observed (s : State) (r : Results) (m : List Host.Cell) :
    (s.completedWith r m).observed = s.observed := rfl
@[simp] theorem State.completedWith_draws (s : State) (r : Results) (m : List Host.Cell) :
    (s.completedWith r m).draws = s.draws := rfl

@[simp] theorem State.failedWith_ops (s : State) (c : BitVec 4) : (s.failedWith c).ops = s.ops := rfl
@[simp] theorem State.failedWith_res (s : State) (c : BitVec 4) : (s.failedWith c).res = s.res := rfl
@[simp] theorem State.failedWith_status (s : State) (c : BitVec 4) :
    (s.failedWith c).status = ⟨true, true, s.status.werr, c⟩ := rfl
@[simp] theorem State.failedWith_ie (s : State) (c : BitVec 4) : (s.failedWith c).ie = s.ie := rfl
@[simp] theorem State.failedWith_phase (s : State) (c : BitVec 4) : (s.failedWith c).phase = .idle := rfl
@[simp] theorem State.failedWith_mem (s : State) (c : BitVec 4) : (s.failedWith c).mem = s.mem := rfl
@[simp] theorem State.failedWith_platform (s : State) (c : BitVec 4) : (s.failedWith c).platform = s.platform := rfl
@[simp] theorem State.failedWith_hostCache (s : State) (c : BitVec 4) :
    (s.failedWith c).hostCache = s.hostCache := rfl
@[simp] theorem State.failedWith_inputs (s : State) (c : BitVec 4) : (s.failedWith c).inputs = s.inputs := rfl
@[simp] theorem State.failedWith_observed (s : State) (c : BitVec 4) : (s.failedWith c).observed = s.observed := rfl
@[simp] theorem State.failedWith_draws (s : State) (c : BitVec 4) : (s.failedWith c).draws = s.draws := rfl

@[simp] theorem Status.accepted_done (st : Status) : st.accepted.done = false := rfl
@[simp] theorem Status.accepted_err (st : Status) : st.accepted.err = false := rfl
@[simp] theorem Status.accepted_werr (st : Status) : st.accepted.werr = st.werr := rfl
@[simp] theorem Status.accepted_errcode (st : Status) : st.accepted.errcode = 0 := rfl

@[simp] theorem Status.succeeded_done (st : Status) : st.succeeded.done = true := rfl
@[simp] theorem Status.succeeded_err (st : Status) : st.succeeded.err = false := rfl
@[simp] theorem Status.succeeded_werr (st : Status) : st.succeeded.werr = st.werr := rfl
@[simp] theorem Status.succeeded_errcode (st : Status) : st.succeeded.errcode = 0 := rfl

@[simp] theorem Status.failed_done (st : Status) (c : ErrCode) : (st.failed c).done = true := rfl
@[simp] theorem Status.failed_err (st : Status) (c : ErrCode) : (st.failed c).err = true := rfl
@[simp] theorem Status.failed_werr (st : Status) (c : ErrCode) : (st.failed c).werr = st.werr := rfl
@[simp] theorem Status.failed_errcode (st : Status) (c : ErrCode) : (st.failed c).errcode = c.code := rfl

@[simp] theorem Status.dropped_done (st : Status) : st.dropped.done = st.done := rfl
@[simp] theorem Status.dropped_err (st : Status) : st.dropped.err = st.err := rfl
@[simp] theorem Status.dropped_werr (st : Status) : st.dropped.werr = true := rfl
@[simp] theorem Status.dropped_errcode (st : Status) : st.dropped.errcode = st.errcode := rfl

/-- A commit is a successful completion as the claims write it. -/
theorem State.commit_eq (s : State) (r : Results) (m : List Host.Cell) : s.commit r m = s.completedWith r m := rfl

/-- An eager error is a failed completion as the claims write it. -/
theorem State.fail_eq (s : State) (c : ErrCode) : s.fail c = s.failedWith c.code := rfl

/-- Only a reset event and acceptance touch the pending list: taking the next event leaves the snapshot alone. -/
@[simp] theorem State.inFlight_inputs (s : State) (es : List Input) :
    State.inFlight { s with inputs := es } = s.inFlight := rfl

/-- The snapshot in flight is the one in the BUSY phase. -/
theorem State.inFlight_of_busy {s : State} {w : Word} {p : Snapshot} (h : s.phase = .busy w p) : s.inFlight = p := by
  simp [State.inFlight, h]

/-- In IDLE the snapshot in flight is the registers as they stand. -/
theorem State.inFlight_of_idle {s : State} (h : s.phase = .idle) : s.inFlight = s.takeSnapshot := by
  simp [State.inFlight, h]

/-- The snapshot in flight after acceptance is the one just taken. -/
@[simp] theorem State.inFlight_accept (s : State) (w : Word) : (s.accept w).inFlight = s.takeSnapshot := rfl

end Sys2Proof.Machine
end

