-- ==== Sys2Proof/Laws/Ops.lean ====
section
/-! SUPPORT. What each shared operation can do, said once: the memory phase, the in-flight error, the reset. -/

namespace Sys2Proof.Machine

theorem State.memOk_iff (s : State) (a : Nat) : s.memOk a = true ↔ covers s.platform.unanswered a = false := by
  simp [State.memOk]

theorem State.allAnswered_iff (s : State) (as : List Nat) : s.allAnswered as = true ↔ ∀ a ∈ as, s.memOk a = true := by
  simp [State.allAnswered]

/-- Everything the memory phase of a command can do: a fault on non-memory, a bus error, or the command's own end with
every accessed byte answered. A free value may have been drawn first. -/
theorem memoryPhase_cases (s : State) (i : Instr) (accessed : List Nat) (finish : State → State) :
    (s.memoryPhase i accessed finish = .fault .notMemory ∧
      ∃ a, covers (footprint i s.inFlight) a = true ∧ covers s.platform.nonMemory a = true) ∨
    (s.FootprintIsMemory i ∧ ∃ d, (d = s.draws ∨ d = s.draws + 1) ∧
      (s.memoryPhase i accessed finish =
          .next (State.failInFlight { s with draws := d } .busError (writeRegions i s.inFlight)) ∨
        (s.allAnswered accessed = true ∧ s.memoryPhase i accessed finish = .next (finish { s with draws := d })))) := by
  unfold State.memoryPhase
  by_cases h1 : anyOverlap (footprint i s.inFlight) s.platform.nonMemory = true
  · left
    exact ⟨by simp [h1], (anyOverlap_eq_true_iff _ _).1 h1⟩
  · right
    rw [Bool.not_eq_true] at h1
    refine ⟨(anyOverlap_eq_false_iff _ _).1 h1, ?_⟩
    by_cases h2 : s.allAnswered accessed = true
    · by_cases h3 : anyOverlap (footprint i s.inFlight) s.platform.unanswered = true
      · refine ⟨s.draws + 1, .inr rfl, ?_⟩
        by_cases h4 : Config.unaccessedBusError s.draws = true <;> simp [h1, h2, h3, h4]
      · exact ⟨s.draws, .inl rfl, by simp [h1, h2, h3]⟩
    · exact ⟨s.draws, .inl rfl, by simp [h1, h2]⟩

/-- On an ordinary footprint the memory phase is the command's own end, whatever it accesses inside the footprint. -/
theorem memoryPhase_ordinary {s : State} {i : Instr} {accessed : List Nat} {finish : State → State}
    (h : s.FootprintOrdinary i) (hacc : ∀ a ∈ accessed, covers (footprint i s.inFlight) a = true) :
    s.memoryPhase i accessed finish = .next (finish s) := by
  have h1 : anyOverlap (footprint i s.inFlight) s.platform.nonMemory = false :=
    (anyOverlap_eq_false_iff _ _).2 fun a ha => (h a ha).2
  have h2 : s.allAnswered accessed = true := (s.allAnswered_iff _).2 fun a ha => (h a (hacc a ha)).1
  have h3 : anyOverlap (footprint i s.inFlight) s.platform.unanswered = false :=
    (anyOverlap_eq_false_iff _ _).2 fun a ha => (s.memOk_iff a).1 (h a ha).1
  simp [State.memoryPhase, h1, h2, h3]

/-- With no non-memory in the footprint, an accessed byte that is not answered ends the command in BUS_ERROR (R70). -/
theorem memoryPhase_unanswered {s : State} {i : Instr} {accessed : List Nat} {finish : State → State}
    (h : s.FootprintIsMemory i) {a : Nat} (ha : a ∈ accessed) (hbad : s.memOk a = false) :
    s.memoryPhase i accessed finish = .next (s.failInFlight .busError (writeRegions i s.inFlight)) := by
  have h1 : anyOverlap (footprint i s.inFlight) s.platform.nonMemory = false := (anyOverlap_eq_false_iff _ _).2 h
  have h2 : s.allAnswered accessed = false := by
    rw [← Bool.not_eq_true, s.allAnswered_iff]
    intro hall
    simp [hall a ha] at hbad
  simp [State.memoryPhase, h1, h2]

/-- What an in-flight error leaves, as the claims state it. -/
theorem failedInFlight_of_failInFlight (s : State) (d : Nat) (c : ErrCode) (rs : List Region) :
    s.FailedInFlight (State.failInFlight { s with draws := d } c rs) c.code rs :=
  ⟨rfl, fun _ ha => read_havocRegions_out ha⟩

/-- Everything a reset step can do (R260 to R262). -/
theorem resetStep_cases (s : State) :
    (s.resetStep = .fault .notMemory ∧ ∃ a, covers s.phase.footprint a = true ∧ covers s.platform.nonMemory a = true) ∨
      (s.BusyFootprintIsMemory ∧ s.resetStep = .next s.resetDevice) := by
  unfold State.resetStep
  by_cases h : anyOverlap s.phase.footprint s.platform.nonMemory = true
  · exact .inl ⟨by simp [h], (anyOverlap_eq_true_iff _ _).1 h⟩
  · rw [Bool.not_eq_true] at h
    exact .inr ⟨(anyOverlap_eq_false_iff _ _).1 h, by simp [h]⟩

/-- A byte outside an aborted command's write regions survives a reset (R264). -/
theorem resetDevice_byteAt {s : State} {a : Nat} (h : covers s.phase.writeRegions a = false) :
    s.resetDevice.byteAt a = s.byteAt a := read_havocRegions_out h

/-- The footprint of the command in BUSY is that of its decoded word over its snapshot. -/
theorem footprint_of_busy {s : State} {w : Word} {p : Snapshot} {i : Instr} (h : s.phase = .busy w p)
    (hd : decode w = .ok i) : s.phase.footprint = footprint i p := by
  simp [h, Phase.footprint, hd]

theorem writeRegions_of_busy {s : State} {w : Word} {p : Snapshot} {i : Instr} (h : s.phase = .busy w p)
    (hd : decode w = .ok i) : s.phase.writeRegions = writeRegions i p := by
  simp [h, Phase.writeRegions, hd]

/-- The write regions are part of the footprint. -/
theorem footprint_of_writeRegions {ph : Phase} {a : Nat} (h : covers ph.writeRegions a = true) :
    covers ph.footprint a = true := by
  cases ph with
  | idle => simp [Phase.writeRegions] at h
  | busy w p =>
    simp only [Phase.writeRegions, Phase.footprint] at *
    split at h <;> simp_all [footprint]

end Sys2Proof.Machine
end

