-- ==== Sys2Proof/Laws/Exec.lean ====
section
/-! SUPPORT. Everything a command can do, said once per command and once for all of them. -/

namespace Sys2Proof.Machine

/-- How a command ends: an eager error, an in-flight error, or a commit that leaves every byte outside the write regions
alone. A free value may have been drawn before the last two. -/
def Ends (i : Instr) (s t : State) : Prop :=
  (∃ c, c ≠ .busError ∧ c ≠ .delimiterNotFound ∧ t = s.fail c) ∨
    (∃ d c, (c = .busError ∨ c = .delimiterNotFound) ∧
      t = State.failInFlight { s with draws := d } c (writeRegions i s.inFlight)) ∨
    ∃ d r m, t = State.commit { s with draws := d } r m ∧
      ∀ a, covers (writeRegions i s.inFlight) a = false → Memory.read m a = s.byteAt a

theorem Ends.eager {i : Instr} {s : State} {c : ErrCode} (h : c ≠ .busError) (h' : c ≠ .delimiterNotFound) :
    Ends i s (s.fail c) := .inl ⟨c, h, h', rfl⟩

theorem Ends.register {i : Instr} {s : State} {r : Results} : Ends i s (s.commit r s.mem) :=
  .inr (.inr ⟨s.draws, r, s.mem, rfl, fun _ _ => rfl⟩)

/-- The memory phase ends as a command does when the command's own end does. -/
theorem Ends.of_memoryPhase {i : Instr} {s t : State} {accessed : List Nat} {finish : State → State}
    (h : s.memoryPhase i accessed finish = .next t) (hf : ∀ d, Ends i s (finish { s with draws := d })) : Ends i s t := by
  rcases memoryPhase_cases s i accessed finish with ⟨hc, _⟩ | ⟨_, d, _, hc | ⟨_, hc⟩⟩
  · simp [hc] at h
  · rw [hc] at h
    cases h
    exact .inr (.inl ⟨d, .busError, .inl rfl, rfl⟩)
  · rw [hc] at h
    cases h
    exact hf d

theorem blockCommand_ends {i : Instr} {s t : State} {ka kb : Byte} (h : blockCommand s ka kb = .next t) : Ends i s t := by
  unfold blockCommand at h
  simp only at h
  split at h
  · cases h; exact .eager (by decide) (by decide)
  · split at h
    · cases h; exact .eager (by decide) (by decide)
    · cases h; exact .register

theorem bufferCommand_ends {i : Instr} {s t : State} {f : Byte → Byte}
    (hw : writeRegions i s.inFlight = [s.inFlight.dstBlocks]) (h : bufferCommand i s f = .next t) : Ends i s t := by
  unfold bufferCommand at h
  simp only at h
  split at h
  · cases h; exact .eager (by decide) (by decide)
  · split at h
    · cases h; exact .eager (by decide) (by decide)
    · split at h
      · cases h; exact .eager (by decide) (by decide)
      · refine Ends.of_memoryPhase h fun d => .inr (.inr ⟨d, _, _, rfl, fun a ha => ?_⟩)
        rw [hw] at ha
        simp only [covers_cons, covers_nil, Bool.or_false, Region.contains_eq_false] at ha
        exact Memory.read_fill_out ha

/-- Everything LSB_EMBED can do. -/
theorem execLsbEmbed_ends {s t : State} (h : execLsbEmbed s = .next t) : Ends .lsbEmbed s t := by
  unfold execLsbEmbed at h
  simp only at h
  split at h
  · cases h; exact .eager (by decide) (by decide)
  · split at h
    · cases h; exact .eager (by decide) (by decide)
    · split at h
      · cases h; exact .eager (by decide) (by decide)
      · refine Ends.of_memoryPhase h fun d => .inr (.inr ⟨d, _, _, rfl, fun a ha => ?_⟩)
        simp only [writeRegions, covers_cons, covers_nil, Bool.or_false, Region.contains_eq_false] at ha
        exact Memory.read_fill_out ha

/-- The bits an extraction finds leave room for the delimiter in the walk. -/
theorem extractWalk_length {bit : Nat → Bool} {fuel : Nat} {acc found : List Bool}
    (h : extractWalk bit fuel acc = some found) : found.length + 16 ≤ acc.length + fuel := by
  induction fuel generalizing acc with
  | zero => simp [extractWalk] at h
  | succ n ih =>
    simp only [extractWalk] at h
    split at h
    · rename_i he
      simp only [endsWithDelim, Bool.and_eq_true, decide_eq_true_eq] at he
      simp only [Option.some.injEq] at h
      subst h
      simp only [List.length_take, List.length_append, List.length_singleton] at he ⊢
      omega
    · have := ih h
      simp only [List.length_append, List.length_singleton] at this
      omega

/-- The payload bytes LSB_EXTRACT writes lie inside (DST, XMAX) (R66, R171). -/
theorem extracted_within {m : List Host.Cell} {p : Snapshot} {found : List Bool} (h : extracted m p = some found) :
    (found.length + 7) / 8 ≤ p.xmax := by
  have := extractWalk_length h
  simp only [List.length_nil, Nat.zero_add] at this
  unfold Snapshot.xmax
  omega

/-- Everything LSB_EXTRACT can do. -/
theorem execLsbExtract_ends {s t : State} (h : execLsbExtract s = .next t) : Ends .lsbExtract s t := by
  unfold execLsbExtract at h
  simp only at h
  split at h
  · cases h; exact .eager (by decide) (by decide)
  · split at h
    · cases h; exact .eager (by decide) (by decide)
    · refine Ends.of_memoryPhase h fun d => ?_
      unfold extractFinish
      split
      · rename_i found hfound
        refine .inr (.inr ⟨d, _, _, rfl, fun a ha => ?_⟩)
        have := extracted_within hfound
        simp only [writeRegions, covers_cons, covers_nil, Bool.or_false, Region.contains_eq_false, Snapshot.extractOut] at ha
        exact Memory.read_fill_out (by omega)
      · exact .inr (.inl ⟨d, _, .inr rfl, rfl⟩)

/-- Everything PSNR_SSE can do. -/
theorem execPsnrSse_ends {s t : State} (h : execPsnrSse s = .next t) : Ends .psnrSse s t := by
  unfold execPsnrSse at h
  simp only at h
  split at h
  · cases h; exact .eager (by decide) (by decide)
  · exact Ends.of_memoryPhase h fun d => .inr (.inr ⟨d, _, _, rfl, fun _ _ => rfl⟩)

/-- Everything a command can do: it ends in one of the ways of `Ends`. -/
theorem exec_ends {i : Instr} {s t : State} (h : exec i s = .next t) : Ends i s t := by
  cases i with
  | nop => cases h; exact .register
  | hillCheck => cases h; exact .register
  | hillInv =>
    simp only [exec, execHillInv] at h
    split at h <;> cases h
    · exact .eager (by decide) (by decide)
    · exact .register
  | hillEnc =>
    simp only [exec, execHillEnc] at h
    split at h
    · cases h; exact .eager (by decide) (by decide)
    · split at h <;> cases h
      · exact .eager (by decide) (by decide)
      · exact .register
  | hillDec =>
    simp only [exec, execHillDec] at h
    split at h
    · cases h; exact .eager (by decide) (by decide)
    · split at h <;> cases h
      · exact .eager (by decide) (by decide)
      · exact .register
  | sdesKey =>
    simp only [exec, execSdesKey] at h
    split at h <;> cases h
    · exact .eager (by decide) (by decide)
    · exact .register
  | sdesEnc => exact blockCommand_ends h
  | sdesDec => exact blockCommand_ends h
  | sdesF => cases h; exact .register
  | sdesEncb => exact bufferCommand_ends rfl h
  | sdesDecb => exact bufferCommand_ends rfl h
  | lsbEmbed => exact execLsbEmbed_ends h
  | lsbExtract => exact execLsbExtract_ends h
  | psnrSse => exact execPsnrSse_ends h

/-- The memory phase refuses nothing, and faults only on non-memory in the footprint. -/
theorem memoryPhase_stops {s : State} {i : Instr} {accessed : List Nat} {finish : State → State} :
    (∀ r, s.memoryPhase i accessed finish ≠ .refused r) ∧
      ∀ f, s.memoryPhase i accessed finish = .fault f → f = .notMemory ∧
        ∃ a, covers (footprint i s.inFlight) a = true ∧ covers s.platform.nonMemory a = true := by
  rcases memoryPhase_cases s i accessed finish with ⟨hc, ha⟩ | ⟨_, d, _, hc | ⟨_, hc⟩⟩ <;> rw [hc]
  · exact ⟨fun _ h => (nomatch h), fun f h => by cases h; exact ⟨rfl, ha⟩⟩
  · exact ⟨fun _ h => (nomatch h), fun _ h => (nomatch h)⟩
  · exact ⟨fun _ h => (nomatch h), fun _ h => (nomatch h)⟩

/-- No command is ever refused, and a command faults only on non-memory in its footprint (R69). -/
theorem exec_stops (i : Instr) (s : State) :
    (∀ r, exec i s ≠ .refused r) ∧ ∀ f, exec i s = .fault f → f = .notMemory ∧
      ∃ a, covers (footprint i s.inFlight) a = true ∧ covers s.platform.nonMemory a = true := by
  cases i <;> simp only [exec, execNop, execHillCheck, execHillInv, execHillEnc, execHillDec, execSdesKey, execSdesEnc,
    execSdesDec, execSdesF, execSdesEncb, execSdesDecb, execLsbEmbed, execLsbExtract, execPsnrSse, blockCommand,
    bufferCommand] <;> (repeat' split) <;>
    first
      | exact memoryPhase_stops
      | exact ⟨fun _ h => (nomatch h), fun _ h => (nomatch h)⟩

/-- An outcome with its next state's pending and observed lists replaced. -/
def withLists (ins : List Input) (obs : List Observation) :
    Host.Outcome State Fault Refusal → Host.Outcome State Fault Refusal
  | .next t => .next { t with inputs := ins, observed := obs }
  | .fault f => .fault f
  | .refused r => .refused r

theorem memoryPhase_withLists (s : State) (ins : List Input) (obs : List Observation) (i : Instr) (acc : List Nat)
    {finish : State → State}
    (h : ∀ t : State, finish { t with inputs := ins, observed := obs } = { finish t with inputs := ins, observed := obs }) :
    State.memoryPhase { s with inputs := ins, observed := obs } i acc finish = withLists ins obs (s.memoryPhase i acc finish) := by
  have hf : State.inFlight { s with inputs := ins, observed := obs } = s.inFlight := rfl
  unfold State.memoryPhase
  simp only [hf]
  by_cases h1 : anyOverlap (footprint i s.inFlight) s.platform.nonMemory = true
  · simp only [h1, if_true]; rfl
  · have h2' : State.allAnswered { s with inputs := ins, observed := obs } acc = s.allAnswered acc := rfl
    simp only [h1, h2']
    by_cases h2 : s.allAnswered acc = true
    · by_cases h3 : anyOverlap (footprint i s.inFlight) s.platform.unanswered = true
      · by_cases h4 : Config.unaccessedBusError s.draws = true
        · simp [h2, h3, h4]; rfl
        · have := h { s with draws := s.draws + 1 }
          simp [h2, h3, h4, withLists]; exact this
      · have := h s
        simp [h2, h3, withLists]; exact this
    · simp [h2]; rfl

/-- A command reads neither what is pending nor what was observed, and leaves both alone. -/
theorem exec_withLists (i : Instr) (s : State) (ins : List Input) (obs : List Observation) :
    exec i { s with inputs := ins, observed := obs } = withLists ins obs (exec i s) := by
  have hf : State.inFlight { s with inputs := ins, observed := obs } = s.inFlight := rfl
  cases i <;> simp only [exec, execNop, execHillCheck, execHillInv, execHillEnc, execHillDec, execSdesKey, execSdesEnc,
    execSdesDec, execSdesF, execSdesEncb, execSdesDecb, execLsbEmbed, execLsbExtract, execPsnrSse, blockCommand,
    bufferCommand, hf] <;> (repeat' split) <;> first
      | rfl
      | exact memoryPhase_withLists s ins obs _ _ fun t => rfl
      | exact memoryPhase_withLists s ins obs _ _ fun t => by
          unfold extractFinish
          dsimp only
          cases extracted t.mem s.inFlight <;> rfl

end Sys2Proof.Machine
end

