-- ==== Sys2Proof/Laws/Bus.lean ====
section
/-! SUPPORT. The register window: where an access falls, what each write does, and everything one event can do. -/

namespace Sys2Proof.Machine

/-- A field placed at a bit of a register word, as a number. -/
theorem placed_toNat {n : Nat} (x : BitVec n) {k : Nat} (h : n + k ≤ 32) : (placed x k).toNat = x.toNat * 2 ^ k := by
  have hk : x.toNat * 2 ^ k < 2 ^ 32 :=
    calc x.toNat * 2 ^ k < 2 ^ n * 2 ^ k := Nat.mul_lt_mul_of_pos_right x.isLt (Nat.two_pow_pos k)
      _ = 2 ^ (n + k) := (pow_add ..).symm
      _ ≤ 2 ^ 32 := Nat.pow_le_pow_right (by decide) h
  have hx : x.toNat < 2 ^ 32 := Nat.lt_of_le_of_lt (Nat.le_mul_of_pos_right _ (Nat.two_pow_pos k)) hk
  rw [placed, BitVec.toNat_shiftLeft, BitVec.toNat_setWidth, Nat.mod_eq_of_lt hx, Nat.shiftLeft_eq, Nat.mod_eq_of_lt hk]

theorem flagAt_toNat (b : Bool) {k : Nat} (h : 1 + k ≤ 32) : (flagAt b k).toNat = b.toNat * 2 ^ k := by
  rw [flagAt, placed_toNat _ h, BitVec.toNat_ofBool]

/-- A register word put together from its low part and a field above it, as a sum. -/
theorem or_toNat {x y : Word} {k z : Nat} (hx : x.toNat < 2 ^ k) (hy : y.toNat = z * 2 ^ k) :
    (x ||| y).toNat = x.toNat + y.toNat := by
  rw [BitVec.toNat_or, hy, Nat.or_comm, Nat.mul_comm, Nat.add_comm]
  exact (Nat.two_pow_add_eq_or_of_lt hx z).symm

/-- An aligned 32-bit access at a window offset falls there (R62). -/
theorem target_window (s : State) {offset : Nat} (h4 : offset % 4 = 0) (hlt : offset < 0x100) :
    s.target .word (s.platform.base + offset) = .window offset := by
  have h1 : ¬ (s.platform.base + offset + sizeBytes .word ≤ s.platform.base ∨
      s.platform.base + 0x100 ≤ s.platform.base + offset) := by simp [sizeBytes]; omega
  unfold State.target
  rw [if_neg h1]
  simp [Size.wellFormedAt, h4, hlt]

/-- An access falls in the window only as an aligned 32-bit access at that offset (R62). -/
theorem target_eq_window {s : State} {size : Size} {addr offset : Nat} (h : s.target size addr = .window offset) :
    size = .word ∧ addr = s.platform.base + offset ∧ offset % 4 = 0 ∧ offset < 0x100 := by
  unfold State.target at h
  split at h
  · simp at h
  · split at h
    · rename_i hc
      simp only [Target.window.injEq] at h
      simp only [Size.wellFormedAt, Bool.and_eq_true, decide_eq_true_eq, beq_iff_eq] at hc
      subst h
      exact ⟨hc.2.1.1, by omega, hc.2.1.2, hc.2.2⟩
    · simp at h

/-- An access that touches the window without falling in it is no aligned 32-bit access of it (R46, I7). -/
theorem target_eq_outside {s : State} {size : Size} {addr : Nat} (h : s.target size addr = .outside) :
    ¬ (size = .word ∧ s.platform.base ≤ addr ∧ (addr - s.platform.base) % 4 = 0) := by
  rintro ⟨rfl, h1, h2⟩
  unfold State.target at h
  split at h
  · simp at h
  · rename_i hno
    have : addr - s.platform.base < 0x100 := by omega
    simp [Size.wellFormedAt, h1, h2, this] at h

/-- Every register's offset is a multiple of 4 inside the window. -/
theorem regOffset_aligned (r : Reg) : regOffset r % 4 = 0 ∧ regOffset r < 0x100 := by
  cases r <;> decide

@[simp] theorem regAt_regOffset (r : Reg) : regAt (regOffset r) = some r := by
  cases r <;> rfl

theorem target_reg (s : State) (r : Reg) : s.target .word (s.platform.base + regOffset r) = .window (regOffset r) :=
  target_window s (regOffset_aligned r).1 (regOffset_aligned r).2

/-- A write at a window offset (R62). -/
theorem busWrite_window (s : State) {offset : Nat} (h4 : offset % 4 = 0) (hlt : offset < 0x100) (v : Word) :
    busWrite s .word (s.platform.base + offset) v = writeOffset s offset v := by
  simp [busWrite, target_window s h4 hlt]

/-- A read at a window offset (R62, R69). -/
theorem busRead_window (s : State) {offset : Nat} (h4 : offset % 4 = 0) (hlt : offset < 0x100) :
    busRead s .word (s.platform.base + offset) =
      .next { s with observed := .reg (s.platform.base + offset) (readOffset s offset) :: s.observed } := by
  simp [busRead, target_window s h4 hlt]

/-- The two offsets whose writes act in any phase, found from the offset. -/
theorem regAt_ctrl_or_status {offset : Nat} {r : Reg} (h : regAt offset = some r) : offset = regOffset r := by
  unfold regAt at h
  split at h <;> cases h <;> rfl

theorem writeOffset_ctrl (s : State) (v : Word) : writeOffset s 0x004 v = writeCtrl s v := rfl

theorem writeOffset_status (s : State) (v : Word) :
    writeOffset s 0x008 v = .next { s with status := s.status.w1c v } := rfl

/-- A write at any other offset (R47, R48). -/
theorem writeOffset_plain (s : State) {offset : Nat} (h1 : offset ≠ 0x004) (h2 : offset ≠ 0x008) (v : Word) :
    writeOffset s offset v = .next (writePlain s (regAt offset) v) := by
  unfold writeOffset
  split
  · rename_i h; exact absurd (regAt_ctrl_or_status h) h1
  · rename_i h; exact absurd (regAt_ctrl_or_status h) h2
  · rfl

theorem writePlain_busy {s : State} {w : Word} {p : Snapshot} (h : s.phase = .busy w p) (r : Option Reg) (v : Word) :
    writePlain s r v = { s with status := s.status.dropped } := by
  simp [writePlain, h]

/-- Everything a write other than to CTRL and STATUS can do (R46 to R48, R234). -/
theorem writePlain_cases (s : State) (r : Option Reg) (v : Word) :
    ((∃ w p, s.phase = .busy w p) ∧ writePlain s r v = { s with status := s.status.dropped }) ∨
      (s.phase = .idle ∧ (writePlain s r v = s.accept v ∨ ∃ o, writePlain s r v = { s with ops := o })) := by
  rcases h : s.phase with _ | ⟨w, p⟩
  · refine .inr ⟨rfl, ?_⟩
    simp only [writePlain, h]
    split
    · exact .inl rfl
    · exact .inr ⟨_, rfl⟩
    · exact .inr ⟨s.ops, by rw [← h]⟩
  · exact .inl ⟨⟨w, p, rfl⟩, by rw [writePlain_busy h, h]⟩

/-- Everything an event can do when it answers a next state. -/
inductive EventDoes (s : State) : Input → State → Prop where
  /-- The engine moved. -/
  | engine {t} (h : engineTurn s = .next t) : EventDoes s .engine t
  /-- An access elsewhere in the host's address space: nothing happened here. -/
  | elsewhere (e) : EventDoes s e s
  /-- `rst`. -/
  | rst : EventDoes s .rst s.resetDevice
  /-- A CTRL write with SRST = 1. -/
  | softReset {v : Word} (h : v.getLsbD 1 = true) :
    EventDoes s (.busWrite .word (s.platform.base + 0x004) v) s.resetDevice
  /-- A CTRL write with SRST = 0. -/
  | ctrl {v : Word} (h : v.getLsbD 1 = false) :
    EventDoes s (.busWrite .word (s.platform.base + 0x004) v) { s with ie := v.getLsbD 0 }
  /-- A STATUS write. -/
  | status (v : Word) :
    EventDoes s (.busWrite .word (s.platform.base + 0x008) v) { s with status := s.status.w1c v }
  /-- Any other write in the window. -/
  | plain {offset} (v : Word) (h1 : offset ≠ 0x004) (h2 : offset ≠ 0x008) :
    EventDoes s (.busWrite .word (s.platform.base + offset) v) (writePlain s (regAt offset) v)
  /-- A register read or a read of a byte. -/
  | read (e) (o : Observation) (d : Nat) : EventDoes s e { s with observed := o :: s.observed, draws := d }
  /-- A host load that the cache keeps a copy of. -/
  | cachedRead (a : Word) (o : Observation) (d : Nat) (c : CachedByte) (h : s.platform.coherent = false) :
    EventDoes s (.hostLoad a)
      { s with observed := o :: s.observed, draws := d, hostCache := Cache.put s.hostCache a.toNat c }
  /-- A store or a write-back reaches memory outside the footprint in BUSY. -/
  | store (e) (a : Word) (v : Byte) (h : covers s.phase.footprint a.toNat = false)
    (hm : covers s.platform.nonMemory a.toNat = false) :
    EventDoes s e { s with mem := Memory.write s.mem a.toNat v }
  /-- A write-back of a dirty copy, which stays as a clean one. -/
  | writeBack (a : Word) (v : Byte) (h : covers s.phase.footprint a.toNat = false) (hc : s.platform.coherent = false) :
    EventDoes s (.writeBack a)
      { s with mem := Memory.write s.mem a.toNat v, hostCache := Cache.put s.hostCache a.toNat ⟨v, false⟩ }
  /-- A host store that stays in the cache. -/
  | cachedStore (a : Word) (v : Byte) (h : s.platform.coherent = false) :
    EventDoes s (.hostStore a v) { s with hostCache := Cache.put s.hostCache a.toNat ⟨v, true⟩ }
  /-- The cache drops a copy. -/
  | dropped (a : Word) (h : s.platform.coherent = false) :
    EventDoes s (.invalidate a) { s with hostCache := Memory.erase s.hostCache a.toNat }

/-- Everything a store that reaches memory can do (R270): the hazard, a refusal of what is no memory, or the byte written. -/
theorem hostMemWrite_cases (s : State) (a : Word) (v : Byte) :
    (covers s.phase.footprint a.toNat = true ∧ hostMemWrite s a v = .fault .hazard) ∨
      (covers s.phase.footprint a.toNat = false ∧ covers s.platform.nonMemory a.toNat = true ∧
        hostMemWrite s a v = .refused .platformDevice) ∨
      (covers s.phase.footprint a.toNat = false ∧ covers s.platform.nonMemory a.toNat = false ∧
        hostMemWrite s a v = .next { s with mem := Memory.write s.mem a.toNat v }) := by
  unfold hostMemWrite
  cases covers s.phase.footprint a.toNat <;> cases covers s.platform.nonMemory a.toNat <;> simp

/-- Everything a host store can do (R75, R270). -/
theorem hostStore_cases (s : State) (a : Word) (v : Byte) :
    (covers s.phase.footprint a.toNat = true ∧ hostStore s a v = .fault .hazard) ∨
      (covers s.phase.footprint a.toNat = false ∧ covers s.platform.nonMemory a.toNat = true ∧
        hostStore s a v = .refused .platformDevice) ∨
      (covers s.phase.footprint a.toNat = false ∧ covers s.platform.nonMemory a.toNat = false ∧
        ((s.platform.coherent = true ∧ hostStore s a v = .next { s with mem := Memory.write s.mem a.toNat v }) ∨
          (s.platform.coherent = false ∧
            hostStore s a v = .next { s with hostCache := Cache.put s.hostCache a.toNat ⟨v, true⟩ }))) := by
  unfold hostStore hostMemWrite
  cases s.platform.coherent <;> cases covers s.phase.footprint a.toNat <;> cases covers s.platform.nonMemory a.toNat <;>
    simp

/-- Everything a read of a byte can do (R270). -/
theorem readByte_cases (s : State) (a : Word) (held : Byte) (got : State → Byte → State) :
    (covers s.phase.writeRegions a.toNat = true ∧ s.readByte a held got =
        .next (got { s with draws := s.draws + 1 } (Config.racyByte s.draws a.toNat))) ∨
      (covers s.phase.writeRegions a.toNat = false ∧ covers s.platform.nonMemory a.toNat = true ∧
        s.readByte a held got = .refused .platformDevice) ∨
      (covers s.phase.writeRegions a.toNat = false ∧ covers s.platform.nonMemory a.toNat = false ∧
        s.readByte a held got = .next (got s held)) := by
  unfold State.readByte
  cases covers s.phase.writeRegions a.toNat <;> cases covers s.platform.nonMemory a.toNat <;> simp

/-- Everything a write-back can do (R75, R270). -/
theorem hostWriteBack_cases (s : State) (a : Word) :
    ((s.platform.coherent = true ∨ ∀ v, Cache.read s.hostCache a.toNat ≠ some ⟨v, true⟩) ∧ hostWriteBack s a = .next s) ∨
      (s.platform.coherent = false ∧ ∃ v, Cache.read s.hostCache a.toNat = some ⟨v, true⟩ ∧
        hostWriteBack s a =
          hostMemWrite { s with hostCache := Cache.put s.hostCache a.toNat ⟨v, false⟩ } a v) := by
  unfold hostWriteBack
  cases hc : s.platform.coherent
  · rcases h : Cache.read s.hostCache a.toNat with _ | ⟨v, _ | _⟩
    · exact .inl ⟨.inr fun v hv => (nomatch hv), rfl⟩
    · exact .inl ⟨.inr fun w hw => (nomatch hw), rfl⟩
    · exact .inr ⟨rfl, v, rfl, rfl⟩
  · exact .inl ⟨.inl rfl, rfl⟩

theorem resetStep_next {s t : State} (h : s.resetStep = .next t) : t = s.resetDevice := by
  rcases resetStep_cases s with ⟨hc, _⟩ | ⟨_, hc⟩ <;> rw [hc] at h <;> cases h
  rfl

/-- Everything one event can do (R242). -/
theorem takeInput_does {s t : State} {e : Input} (h : takeInput s e = .next t) : EventDoes s e t := by
  cases e with
  | engine => exact .engine h
  | rst => rw [resetStep_next h]; exact .rst
  | busWrite size addr v =>
    simp only [takeInput, busWrite] at h
    split at h
    · cases h; exact .elsewhere _
    · rename_i offset ht
      obtain ⟨rfl, rfl, h4, hlt⟩ := target_eq_window ht
      by_cases h1 : offset = 0x004
      · subst h1
        rw [writeOffset_ctrl, writeCtrl] at h
        split at h
        · rename_i hv; rw [resetStep_next h]; exact .softReset hv
        · rename_i hv; cases h; exact .ctrl (by simpa using hv)
      · by_cases h2 : offset = 0x008
        · subst h2; rw [writeOffset_status] at h; cases h; exact .status v
        · rw [writeOffset_plain s h1 h2] at h; cases h; exact .plain v h1 h2
    · cases h
  | busRead size addr =>
    simp only [takeInput, busRead] at h
    split at h <;> cases h
    · exact .elsewhere _
    · exact .read _ _ s.draws
  | memWrite a v =>
    rcases hostMemWrite_cases s a v with ⟨_, hc⟩ | ⟨_, _, hc⟩ | ⟨hf, hm, hc⟩ <;> rw [takeInput, hc] at h <;> cases h
    exact .store _ a v hf hm
  | memRead a =>
    rw [takeInput, hostMemRead] at h
    rcases readByte_cases s a (s.byteAt a.toNat) (fun t v => t.observe a v) with ⟨_, hc⟩ | ⟨_, _, hc⟩ | ⟨_, _, hc⟩ <;>
      rw [hc] at h <;> cases h
    · exact .read _ _ _
    · exact .read _ _ s.draws
  | hostStore a v =>
    rcases hostStore_cases s a v with ⟨_, hc⟩ | ⟨_, _, hc⟩ | ⟨hf, hm, ⟨_, hc⟩ | ⟨hp, hc⟩⟩ <;>
      rw [takeInput, hc] at h <;> cases h
    · exact .store _ a v hf hm
    · exact .cachedStore a v hp
  | hostLoad a =>
    rw [takeInput, hostLoad] at h
    split at h
    · rw [hostMemRead] at h
      rcases readByte_cases s a (s.byteAt a.toNat) (fun t v => t.observe a v) with ⟨_, hc⟩ | ⟨_, _, hc⟩ | ⟨_, _, hc⟩ <;>
        rw [hc] at h <;> cases h
      · exact .read _ _ _
      · exact .read _ _ s.draws
    · rename_i hp
      rw [Bool.not_eq_true] at hp
      split at h
      · rename_i c _
        rcases readByte_cases s a c.value (fun t v => t.observe a v) with ⟨_, hc⟩ | ⟨_, _, hc⟩ | ⟨_, _, hc⟩ <;>
          rw [hc] at h <;> cases h
        · exact .read _ _ _
        · exact .read _ _ s.draws
      · rcases readByte_cases s a (s.byteAt a.toNat) (fun t v =>
            State.observe { t with hostCache := Cache.put t.hostCache a.toNat ⟨v, false⟩ } a v) with
          ⟨_, hc⟩ | ⟨_, _, hc⟩ | ⟨_, _, hc⟩ <;> rw [hc] at h <;> cases h
        · exact .cachedRead a _ _ _ hp
        · exact .cachedRead a _ s.draws _ hp
  | writeBack a =>
    rw [takeInput] at h
    rcases hostWriteBack_cases s a with ⟨_, hc⟩ | ⟨hp, v, _, hc⟩ <;> rw [hc] at h
    · cases h; exact .elsewhere _
    · rcases hostMemWrite_cases { s with hostCache := Cache.put s.hostCache a.toNat ⟨v, false⟩ } a v with
        ⟨_, hc⟩ | ⟨_, _, hc⟩ | ⟨hf, _, hc⟩ <;> rw [hc] at h <;> cases h
      exact .writeBack a v hf hp
  | invalidate a =>
    rw [takeInput, hostInvalidate] at h
    split at h <;> cases h
    · exact .elsewhere _
    · rename_i hp; exact .dropped a (by simpa using hp)

/-- Everything one step can do: the engine moves with nothing pending, or the next event is taken off the list. -/
theorem step_does {s t : State} (h : step s = .next t) :
    (s.inputs = [] ∧ engineTurn s = .next t) ∨
      ∃ e rest, s.inputs = e :: rest ∧ EventDoes { s with inputs := rest } e t := by
  unfold step nextEvent at h
  split at h
  · rename_i hi; exact .inl ⟨hi, h⟩
  · rename_i e rest hi; exact .inr ⟨e, rest, hi, takeInput_does h⟩

/-- Everything the engine's move can do (R235, R238, R249). -/
theorem engineTurn_cases {s t : State} (h : engineTurn s = .next t) :
    (s.phase = .idle ∧ t = s) ∨
      (∃ w p i, s.phase = .busy w p ∧ decode w = .ok i ∧ exec i s = .next t) ∨
      ∃ w p e, s.phase = .busy w p ∧ decode w = .error e ∧ t = s.fail .illegalCommand := by
  unfold engineTurn at h
  split at h
  · rename_i hp; cases h; exact .inl ⟨hp, rfl⟩
  · rename_i w p hp
    split at h
    · rename_i i hd; exact .inr (.inl ⟨w, p, i, hp, hd, h⟩)
    · rename_i e hd; cases h; exact .inr (.inr ⟨w, p, e, hp, hd, rfl⟩)

end Sys2Proof.Machine
end

