-- ==== Sys2Proof/Laws/Feistel.lean ====
section
/-! SUPPORT. What the shared operations of the Feistel unit do: the buffer image, its accesses, and the two command
shapes. -/

namespace Sys2Proof.Machine

/-- Byte i of the output buffer (R129). -/
theorem read_bufferImage_in (m : List Host.Cell) (p : Snapshot) (f : Byte → Byte) {i : Nat} (h : i < p.byteCount) :
    Memory.read (bufferImage m p f) (p.dst + i) = f (Memory.read m (p.src + i)) := by
  rw [bufferImage, Memory.read_fill_in (by omega) (by omega)]
  congr 2
  omega

/-- Every other byte is left alone (R129). -/
theorem read_bufferImage_out (m : List Host.Cell) (p : Snapshot) (f : Byte → Byte) {a : Nat}
    (h : p.dstBlocks.contains a = false) : Memory.read (bufferImage m p f) a = Memory.read m a := by
  rw [Region.contains_eq_false] at h
  exact Memory.read_fill_out h

/-- A buffer command accesses only its footprint. -/
theorem bufferAccesses_covered {p : Snapshot} {a : Nat} (h : a ∈ bufferAccesses p) :
    covers [p.srcBlocks, p.dstBlocks] a = true := by
  simp only [bufferAccesses, List.mem_append, List.mem_map, List.mem_range] at h
  rw [covers_iff]
  rcases h with ⟨k, hk, rfl⟩ | ⟨k, hk, rfl⟩
  · exact ⟨p.srcBlocks, by simp, by simp [Snapshot.srcBlocks]; omega⟩
  · exact ⟨p.dstBlocks, by simp, by simp [Snapshot.dstBlocks]; omega⟩

/-- Everything a one-block command can do, check by check (R126, R127). -/
theorem blockCommand_cases (s : State) (ka kb : Byte) :
    (s.inFlight.kvalid = false ∧ blockCommand s ka kb = .next (s.fail .keyNotScheduled)) ∨
      (s.inFlight.kvalid = true ∧ s.inFlight.ops.blen ≠ 8 ∧ blockCommand s ka kb = .next (s.fail .invalidBlockLength)) ∨
      (s.inFlight.kvalid = true ∧ s.inFlight.ops.blen = 8 ∧
        blockCommand s ka kb = .next (s.commit { s.res with bout := sdesBlock s.inFlight.ops.bin ka kb } s.mem)) := by
  unfold blockCommand
  dsimp only
  by_cases h1 : s.inFlight.kvalid = true
  · rw [if_neg (by simp [h1])]
    by_cases h2 : s.inFlight.ops.blen = 8
    · exact .inr (.inr ⟨h1, h2, if_neg (not_not.2 h2)⟩)
    · exact .inr (.inl ⟨h1, h2, if_pos h2⟩)
  · rw [Bool.not_eq_true] at h1
    exact .inl ⟨h1, if_pos (by simp [h1])⟩

/-- Everything a buffer command can do, check by check (R129, R130). -/
theorem bufferCommand_cases (i : Instr) (s : State) (f : Byte → Byte) (p : Snapshot) (hp : p = s.inFlight) :
    (p.kvalid = false ∧ bufferCommand i s f = .next (s.fail .keyNotScheduled)) ∨
      (p.kvalid = true ∧ (p.srcBlocks.wraps = true ∨ p.dstBlocks.wraps = true) ∧
        bufferCommand i s f = .next (s.fail .regionWrap)) ∨
      (p.kvalid = true ∧ p.srcBlocks.wraps = false ∧ p.dstBlocks.wraps = false ∧
        p.ops.src ≠ p.ops.dst ∧ p.srcBlocks.overlaps p.dstBlocks = true ∧
        bufferCommand i s f = .next (s.fail .regionOverlap)) ∨
      (p.kvalid = true ∧ p.srcBlocks.wraps = false ∧ p.dstBlocks.wraps = false ∧
        (p.ops.src = p.ops.dst ∨ p.srcBlocks.overlaps p.dstBlocks = false) ∧
        bufferCommand i s f = s.memoryPhase i (bufferAccesses p) (fun t => t.commit t.res (bufferImage t.mem p f))) := by
  subst hp
  unfold bufferCommand
  by_cases h1 : s.inFlight.kvalid = true
  · by_cases h2 : s.inFlight.srcBlocks.wraps = true ∨ s.inFlight.dstBlocks.wraps = true
    · refine .inr (.inl ⟨h1, h2, ?_⟩)
      have : (s.inFlight.srcBlocks.wraps || s.inFlight.dstBlocks.wraps) = true := by simpa using h2
      simp [h1, this]
    · have h2' : s.inFlight.srcBlocks.wraps = false ∧ s.inFlight.dstBlocks.wraps = false := by simpa using h2
      by_cases h3 : s.inFlight.ops.src = s.inFlight.ops.dst
      · exact .inr (.inr (.inr ⟨h1, h2'.1, h2'.2, .inl h3, by simp [h1, h2', h3]⟩))
      · by_cases h4 : s.inFlight.srcBlocks.overlaps s.inFlight.dstBlocks = true
        · exact .inr (.inr (.inl ⟨h1, h2'.1, h2'.2, h3, h4, by simp [h1, h2', h3, h4]⟩))
        · rw [Bool.not_eq_true] at h4
          exact .inr (.inr (.inr ⟨h1, h2'.1, h2'.2, .inr h4, by simp [h1, h2', h4]⟩))
  · rw [Bool.not_eq_true] at h1
    exact .inl ⟨h1, by simp [h1]⟩

end Sys2Proof.Machine
end

