-- ==== Sys2Proof/Laws/Hill.lean ====
section
/-! SUPPORT. What the Hill unit's operations answer: residues, the exhaustive scan, and the registers a Hill command
writes. -/

namespace Sys2Proof.Machine

/-- `mod26` is the remainder of R11, as an integer. -/
theorem mod26_cast (x : Int) : (mod26 x : Int) = x % 26 := by
  unfold mod26
  omega

theorem mod26_lt (x : Int) : mod26 x < 26 := by
  unfold mod26
  omega

/-- Everything the scan of R100 answers: a residue up to 25, which is an inverse unless it is 0, and the least one. -/
theorem hillScan_spec {dm : Nat} (h : dm < 26) :
    hillScan dm ≤ 25 ∧ (hillScan dm ≠ 0 → dm * hillScan dm % 26 = 1) ∧
      ∀ x, 1 ≤ x → x ≤ 25 → dm * x % 26 = 1 → hillScan dm ≠ 0 ∧ hillScan dm ≤ x := by
  have key : ∀ dm, dm < 26 → hillScan dm ≤ 25 ∧ (hillScan dm ≠ 0 → dm * hillScan dm % 26 = 1) ∧
      ∀ x, x < 26 → 1 ≤ x → dm * x % 26 = 1 → hillScan dm ≠ 0 ∧ hillScan dm ≤ x := by decide +kernel
  obtain ⟨h1, h2, h3⟩ := key dm h
  exact ⟨h1, h2, fun x hx hx' => h3 x (by omega) hx⟩

/-- The determinant `hill_validate` computes is that of the snapshot's matrix. -/
theorem hillValidate_det (p : Snapshot) : (hillValidate p).det = p.ops.det := rfl

theorem hillValidate_dm_lt (p : Snapshot) : (hillValidate p).dm < 26 := mod26_lt _

theorem hillValidate_inv_le (p : Snapshot) : (hillValidate p).inv ≤ 25 := (hillScan_spec (mod26_lt _)).1

/-- A signed byte lies between -128 and 127. -/
theorem byte_toInt_bounds (b : Byte) : -128 ≤ b.toInt ∧ b.toInt ≤ 127 := by
  have h1 := BitVec.le_toInt b
  have h2 := BitVec.toInt_lt (x := b)
  norm_num at h1 h2
  omega

/-- The determinant always fits HDET (R110). -/
theorem det_bounds (o : Operands) : -65536 ≤ o.det ∧ o.det ≤ 65536 := by
  obtain ⟨a1, a2⟩ := byte_toInt_bounds o.hm00
  obtain ⟨b1, b2⟩ := byte_toInt_bounds o.hm01
  obtain ⟨c1, c2⟩ := byte_toInt_bounds o.hm10
  obtain ⟨d1, d2⟩ := byte_toInt_bounds o.hm11
  have h1 : |o.hm00.toInt * o.hm11.toInt| ≤ 128 * 128 := by
    rw [abs_mul]; exact mul_le_mul (by rw [abs_le]; omega) (by rw [abs_le]; omega) (abs_nonneg _) (by norm_num)
  have h2 : |o.hm01.toInt * o.hm10.toInt| ≤ 128 * 128 := by
    rw [abs_mul]; exact mul_le_mul (by rw [abs_le]; omega) (by rw [abs_le]; omega) (abs_nonneg _) (by norm_num)
  rw [abs_le] at h1 h2
  unfold Operands.det
  constructor <;> linarith [h1.1, h1.2, h2.1, h2.2]

/-- A residue stored in a 5-bit field reads back as itself. -/
theorem field5_toNat {n : Nat} (h : n < 26) : (BitVec.ofNat 5 n).toNat = n := by
  rw [BitVec.toNat_ofNat]; omega

theorem field5_ofInt_toNat {n : Nat} (h : n < 26) : (BitVec.ofInt 5 (n : Int)).toNat = n := by
  rw [BitVec.ofInt_natCast]; exact field5_toNat h

/-- The registers every successful Hill command writes report the matrix. -/
theorem withCheck_reports (r : Results) (p : Snapshot) : (r.withCheck (hillValidate p)).ReportsMatrix p.ops := by
  have hd := det_bounds p.ops
  have h1 : ((r.withCheck (hillValidate p)).hdetmod).toNat = (hillValidate p).dm := field5_toNat (hillValidate_dm_lt p)
  have h2 : ((r.withCheck (hillValidate p)).hdetinv).toNat = (hillValidate p).inv :=
    field5_toNat (by have := hillValidate_inv_le p; omega)
  unfold Results.ReportsMatrix
  rw [h1, h2]
  obtain ⟨h3, h4, h5⟩ := hillScan_spec (mod26_lt p.ops.det)
  refine ⟨?_, mod26_cast _, ?_, h3, h4, h5⟩
  · show (BitVec.ofInt 32 p.ops.det).toInt = _
    rw [BitVec.toInt_ofInt]
    exact Int.bmod_eq_of_le (by norm_num; omega) (by norm_num; omega)
  · simp [Results.withCheck, HillCheck.valid]

/-- HINV after HILL_INV or HILL_DEC holds the inverse matrix (R101). -/
theorem withInverse_holds (r : Results) (p : Snapshot) (h : r.hdetinv.toNat = (hillValidate p).inv) :
    (r.withInverse (hillInverse p)).HoldsInverse p.ops := by
  unfold Results.HoldsInverse Results.withInverse hillInverse
  simp only [h]
  refine ⟨?_, ?_, ?_, ?_⟩ <;> rw [field5_ofInt_toNat (mod26_lt _), mod26_cast] <;> rfl

end Sys2Proof.Machine
end

