-- ==== Sys2Proof/Laws/Lsb.lean ====
section
/-! SUPPORT. What the shared operations of the LSB unit answer: the channel walk, the stego buffer, packed streams, the
sum of squared differences, and the extraction walk. -/

namespace Sys2Proof.Machine

/-! ### The walk -/

theorem walk_lt {j n : Nat} (h : j < 3 * n) : walk j < 4 * n := by
  unfold walk
  omega

theorem walk_injective {i j : Nat} (h : walk i = walk j) : i = j := by
  unfold walk at h
  omega

/-- A byte that no stream bit below u reaches: an alpha byte, or a channel past the walk (R162). -/
theorem walk_ne {q u j : Nat} (h : q % 4 = 3 ∨ u ≤ 3 * (q / 4) + q % 4) (hj : j < u) : walk j ≠ q := by
  unfold walk
  omega

/-! ### Packed streams -/

/-- Bit b of a byte built from eight bits, first bit on top. -/
theorem packedByte_bit (bs : List Bool) (k : Nat) {b : Nat} (hb : b < 8) :
    (packedByte bs k).getLsbD (7 - b) = bs.getD (8 * k + b) false := by
  have h8 : List.range 8 = [0, 1, 2, 3, 4, 5, 6, 7] := rfl
  unfold packedByte
  rw [h8]
  simp only [List.foldl_cons, List.foldl_nil]
  interval_cases b <;> simp

/-- A packed stream read back bit by bit (R150). -/
theorem streamBit_packed (m : List Host.Cell) (a : Nat) (bs : List Bool) {n i : Nat} (h : i < 8 * n) :
    streamBit (Memory.fill m a n (fun x => packedByte bs (x - a))) a i = bs.getD i false := by
  unfold streamBit
  rw [Memory.read_fill_in (by omega) (by omega), Nat.add_sub_cancel_left, packedByte_bit bs _ (by omega)]
  congr 1
  omega

/-! ### The sum of squared differences -/

theorem sqDiff_cast (x y : Byte) : (sqDiff x y : Int) = ((x.toNat : Int) - (y.toNat : Int)) ^ 2 := by
  unfold sqDiff
  push_cast
  exact sq_abs _

theorem sqDiff_le (x y : Byte) : sqDiff x y ≤ 65025 := by
  have hx := x.isLt
  have hy := y.isLt
  have h : ((x.toNat : Int) - (y.toNat : Int)).natAbs ≤ 255 := by omega
  calc _ ≤ 255 ^ 2 := Nat.pow_le_pow_left h 2
    _ = 65025 := rfl

theorem sqDiff_self (x : Byte) : sqDiff x x = 0 := by simp [sqDiff]

/-- The sum is R163's sum over pixels and channels. -/
theorem sse_eq_channelSse (f g : Nat → Byte) (n : Nat) : (sse f g n : Int) = channelSse f g n := by
  induction n with
  | zero => rfl
  | succ n ih =>
    unfold channelSse at *
    rw [Finset.sum_range_succ, ← ih, sse]
    push_cast [sqDiff_cast]
    simp [Finset.sum_range_succ]

/-- The sum never exceeds 195075 a pixel (R163). -/
theorem sse_le (f g : Nat → Byte) (n : Nat) : sse f g n ≤ 195075 * n := by
  induction n with
  | zero => rfl
  | succ n ih =>
    have h1 := sqDiff_le (f (4 * n)) (g (4 * n))
    have h2 := sqDiff_le (f (4 * n + 1)) (g (4 * n + 1))
    have h3 := sqDiff_le (f (4 * n + 2)) (g (4 * n + 2))
    rw [sse]
    omega

theorem sse_congr {f g f' g' : Nat → Byte} {n : Nat} (h : ∀ q, q < 4 * n → f q = f' q ∧ g q = g' q) :
    sse f g n = sse f' g' n := by
  induction n with
  | zero => rfl
  | succ n ih =>
    rw [sse, sse, ih fun q hq => h q (by omega)]
    rw [(h (4 * n) (by omega)).1, (h (4 * n) (by omega)).2, (h (4 * n + 1) (by omega)).1, (h (4 * n + 1) (by omega)).2,
      (h (4 * n + 2) (by omega)).1, (h (4 * n + 2) (by omega)).2]

/-- The 64-bit register holds a sum that fits (R44, R163). -/
theorem withSse_sse (r : Results) {e : Nat} (h : e < 2 ^ 64) : (r.withSse e).sse = e := by
  simp only [Results.sse, Results.withSse, BitVec.toNat_ofNat]
  omega

/-! ### The stego buffer -/

/-- The low bit replaced, the other seven kept (R170). -/
theorem withLsb_eq (b : Byte) (bit : Bool) : withLsb b bit = (b &&& 0xFE) ||| (if bit then 1 else 0) := by
  cases bit <;> rfl

theorem withLsb_lsb (b : Byte) (bit : Bool) : (withLsb b bit).getLsbD 0 = bit := by
  cases bit <;> simp [withLsb]

/-- Replacing the low bit moves the value by at most 1, and by 0 exactly when the bit was there (R173). -/
theorem withLsb_diff (b : Byte) (bit : Bool) :
    (((withLsb b bit).toNat : Int) - (b.toNat : Int)).natAbs = if bit = b.getLsbD 0 then 0 else 1 := by
  revert b bit
  decide +kernel

theorem embedBit_length (full : List Bool) (out : List Byte) (j : Nat) : (embedBit full out j).length = out.length := by
  simp [embedBit]

theorem embedWalk_length (full : List Bool) (out : List Byte) (u : Nat) :
    ((List.range u).foldl (embedBit full) out).length = out.length := by
  induction u with
  | zero => rfl
  | succ u ih => rw [List.range_succ, List.foldl_append, List.foldl_cons, List.foldl_nil, embedBit_length, ih]

/-- A byte the walk does not reach is the carrier's. -/
theorem embedWalk_other (full : List Bool) (out : List Byte) {u q : Nat} (h : ∀ j, j < u → walk j ≠ q) :
    ((List.range u).foldl (embedBit full) out).getD q 0 = out.getD q 0 := by
  induction u with
  | zero => rfl
  | succ u ih =>
    rw [List.range_succ, List.foldl_append, List.foldl_cons, List.foldl_nil, embedBit, List.getD_eq_getElem?_getD,
      List.getElem?_set_ne (h u (by omega)), ← List.getD_eq_getElem?_getD, ih fun j hj => h j (by omega)]

/-- A walked byte is the carrier's with the stream bit in its low bit. -/
theorem embedWalk_walked (full : List Bool) (out : List Byte) {u j : Nat} (hj : j < u) (hlen : walk j < out.length) :
    ((List.range u).foldl (embedBit full) out).getD (walk j) 0 = withLsb (out.getD (walk j) 0) (full.getD j false) := by
  induction u with
  | zero => omega
  | succ u ih =>
    rw [List.range_succ, List.foldl_append, List.foldl_cons, List.foldl_nil, embedBit, List.getD_eq_getElem?_getD]
    by_cases h : j = u
    · subst h
      rw [List.getElem?_set_self (by rw [embedWalk_length]; exact hlen),
        embedWalk_other full out fun i hi he => by have := walk_injective he; omega]
      rfl
    · rw [List.getElem?_set_ne (fun he => h (walk_injective he).symm), ← List.getD_eq_getElem?_getD, ih (by omega)]

/-- Bit j of the full payload (R160): the payload's bit, then DELIM. -/
theorem fullPayload_getD (s : State) (p : Snapshot) {j : Nat} (h : j < p.payloadBits + 16) :
    (fullPayload s.mem p).getD j false = s.fullBit p j := by
  unfold fullPayload State.fullBit
  rw [List.getD_eq_getElem?_getD, List.getElem?_append]
  simp only [bits, List.length_map, List.length_range]
  split
  · rename_i hj
    simp [hj, streamBit, State.byteAt]
  · rename_i hj
    have hd : ∀ i, i < 16 → (delim[i]?.getD false) = decide (i < 15) := by decide
    rw [hd _ (by omega)]
    simp only [decide_eq_decide]
    omega

/-- Byte q of the carrier clone. -/
theorem carrier_getD (m : List Host.Cell) (p : Snapshot) {q : Nat} (h : q < p.pixelBytes) :
    ((List.range p.pixelBytes).map (fun q => Memory.read m (p.src + q))).getD q 0 = Memory.read m (p.src + q) := by
  simp [List.getD_eq_getElem?_getD, h]

/-- The stego buffer on a walked channel (R170). -/
theorem stegoBuffer_walked (s : State) (p : Snapshot) {j : Nat} (h : j < p.usedBits) (hcap : p.usedBits ≤ 3 * p.pixels) :
    (stegoBuffer s.mem p).getD (walk j) 0 = withLsb (s.byteAt (p.src + walk j)) (s.fullBit p j) := by
  have hw : walk j < p.pixelBytes := walk_lt (by omega)
  unfold stegoBuffer
  rw [embedWalk_walked _ _ h (by simpa using hw), carrier_getD _ _ hw, fullPayload_getD s p h]
  rfl

/-- The stego buffer elsewhere (R170): the carrier's byte. -/
theorem stegoBuffer_other (s : State) (p : Snapshot) {q : Nat} (hq : q < p.pixelBytes) (h : ∀ j, j < p.usedBits → walk j ≠ q) :
    (stegoBuffer s.mem p).getD q 0 = s.byteAt (p.src + q) := by
  unfold stegoBuffer
  rw [embedWalk_other _ _ h, carrier_getD _ _ hq]
  rfl

/-! ### The extraction walk -/

/-- The accumulator ends in DELIM exactly when DELIM stands 16 bits before its end. -/
theorem endsWithDelim_map (bit : Nat → Bool) (n : Nat) :
    endsWithDelim ((List.range n).map bit) = true ↔ 16 ≤ n ∧ DelimAt bit (n - 16) := by
  unfold endsWithDelim
  simp only [Bool.and_eq_true, decide_eq_true_eq, List.length_map, List.length_range, beq_iff_eq]
  refine and_congr_right fun h => ?_
  have hdrop : ((List.range n).map bit).drop (n - 16) = (List.range 16).map (fun k => bit (n - 16 + k)) := by
    apply List.ext_getElem
    · simp; omega
    · intro i h1 h2
      simp
  rw [hdrop]
  have hdelim : delim = (List.range 16).map (fun k => decide (k < 15)) := rfl
  rw [hdelim, List.map_inj_left]
  simp [DelimAt]

/-- The walk started after n bits, none of them ending a delimiter: the least place of DELIM, or none. -/
theorem extractWalk_spec (bit : Nat → Bool) (fuel n : Nat) (h : ∀ x, x + 16 ≤ n → ¬ DelimAt bit x) :
    (∃ x, x + 16 ≤ n + fuel ∧ DelimAt bit x ∧ (∀ y, y < x → ¬ DelimAt bit y) ∧
        extractWalk bit fuel ((List.range n).map bit) = some ((List.range x).map bit)) ∨
      ((∀ x, x + 16 ≤ n + fuel → ¬ DelimAt bit x) ∧ extractWalk bit fuel ((List.range n).map bit) = none) := by
  induction fuel generalizing n with
  | zero => exact .inr ⟨h, rfl⟩
  | succ f ih =>
    have hacc : (List.range n).map bit ++ [bit ((List.range n).map bit).length] = (List.range (n + 1)).map bit := by
      simp [List.range_succ]
    rw [extractWalk]
    simp only [hacc]
    by_cases he : endsWithDelim ((List.range (n + 1)).map bit) = true
    · rw [if_pos he]
      obtain ⟨h16, hd⟩ := (endsWithDelim_map bit (n + 1)).1 he
      refine .inl ⟨n + 1 - 16, by omega, hd, fun y hy => h y (by omega), ?_⟩
      rw [← List.map_take, List.length_map, List.length_range, List.take_range, Nat.min_eq_left (by omega)]
    · rw [if_neg he]
      have h' : ∀ x, x + 16 ≤ n + 1 → ¬ DelimAt bit x := by
        intro x hx hd
        by_cases hx' : x + 16 ≤ n
        · exact h x hx' hd
        · refine he ((endsWithDelim_map bit (n + 1)).2 ⟨by omega, ?_⟩)
          rwa [show n + 1 - 16 = x by omega]
      have := ih (n + 1) h'
      rwa [show n + 1 + f = n + (f + 1) by omega] at this

/-- Everything an extraction finds: the bits before the first delimiter of the walked stream, or nothing (R171). -/
theorem extracted_cases (s : State) (p : Snapshot) :
    (∃ x, x + 16 ≤ 3 * p.pixels ∧ DelimAt (s.lsbAt p.src) x ∧ (∀ y, y < x → ¬ DelimAt (s.lsbAt p.src) y) ∧
        extracted s.mem p = some ((List.range x).map (s.lsbAt p.src))) ∨
      ((∀ x, x + 16 ≤ 3 * p.pixels → ¬ DelimAt (s.lsbAt p.src) x) ∧ extracted s.mem p = none) := by
  have := extractWalk_spec (s.lsbAt p.src) (3 * p.pixels) 0 (by omega)
  rw [Nat.zero_add] at this
  exact this

/-! ### The accesses lie in the footprints -/

theorem embedAccesses_covered {p : Snapshot} {a : Nat} : a ∈ embedAccesses p ↔ covers (footprint .lsbEmbed p) a = true := by
  have key : ∀ b n, (∃ k, k < n ∧ b + k = a) ↔ b ≤ a ∧ a < b + n := fun b n =>
    ⟨fun ⟨k, hk, he⟩ => by omega, fun h => ⟨a - b, by omega, by omega⟩⟩
  simp only [embedAccesses, List.mem_append, List.mem_map, List.mem_range, key, footprint, readRegions, writeRegions,
    covers_append, covers_cons, covers_nil, Bool.or_false, Bool.or_eq_true, Region.contains_iff, Snapshot.srcPixels,
    Snapshot.payload, Snapshot.dstPixels]

theorem extractAccesses_covered {m : List Host.Cell} {p : Snapshot} {a : Nat} (h : a ∈ extractAccesses m p) :
    covers (footprint .lsbExtract p) a = true := by
  rw [covers_iff]
  unfold extractAccesses at h
  split at h
  · rename_i found hf
    have h1 := extracted_within hf
    have h2 := extractWalk_length hf
    simp only [List.length_nil, Nat.zero_add] at h2
    simp only [List.mem_append, List.mem_map, List.mem_range] at h
    rcases h with ⟨j, hj, rfl⟩ | ⟨k, hk, rfl⟩
    · have := walk_lt (show j < 3 * p.pixels by omega)
      exact ⟨p.srcPixels, by simp [footprint, readRegions], by simp [Snapshot.srcPixels, Snapshot.pixelBytes]; omega⟩
    · exact ⟨p.extractOut, by simp [footprint, readRegions, writeRegions], by simp [Snapshot.extractOut]; omega⟩
  · simp only [List.mem_map, List.mem_range] at h
    obtain ⟨j, hj, rfl⟩ := h
    have := walk_lt hj
    exact ⟨p.srcPixels, by simp [footprint, readRegions], by simp [Snapshot.srcPixels, Snapshot.pixelBytes]; omega⟩

theorem psnrAccesses_covered {p : Snapshot} {a : Nat} (h : a ∈ psnrAccesses p) :
    covers (footprint .psnrSse p) a = true := by
  rw [covers_iff]
  simp only [psnrAccesses, List.mem_append, List.mem_map, List.mem_range] at h
  rcases h with ⟨j, hj, rfl⟩ | ⟨j, hj, rfl⟩
  · have := walk_lt hj
    exact ⟨p.srcPixels, by simp [footprint, readRegions], by simp [Snapshot.srcPixels, Snapshot.pixelBytes]; omega⟩
  · have := walk_lt hj
    exact ⟨p.refPixels, by simp [footprint, readRegions], by simp [Snapshot.refPixels, Snapshot.pixelBytes]; omega⟩

end Sys2Proof.Machine
end

