-- ==== Sys2Proof/Laws/PerInstr.lean ====
section
/-! SUPPORT. What holds of every command as syntax, one lemma for each. -/

namespace Sys2Proof.Laws

/-- The command's word is its opcode and nothing else (R80, R83), it decodes back, and its mnemonic names it. -/
def TableWord.Statement (i : Instr) : Prop :=
  (encode i).extractLsb' 8 24 = 0 ∧ decode (encode i) = .ok i ∧ decodeTableWord 32 (encode i).toNat = some i ∧
    instrNamed (mnemonic i) = some i ∧ instrNamed (dottedMnemonic i) = some i

theorem TableWord.nop : TableWord.Statement .nop := by unfold TableWord.Statement; decide
theorem TableWord.hillCheck : TableWord.Statement .hillCheck := by unfold TableWord.Statement; decide
theorem TableWord.hillInv : TableWord.Statement .hillInv := by unfold TableWord.Statement; decide
theorem TableWord.hillEnc : TableWord.Statement .hillEnc := by unfold TableWord.Statement; decide
theorem TableWord.hillDec : TableWord.Statement .hillDec := by unfold TableWord.Statement; decide
theorem TableWord.sdesKey : TableWord.Statement .sdesKey := by unfold TableWord.Statement; decide
theorem TableWord.sdesEnc : TableWord.Statement .sdesEnc := by unfold TableWord.Statement; decide
theorem TableWord.sdesDec : TableWord.Statement .sdesDec := by unfold TableWord.Statement; decide
theorem TableWord.sdesF : TableWord.Statement .sdesF := by unfold TableWord.Statement; decide
theorem TableWord.sdesEncb : TableWord.Statement .sdesEncb := by unfold TableWord.Statement; decide
theorem TableWord.sdesDecb : TableWord.Statement .sdesDecb := by unfold TableWord.Statement; decide
theorem TableWord.lsbEmbed : TableWord.Statement .lsbEmbed := by unfold TableWord.Statement; decide
theorem TableWord.lsbExtract : TableWord.Statement .lsbExtract := by unfold TableWord.Statement; decide
theorem TableWord.psnrSse : TableWord.Statement .psnrSse := by unfold TableWord.Statement; decide

end Sys2Proof.Laws
end

