-- ==== Sys2Proof/Tests/Slice0.lean ====
section
/-! SUPPORT. The model's own tests: decoding, ill-formed terms, one step of each command on the values of
spec/95_test_vectors.md, and for each statement with hypotheses a state that meets them. -/

namespace Sys2Proof.Tests

open Sys2Proof Sys2Proof.Machine

/-! ### Decoding: each word written out from the encoding column of the opcode map (R83) -/

theorem test_decode_nop : decode 0b00000000000000000000000000000000 = .ok .nop := by decide
theorem test_decode_hillCheck : decode 0b00000000000000000000000000000001 = .ok .hillCheck := by decide
theorem test_decode_hillInv : decode 0b00000000000000000000000000000010 = .ok .hillInv := by decide
theorem test_decode_hillEnc : decode 0b00000000000000000000000000000011 = .ok .hillEnc := by decide
theorem test_decode_hillDec : decode 0b00000000000000000000000000000100 = .ok .hillDec := by decide
theorem test_decode_sdesKey : decode 0b00000000000000000000000000010000 = .ok .sdesKey := by decide
theorem test_decode_sdesEnc : decode 0b00000000000000000000000000010001 = .ok .sdesEnc := by decide
theorem test_decode_sdesDec : decode 0b00000000000000000000000000010010 = .ok .sdesDec := by decide
theorem test_decode_sdesF : decode 0b00000000000000000000000000010011 = .ok .sdesF := by decide
theorem test_decode_sdesEncb : decode 0b00000000000000000000000000010100 = .ok .sdesEncb := by decide
theorem test_decode_sdesDecb : decode 0b00000000000000000000000000010101 = .ok .sdesDecb := by decide
theorem test_decode_lsbEmbed : decode 0b00000000000000000000000000100000 = .ok .lsbEmbed := by decide
theorem test_decode_lsbExtract : decode 0b00000000000000000000000000100001 = .ok .lsbExtract := by decide
theorem test_decode_psnrSse : decode 0b00000000000000000000000000100010 = .ok .psnrSse := by decide

theorem test_decode_refuses_unassigned : ([0x05, 0x06, 0x0F, 0x16, 0x1F, 0x23, 0xFF] : List Word).all
    (fun w => decide (decode w = .error .unassignedOpcode)) = true := by decide

theorem test_decode_refuses_high_bits : ([0x00000100, 0x80000011, 0x01000000] : List Word).all
    (fun w => decide (decode w = .error .reservedBits)) = true := by decide

theorem test_decodeTableWord : decodeTableWord 32 0x20 = some .lsbEmbed ∧ decodeTableWord 32 0x120 = none ∧
    decodeTableWord 8 0x15 = some .sdesDecb := by decide

/-! ### Ill-formed terms -/

theorem test_byte_access_is_ill_formed : Size.wellFormedAt .byte 0 = false := by decide
theorem test_half_access_is_ill_formed : Size.wellFormedAt .half 0 = false := by decide
theorem test_misaligned_access_is_ill_formed : Size.wellFormedAt .word 2 = false := by decide
theorem test_access_past_the_window_is_ill_formed : Size.wellFormedAt .word 0x100 = false := by decide
theorem test_last_aligned_access_is_well_formed : Size.wellFormedAt .word 0xFC = true := by decide
theorem test_block_past_memory_is_ill_formed : HostLine.wellFormed (.mem 0xFFFFFFFF [1, 2]) = false := by decide
theorem test_check_above_the_register_is_ill_formed : HostLine.wellFormed (.chk .hout 32 0 0) = false := by decide
theorem test_check_of_an_empty_field_is_ill_formed : HostLine.wellFormed (.chk .hout 3 4 0) = false := by decide
theorem test_check_of_a_wide_value_is_ill_formed : HostLine.wellFormed (.chk .hout 4 0 32) = false := by decide

/-! ### One step of each command -/

/-- The key matrix M of the vectors, [[3,2],[5,7]]. -/
def opsM : Operands := { Operands.zero with hm00 := 3, hm01 := 2, hm10 := 5, hm11 := 7 }

/-- A machine in which the command is about to complete, with these operands and memory. -/
def busy (i : Instr) (o : Operands) (mem : List Host.Cell := []) : State :=
  { State.reset with
    ops := o, phase := .busy (encode i) ⟨o, 0xA4, 0x43, true⟩, mem := mem
    res := { Results.zero with k1 := 0xA4, k2 := 0x43, kvalid := true } }

/-- The state after the next step, if there is one. -/
def next (s : State) : Option State :=
  match step s with
  | .next t => some t
  | .fault _ => none
  | .refused _ => none

theorem busy_byteAt (i : Instr) (o : Operands) (m : List Host.Cell) (a : Nat) : (busy i o m).byteAt a = Memory.read m a := rfl

/-- What registers read as after the next step. -/
def reads (s : State) (rs : List Reg) : Option (List Word) := (next s).map fun t => rs.map (readReg t)

/-- The bytes at an address after the next step. -/
def bytes (s : State) (a n : Nat) : Option (List Byte) := (next s).map fun t => (List.range n).map fun k => t.byteAt (a + k)

/-- Memory holding bytes from an address on. -/
def memAt (a : Nat) (bs : List Byte) : List Host.Cell := Memory.fill [] a bs.length (fun x => bs.getD (x - a) 0)

theorem test_nop : reads (busy .nop opsM) [.status, .hm00, .subk] = some [0x202, 3, 0x43A4] := by decide

/-- T-H1. -/
theorem test_hillCheck_M : reads (busy .hillCheck opsM) [.hdet, .hdetmod, .hdetinv, .status] =
    some [0xB, 11, 19, 0x302] := by decide
/-- T-H1, the minimum determinant. -/
theorem test_hillCheck_least : reads (busy .hillCheck { Operands.zero with hm00 := 0x80, hm01 := 0x80, hm10 := 0x80, hm11 := 0x7F })
    [.hdet, .hdetmod, .hdetinv, .status] = some [0xFFFF8080, 16, 0, 0x202] := by decide
/-- T-H2. -/
theorem test_hillInv_M : reads (busy .hillInv opsM) [.hinv, .status] = some [0x05090E03, 0x302] := by decide
/-- T-H2, negative entries. -/
theorem test_hillInv_negative :
    reads (busy .hillInv { Operands.zero with hm00 := 0xFF, hm01 := 2, hm10 := 3, hm11 := 0xFB }) [.hinv] = some [0x01030205] := by
  decide
/-- T-H3, letters HI. -/
theorem test_hillEnc_HI : reads (busy .hillEnc { opsM with hinC1 := 7, hinC2 := 8 }) [.hout, .status] = some [0xD0B, 0x302] := by
  decide
/-- T-H5, a letter above 25. -/
theorem test_hillEnc_letter : reads (busy .hillEnc { opsM with hinC2 := 31 }) [.hout, .status] = some [0, 0x286] := by decide
/-- T-H4. -/
theorem test_hillDec_LN : reads (busy .hillDec { opsM with hinC1 := 11, hinC2 := 13 }) [.hout, .hinv] = some [0x807, 0x05090E03] := by
  decide
/-- T-H5, no inverse. -/
theorem test_hillDec_matrix :
    reads (busy .hillDec { Operands.zero with hm00 := 2, hm01 := 4, hm10 := 6, hm11 := 8 }) [.hinv, .status] = some [0, 0x216] := by
  decide
/-- T-F1. -/
theorem test_sdesKey : reads (busy .sdesKey { Operands.zero with key := 0x00B, klen := 10 }) [.subk, .status] = some [0x0A62, 0x202] := by
  decide
/-- T-F1, the key length. -/
theorem test_sdesKey_length : reads (busy .sdesKey { Operands.zero with key := 0x282, klen := 9 }) [.subk, .status] =
    some [0x43A4, 0x226] := by decide
/-- T-S2, the value the rules give. -/
theorem test_sdesEnc : reads (busy .sdesEnc { Operands.zero with bin := 0xA5, blen := 8 }) [.sout] = some [0xCA] := by decide +kernel
/-- T-F6. -/
theorem test_sdesEnc_length : reads (busy .sdesEnc { Operands.zero with bin := 0xA5, blen := 15 }) [.sout, .status] =
    some [0, 0x236] := by decide
/-- T-F2. -/
theorem test_sdesDec : reads (busy .sdesDec { Operands.zero with bin := 0xCA, blen := 8 }) [.sout] = some [0xA5] := by decide +kernel
/-- T-F5. -/
theorem test_sdesF : reads (busy .sdesF { Operands.zero with fr := 3, fk := 0x43 }) [.sfout] = some [0xD] := by decide
/-- T-F7, in place. -/
theorem test_sdesEncb : bytes (busy .sdesEncb { Operands.zero with src := 0x100, dst := 0x100, len := 4 }
    (memAt 0x100 [0x4C, 0x4E, 0x00, 0xFF])) 0x100 4 = some [0xA5, 0xB2, 0xCE, 0x2A] := by decide +kernel
/-- T-F7, partial overlap. -/
theorem test_sdesEncb_overlap : reads (busy .sdesEncb { Operands.zero with src := 0x100, dst := 0x102, len := 4 }) [.status] =
    some [0x2A6] := by decide
/-- T-F7, back to the plain bytes. -/
theorem test_sdesDecb : bytes (busy .sdesDecb { Operands.zero with src := 0x100, dst := 0x200, len := 2 }
    (memAt 0x100 [0xA5, 0xB2])) 0x200 2 = some [0x4C, 0x4E] := by decide +kernel
/-- T-F7, past the address space. -/
theorem test_sdesDecb_wrap : reads (busy .sdesDecb { Operands.zero with src := 0xFFFFFFFF, dst := 0x200, len := 2 }) [.status] =
    some [0x2B6] := by decide

/-- carrier6 of the vectors. -/
def carrier6 : List Byte :=
  [0x0b, 0x30, 0x55, 0x7a, 0x9f, 0xc4, 0xe9, 0x0e, 0x33, 0x58, 0x7d, 0xa2, 0xc7, 0xec, 0x11, 0x36, 0x5b, 0x80, 0xa5,
   0xca, 0xef, 0x14, 0x39, 0x5e]

/-- The stego buffer T-L1 gives for carrier6 and the payload bits 10. -/
def stego6 : List Byte :=
  [0x0b, 0x30, 0x55, 0x7a, 0x9f, 0xc5, 0xe9, 0x0e, 0x33, 0x59, 0x7d, 0xa2, 0xc7, 0xed, 0x11, 0x36, 0x5b, 0x81, 0xa5,
   0xca, 0xef, 0x15, 0x38, 0x5e]

/-- The operands of T-L1: carrier at 0x100, payload at 0x140, stego buffer at 0x180. -/
def opsL1 : Operands := { Operands.zero with src := 0x100, dst := 0x180, npix := 6, paddr := 0x140, pbits := 2 }

/-- The memory of T-L1. -/
def memL1 : List Host.Cell := Memory.write (memAt 0x100 carrier6) 0x140 0x80

/-- T-L1. -/
theorem test_lsbEmbed : reads (busy .lsbEmbed opsL1 memL1) [.status, .cap, .used, .ptouch, .sseLo, .sseHi] =
    some [0x202, 18, 18, 6, 6, 0] := by decide
theorem test_lsbEmbed_bytes : bytes (busy .lsbEmbed opsL1 memL1) 0x180 24 = some stego6 := by decide

/-- T-L1 and T-L3: the payload bits 10 come back, packed and zero-padded. -/
theorem test_lsbExtract : reads (busy .lsbExtract { opsL1 with src := 0x180, dst := 0x200 } (memAt 0x180 stego6)) [.status, .xbits] =
    some [0x202, 2] := by decide
theorem test_lsbExtract_bytes : bytes (busy .lsbExtract { opsL1 with src := 0x180, dst := 0x200 } (memAt 0x180 stego6)) 0x200 1 =
    some [0x80] := by decide

/-- T-L1, the sum recomputed. -/
theorem test_psnrSse : reads (busy .psnrSse { Operands.zero with src := 0x100, ref := 0x180, npix := 6 }
    (memAt 0x100 (carrier6 ++ List.replicate 104 0 ++ stego6))) [.status, .sseLo, .sseHi] = some [0x202, 6, 0] := by decide +kernel
/-- Identical buffers. -/
theorem test_psnrSse_identical : reads (busy .psnrSse { Operands.zero with npix := 1 }) [.status, .sseLo] = some [0x602, 0] := by
  decide

/-! ### The host's functions -/

/-- R205: 10 digits in the accepting form, and the length passed through in the other. -/
theorem test_key_strings : keyValue "1010000010".toList = some 0x282 ∧ keyValue "101000001".toList = none ∧
    keyValue "10100000x0".toList = none ∧ passedKeyWord "1010000010".toList = 0x000A0282 ∧
    passedKeyWord "101".toList = 0x00030005 ∧ passedKeyWord (List.replicate 20 '1') = 0x000F03FF := by decide

/-- R212 and R208: a stego buffer on the carrier, the capacity check before step 3, and a buffer past the address space. -/
theorem test_placement : placementError false ⟨0x100, 11⟩ 0x80 0x12B 2 = some .carrierIsDestination ∧
    placementError false ⟨0x100, 11⟩ 0x100 0x200 0 = some .carrierIsDestination ∧
    placementError true ⟨0x100, 11⟩ 0x80 0x12C 3 = some (.command 4) ∧
    placementError false ⟨0x100, 11⟩ 0x80 0x12C 3 = none ∧
    placementError true ⟨0x100, 11⟩ 0xFFFFFFFF 0x12C 2 = some (.command 11) := by decide

/-! ### The fetch the host asks about -/

theorem test_step_runs_placed_command : (allInstrs.all fun i =>
    decide (next (State.reset.withFetchWord 32 (encode i).toNat) =
      (match exec i (State.reset.withFetchWord 32 (encode i).toNat) with
        | .next t => some t
        | .fault _ => none
        | .refused _ => none))) = true := by decide

theorem test_placed_word_keeps_pending_events :
    reads { State.reset with inputs := [.rst] } [.status] = some [0] ∧
      reads (State.withFetchWord { State.reset with inputs := [.rst] } 32 0x00) [.status] = some [2] := by decide

/-! ### States that meet the statements' hypotheses, clause by clause at the ends of their ranges -/

/-- A machine whose platform is the plain one has only ordinary footprints. -/
theorem plain_ordinary {s : State} (h : s.platform = Platform.plain) (i : Instr) : s.FootprintOrdinary i := by
  intro a _
  simp [State.memOk, h, Platform.plain]

theorem plain_memory {s : State} (h : s.platform = Platform.plain) (i : Instr) : s.FootprintIsMemory i :=
  fun a ha => (plain_ordinary h i a ha).2

/-- A platform on which the bytes of one region are not answered. -/
def deaf (a n : Nat) (s : State) : State := { s with platform := { Platform.plain with unanswered := [⟨a, n⟩] } }

theorem deaf_memory (a n : Nat) (s : State) (i : Instr) : (deaf a n s).FootprintIsMemory i := by
  intro b _
  simp [deaf, Platform.plain]

/-- The state a command leaves, the machine itself where it stops. -/
def after (i : Instr) (s : State) : State :=
  match exec i s with
  | .next t => t
  | .fault _ => s
  | .refused _ => s

/-- On the plain platform every command answers a next state. -/
theorem exec_after {s : State} (h : s.platform = Platform.plain) (i : Instr) : exec i s = .next (after i s) := by
  obtain ⟨h1, h2⟩ := exec_stops i s
  unfold after
  cases he : exec i s with
  | next t => rfl
  | fault f =>
    obtain ⟨-, a, -, ha⟩ := h2 f he
    simp [h, Platform.plain] at ha
  | refused r => exact absurd he (h1 r)

/-- The next step of a machine in which a command is about to complete runs it. -/
theorem step_busy (i : Instr) (o : Operands) (m : List Host.Cell) : step (busy i o m) = .next (after i (busy i o m)) := by
  rw [← exec_after (s := busy i o m) rfl i]
  cases i <;> rfl

/-- An LSB_EXTRACT of 6 pixels from 0x180 to 0x200. -/
def opsX : Operands := { Operands.zero with src := 0x180, dst := 0x200, npix := 6 }

/-- Six pixels whose walked stream is DELIM at the given place, 0 before it and 1 after it. -/
def memDelim (x : Nat) : List Host.Cell :=
  Memory.fill [] 0x180 24 (fun a => if (List.range 18).any (fun j => walk j + 0x180 == a && decide (x ≤ j) && j != x + 15) then 1 else 0)

theorem witness_EitherResetClearsTheDevice :
    (busy .lsbEmbed opsL1).BusyFootprintIsMemory ∧ (0x00000002 : Word).getLsbD 1 = true :=
  ⟨fun _ _ => by simp [busy, State.reset, Platform.plain], by decide⟩

theorem witness_IdleWriteStoresFieldBits : State.reset.phase = .idle ∧ storedMask .hm00 = some 0x000000FF ∧
    storedMask .pbits = some 0xFFFFFFFF := by decide

theorem witness_IdleWriteToReadOnlyIsIgnored : State.reset.phase = .idle ∧
    (∀ r, regAt 0x000 = some r → storedMask r = none ∧ r ≠ .ctrl ∧ r ≠ .status ∧ r ≠ .cmd) ∧
    (∀ r, regAt 0x090 = some r → storedMask r = none ∧ r ≠ .ctrl ∧ r ≠ .status ∧ r ≠ .cmd) ∧
    (∀ r, regAt 0x094 = some r → storedMask r = none ∧ r ≠ .ctrl ∧ r ≠ .status ∧ r ≠ .cmd) ∧
    ∀ r, regAt 0x0FC = some r → storedMask r = none ∧ r ≠ .ctrl ∧ r ≠ .status ∧ r ≠ .cmd := by
  refine ⟨rfl, ?_, ?_, ?_, ?_⟩ <;> intro r h <;> simp [regAt] at h <;> subst h <;> decide

theorem witness_BusyWriteIsDroppedWithWerr : (busy .nop opsM).phase.isBusy = true ∧
    (∀ offset ∈ [0x000, 0x00C, 0x0FC], offset % 4 = 0 ∧ offset < 0x100 ∧ offset ≠ 0x004 ∧ offset ≠ 0x008) ∧
    (0x00000001 : Word).getLsbD 1 = false ∧ (0x00000003 : Word).getLsbD 1 = true := by decide

theorem witness_NopOnlyCompletes : ∃ w p, (busy .hillCheck opsM).phase = .busy w p := ⟨_, _, rfl⟩

theorem witness_RegisterReadHasNoSideEffect : ∀ offset ∈ [0x000, 0x0FC], offset % 4 = 0 ∧ offset < 0x100 := by decide

theorem witness_NarrowAccessesAreRefused :
    next { State.reset with inputs := [.busRead .word 0xFC] } ≠ none ∧
    next { State.reset with inputs := [.busRead .word 0xFD] } = none ∧
    next { State.reset with inputs := [.busRead .byte 0xFF] } = none ∧
    next { State.reset with inputs := [.busWrite .half 0x00 1] } = none := by decide

theorem witness_CmdWriteIsAcceptedInIdle : State.reset.phase = .idle ∧ (busy .nop opsM).phase.isBusy = true := by decide

theorem witness_IllegalWordCompletesWithCodeSeven : State.reset.phase = .idle ∧
    (0x00000100 : Word).extractLsb' 8 24 ≠ 0 ∧
    ((0x00000005 : Word).extractLsb' 0 8).toNat ∉
      [0x00, 0x01, 0x02, 0x03, 0x04, 0x10, 0x11, 0x12, 0x13, 0x14, 0x15, 0x20, 0x21, 0x22] ∧
    ((0x000000FF : Word).extractLsb' 0 8).toNat ∉
      [0x00, 0x01, 0x02, 0x03, 0x04, 0x10, 0x11, 0x12, 0x13, 0x14, 0x15, 0x20, 0x21, 0x22] :=
  ⟨rfl, by decide, by decide, by decide⟩

theorem witness_StepRunsTheDecodedCommand : ∃ w p, (busy .sdesF opsM).phase = .busy w p ∧ decode w = .ok .sdesF ∧
    (busy .sdesF opsM).inputs = [] ∧ { busy .sdesF opsM with inputs := [.engine] }.inputs = .engine :: [] :=
  ⟨_, _, rfl, rfl, rfl, rfl⟩

theorem witness_RunLineAcceptsThenCompletes : State.reset.phase = .idle ∧ State.reset.inputs = [] ∧
    ∃ t, exec .hillCheck { State.reset with
      phase := .busy (encode .hillCheck) ⟨State.reset.ops, State.reset.res.k1, State.reset.res.k2, State.reset.res.kvalid⟩
      status := ⟨false, false, State.reset.status.werr, 0⟩ } = .next t :=
  ⟨rfl, rfl, _, exec_after rfl _⟩

theorem witness_DecodeReadsExactlyTheOpcodeMap : ∀ i ∈ allInstrs, i.wellFormed = true := by decide

theorem witness_HillInvWritesTheInverse : Int.gcd (busy .hillInv opsM).inFlight.ops.det 26 = 1 ∧
    Int.gcd (busy .hillInv Operands.zero).inFlight.ops.det 26 ≠ 1 := by decide

theorem witness_HillEncTransformsThePair :
    (Int.gcd (busy .hillEnc { opsM with hinC1 := 25, hinC2 := 25 }).inFlight.ops.det 26 = 1 ∧
      (busy .hillEnc { opsM with hinC1 := 25, hinC2 := 25 }).inFlight.ops.hinC1.toNat ≤ 25 ∧
      (busy .hillEnc { opsM with hinC1 := 25, hinC2 := 25 }).inFlight.ops.hinC2.toNat ≤ 25) ∧
    Int.gcd (busy .hillEnc { opsM with hm11 := 0x14, hm10 := 1, hinC1 := 26 }).inFlight.ops.det 26 ≠ 1 ∧
    (Int.gcd (busy .hillEnc { opsM with hinC1 := 26 }).inFlight.ops.det 26 = 1 ∧
      25 < (busy .hillEnc { opsM with hinC1 := 26 }).inFlight.ops.hinC1.toNat) := by decide

theorem witness_HillDecTransformsByTheInverse :
    (Int.gcd (busy .hillDec { opsM with hinC1 := 25, hinC2 := 25 }).inFlight.ops.det 26 = 1 ∧
      (busy .hillDec { opsM with hinC1 := 25, hinC2 := 25 }).inFlight.ops.hinC1.toNat ≤ 25 ∧
      (busy .hillDec { opsM with hinC1 := 25, hinC2 := 25 }).inFlight.ops.hinC2.toNat ≤ 25) ∧
    Int.gcd (busy .hillDec Operands.zero).inFlight.ops.det 26 ≠ 1 ∧
    (Int.gcd (busy .hillDec { opsM with hinC2 := 26 }).inFlight.ops.det 26 = 1 ∧
      25 < (busy .hillDec { opsM with hinC2 := 26 }).inFlight.ops.hinC2.toNat) := by decide

theorem witness_HillEncodeAndDecodeUndoEachOther :
    Int.gcd (busy .hillEnc { opsM with hinC1 := 25 }).inFlight.ops.det 26 = 1 ∧
      (busy .hillEnc { opsM with hinC1 := 25 }).inFlight.ops.hinC1.toNat ≤ 25 ∧
      (busy .hillEnc { opsM with hinC1 := 25 }).inFlight.ops.hinC2.toNat ≤ 25 ∧
      ∃ t, exec .hillEnc (busy .hillEnc { opsM with hinC1 := 25 }) = .next t ∧
        (busy .hillDec { opsM with hinC1 := t.res.o1, hinC2 := t.res.o2 }).inFlight.ops =
          { (busy .hillEnc { opsM with hinC1 := 25 }).inFlight.ops with hinC1 := t.res.o1, hinC2 := t.res.o2 } :=
  ⟨by decide, by decide, by decide, _, exec_after rfl _, rfl⟩

/-- M with 29 for 3 and -24 for 2: the same residues. -/
def opsM' : Operands := { opsM with hm00 := 29, hm01 := 0xE8 }

theorem witness_HillResultsDependOnResiduesOnly : ∀ i ∈ [Instr.hillCheck, .hillInv, .hillEnc, .hillDec],
    opsM.hm00.toInt % 26 = opsM'.hm00.toInt % 26 ∧ opsM.hm01.toInt % 26 = opsM'.hm01.toInt % 26 ∧
      (busy i opsM).inFlight.ops = opsM ∧ (busy i opsM').inFlight.ops = opsM' ∧
      (busy i opsM').res = (busy i opsM).res ∧ (busy i opsM').status = (busy i opsM).status ∧
      exec i (busy i opsM) = .next (after i (busy i opsM)) ∧ exec i (busy i opsM') = .next (after i (busy i opsM')) := by
  intro i hi
  simp only [List.mem_cons, List.not_mem_nil, or_false] at hi
  rcases hi with rfl | rfl | rfl | rfl <;>
    exact ⟨by decide, by decide, rfl, rfl, rfl, rfl, exec_after rfl _, exec_after rfl _⟩

theorem witness_SdesKeySchedulesBothSubkeys : (busy .sdesKey { Operands.zero with klen := 10 }).inFlight.ops.klen = 10 ∧
    (busy .sdesKey { Operands.zero with klen := 11 }).inFlight.ops.klen ≠ 10 := by decide

theorem witness_BlockCommandsRunTheBlockFunction :
    (busy .sdesEnc { Operands.zero with blen := 8 }).inFlight.kvalid = true ∧
      (busy .sdesEnc { Operands.zero with blen := 8 }).inFlight.ops.blen = 8 ∧
      State.reset.inFlight.kvalid = false ∧ (busy .sdesDec { Operands.zero with blen := 7 }).inFlight.ops.blen ≠ 8 ∧
      ((0x7 : BitVec 4) ++ (0x4 : BitVec 4) : Byte) = perm 8 tableIP (0xA5 : Byte) := by decide

/-- A buffer command whose buffers touch the end of the address space without wrapping. -/
def opsEnd : Operands := { Operands.zero with src := 0xFFFFFFFE, dst := 0xFFFFFFFC, len := 2 }

theorem witness_SdesEncbEncryptsTheBuffer :
    State.reset.inFlight.kvalid = false ∧
    (busy .sdesEncb { opsEnd with len := 3 }).inFlight.srcBlocks.wraps = true ∧
    ((busy .sdesEncb { opsEnd with dst := 0xFFFFFFFD }).inFlight.srcBlocks.overlaps
      (busy .sdesEncb { opsEnd with dst := 0xFFFFFFFD }).inFlight.dstBlocks = true ∧ opsEnd.src ≠ 0xFFFFFFFD) ∧
    ((busy .sdesEncb opsEnd).inFlight.kvalid = true ∧ (busy .sdesEncb opsEnd).inFlight.srcBlocks.wraps = false ∧
      (busy .sdesEncb opsEnd).inFlight.dstBlocks.wraps = false ∧
      (busy .sdesEncb opsEnd).inFlight.srcBlocks.overlaps (busy .sdesEncb opsEnd).inFlight.dstBlocks = false) ∧
    (busy .sdesEncb opsEnd).FootprintOrdinary .sdesEncb :=
  ⟨by decide, by decide, by decide, by decide, plain_ordinary rfl _⟩

theorem witness_SdesDecbDecryptsTheBuffer :
    (busy .sdesDecb { opsEnd with dst := 0xFFFFFFFF }).inFlight.dstBlocks.wraps = true ∧
    ((busy .sdesDecb opsEnd).inFlight.kvalid = true ∧ (busy .sdesDecb opsEnd).inFlight.srcBlocks.wraps = false ∧
      (busy .sdesDecb opsEnd).inFlight.dstBlocks.wraps = false ∧
      (busy .sdesDecb opsEnd).inFlight.srcBlocks.overlaps (busy .sdesDecb opsEnd).inFlight.dstBlocks = false) ∧
    (busy .sdesDecb opsEnd).FootprintOrdinary .sdesDecb :=
  ⟨by decide, by decide, plain_ordinary rfl _⟩

/-- The state after SDES_ENCB of two bytes, with SDES_DECB of its output in place about to complete. -/
def afterEncb : State :=
  busy .sdesDecb { opsEnd with src := 0xFFFFFFFC } (after .sdesEncb (busy .sdesEncb opsEnd)).mem

theorem witness_DecryptingAnEncryptedBufferRestoresIt :
    (busy .sdesEncb opsEnd).FootprintOrdinary .sdesEncb ∧ afterEncb.FootprintOrdinary .sdesDecb ∧
      exec .sdesEncb (busy .sdesEncb opsEnd) = .next (after .sdesEncb (busy .sdesEncb opsEnd)) ∧
      (after .sdesEncb (busy .sdesEncb opsEnd)).status.err = false ∧
      (∀ a, afterEncb.byteAt a = (after .sdesEncb (busy .sdesEncb opsEnd)).byteAt a) ∧
      afterEncb.inFlight.kvalid = true ∧ afterEncb.inFlight.k1 = (busy .sdesEncb opsEnd).inFlight.k1 ∧
      afterEncb.inFlight.k2 = (busy .sdesEncb opsEnd).inFlight.k2 ∧
      afterEncb.inFlight.ops.src = (busy .sdesEncb opsEnd).inFlight.ops.dst ∧
      afterEncb.inFlight.ops.len = (busy .sdesEncb opsEnd).inFlight.ops.len ∧
      afterEncb.inFlight.dstBlocks.wraps = false ∧ afterEncb.inFlight.ops.src = afterEncb.inFlight.ops.dst :=
  ⟨plain_ordinary rfl _, plain_ordinary rfl _, exec_after rfl _, by decide, fun a => busy_byteAt _ _ _ a, rfl, rfl, rfl, rfl, rfl, by decide, rfl⟩

/-- U = CAP = 18, the largest payload of six pixels. -/
theorem witness_LsbEmbedWritesTheStegoBuffer :
    (busy .lsbEmbed opsL1 memL1).inFlight.payloadBits + 16 = 3 * (busy .lsbEmbed opsL1 memL1).inFlight.pixels ∧
      (busy .lsbEmbed opsL1 memL1).inFlight.srcPixels.wraps = false ∧
      (busy .lsbEmbed opsL1 memL1).inFlight.dstPixels.wraps = false ∧
      (busy .lsbEmbed opsL1 memL1).inFlight.payload.wraps = false ∧
      (busy .lsbEmbed opsL1 memL1).inFlight.dstPixels.overlaps (busy .lsbEmbed opsL1 memL1).inFlight.srcPixels = false ∧
      (busy .lsbEmbed opsL1 memL1).inFlight.dstPixels.overlaps (busy .lsbEmbed opsL1 memL1).inFlight.payload = false ∧
      (busy .lsbEmbed opsL1 memL1).FootprintOrdinary .lsbEmbed :=
  ⟨by decide, by decide, by decide, by decide, by decide, by decide, plain_ordinary rfl _⟩

theorem witness_LsbEmbedChecksInOrder :
    3 * (busy .lsbEmbed { opsL1 with pbits := 3 }).inFlight.pixels <
      (busy .lsbEmbed { opsL1 with pbits := 3 }).inFlight.payloadBits + 16 ∧
    (busy .lsbEmbed { opsL1 with src := 0xFFFFFFE9 }).inFlight.srcPixels.wraps = true ∧
    ((busy .lsbEmbed { opsL1 with dst := 0x117 }).inFlight.dstPixels.overlaps
        (busy .lsbEmbed { opsL1 with dst := 0x117 }).inFlight.srcPixels = true ∧
      (busy .lsbEmbed { opsL1 with dst := 0x117 }).inFlight.dstPixels.wraps = false) ∧
    (busy .lsbEmbed { opsL1 with dst := 0x129 }).inFlight.dstPixels.overlaps
      (busy .lsbEmbed { opsL1 with dst := 0x129 }).inFlight.payload = true := by decide

/-- The state LSB_EMBED of T-L1 leaves. -/
def embedded : State := after .lsbEmbed (busy .lsbEmbed opsL1 memL1)

theorem exec_embedded : exec .lsbEmbed (busy .lsbEmbed opsL1 memL1) = .next embedded := exec_after rfl _

theorem witness_EmbedFlipsAtMostOneBitPerChannel : (busy .lsbEmbed opsL1 memL1).FootprintOrdinary .lsbEmbed ∧
    exec .lsbEmbed (busy .lsbEmbed opsL1 memL1) = .next embedded ∧ embedded.status.err = false :=
  ⟨plain_ordinary rfl _, exec_embedded, by decide⟩

/-- The last place a delimiter can stand in six pixels, x + 16 = 18. -/
theorem witness_LsbExtractReturnsTheBitsBeforeTheDelimiter :
    (busy .lsbExtract opsX (memDelim 2)).inFlight.srcPixels.wraps = false ∧
      (busy .lsbExtract opsX (memDelim 2)).inFlight.extractOut.wraps = false ∧
      (busy .lsbExtract opsX (memDelim 2)).inFlight.extractOut.overlaps
        (busy .lsbExtract opsX (memDelim 2)).inFlight.srcPixels = false ∧
      (busy .lsbExtract opsX (memDelim 2)).FootprintOrdinary .lsbExtract ∧
      2 + 16 ≤ 3 * (busy .lsbExtract opsX (memDelim 2)).inFlight.pixels ∧
      DelimAt ((busy .lsbExtract opsX (memDelim 2)).lsbAt 0x180) 2 ∧
      ∀ y, y < 2 → ¬ DelimAt ((busy .lsbExtract opsX (memDelim 2)).lsbAt 0x180) y :=
  ⟨by decide, by decide, by decide, plain_ordinary rfl _, by decide, by unfold DelimAt; decide,
    by unfold DelimAt; decide⟩

/-- Wrap, overlap, and no delimiter in six pixels (the first place past the last one). -/
theorem witness_LsbExtractErrors :
    (busy .lsbExtract { opsX with dst := 0xFFFFFFFF, npix := 9 }).inFlight.extractOut.wraps = true ∧
    (busy .lsbExtract { opsX with dst := 0x197 }).inFlight.extractOut.overlaps
      (busy .lsbExtract { opsX with dst := 0x197 }).inFlight.srcPixels = true ∧
    (busy .lsbExtract opsX (memDelim 3)).FootprintOrdinary .lsbExtract ∧
    ∀ x, x + 16 ≤ 3 * (busy .lsbExtract opsX (memDelim 3)).inFlight.pixels →
      ¬ DelimAt ((busy .lsbExtract opsX (memDelim 3)).lsbAt 0x180) x := by
  refine ⟨by decide, by decide, plain_ordinary rfl _, fun x hx => ?_⟩
  have hx' : x < 3 := by
    have : (busy .lsbExtract opsX (memDelim 3)).inFlight.pixels = 6 := rfl
    omega
  clear hx
  revert x
  unfold DelimAt
  decide

/-- LSB_EXTRACT of the buffer LSB_EMBED produced, about to complete. -/
def embeddedX : State := busy .lsbExtract opsX embedded.mem

/-- A payload that holds DELIM from its first bit on, in eleven pixels. -/
def opsHolds : Operands := { opsL1 with npix := 11, pbits := 16 }

def sHolds : State := busy .lsbEmbed opsHolds (Memory.write (memAt 0x140 [0xFF]) 0x141 0xFE)

theorem witness_ExtractReturnsWhatWasEmbedded :
    ((busy .lsbEmbed opsL1 memL1).FootprintOrdinary .lsbEmbed ∧
      exec .lsbEmbed (busy .lsbEmbed opsL1 memL1) = .next embedded ∧ embedded.status.err = false ∧
      (∀ a, embeddedX.byteAt a = embedded.byteAt a) ∧
      embeddedX.inFlight.ops.src = (busy .lsbEmbed opsL1 memL1).inFlight.ops.dst ∧
      embeddedX.inFlight.ops.npix = (busy .lsbEmbed opsL1 memL1).inFlight.ops.npix ∧
      embeddedX.FootprintOrdinary .lsbExtract ∧ embeddedX.inFlight.extractOut.wraps = false ∧
      embeddedX.inFlight.extractOut.overlaps embeddedX.inFlight.srcPixels = false ∧
      ∀ y, y + 16 ≤ (busy .lsbEmbed opsL1 memL1).inFlight.payloadBits →
        ¬ DelimAt ((busy .lsbEmbed opsL1 memL1).fullBit (busy .lsbEmbed opsL1 memL1).inFlight) y) ∧
    (exec .lsbEmbed sHolds = .next (after .lsbEmbed sHolds) ∧ (after .lsbEmbed sHolds).status.err = false ∧
      0 + 16 ≤ sHolds.inFlight.payloadBits ∧ DelimAt (sHolds.fullBit sHolds.inFlight) 0) := by
  refine ⟨⟨plain_ordinary rfl _, exec_embedded, by decide, fun a => busy_byteAt _ _ _ a, rfl, rfl, plain_ordinary rfl _, by decide, by decide,
    fun y hy => ?_⟩, exec_after rfl _, by decide, by decide, by unfold DelimAt; decide⟩
  have : (busy .lsbEmbed opsL1 memL1).inFlight.payloadBits = 2 := rfl
  omega

/-- Buffers that end at the end of the address space, and one past it. -/
theorem witness_PsnrSseSumsTheSquaredDifferences :
    (busy .psnrSse { Operands.zero with src := 0xFFFFFFFD, npix := 1 }).inFlight.srcPixels.wraps = true ∧
    ((busy .psnrSse { Operands.zero with src := 0xFFFFFFFC, npix := 1 }).inFlight.srcPixels.wraps = false ∧
      (busy .psnrSse { Operands.zero with src := 0xFFFFFFFC, npix := 1 }).inFlight.refPixels.wraps = false) ∧
    (busy .psnrSse { Operands.zero with src := 0xFFFFFFFC, npix := 1 }).FootprintOrdinary .psnrSse :=
  ⟨by decide, by decide, plain_ordinary rfl _⟩

theorem witness_PsnrFormulasAgree : 0 < (1 : Nat) ∧ 0 < (1 : Nat) := by decide

theorem witness_UnansweredAccessEndsInBusError :
    ((deaf 0xFFFFFFFD 1 (busy .sdesEncb opsEnd)).FootprintIsMemory .sdesEncb ∧
      (deaf 0xFFFFFFFD 1 (busy .sdesEncb opsEnd)).memOk ((busy .sdesEncb opsEnd).inFlight.dst + 1) = false) ∧
    ((deaf 0x183 1 (busy .lsbEmbed opsL1 memL1)).FootprintIsMemory .lsbEmbed ∧
      covers (footprint .lsbEmbed (busy .lsbEmbed opsL1 memL1).inFlight) 0x183 = true ∧
      (deaf 0x183 1 (busy .lsbEmbed opsL1 memL1)).memOk 0x183 = false) ∧
    ((deaf 0x116 1 (busy .psnrSse opsL1)).FootprintIsMemory .psnrSse ∧ 22 < 4 * (busy .psnrSse opsL1).inFlight.pixels ∧
      22 % 4 ≠ 3 ∧ (deaf 0x116 1 (busy .psnrSse opsL1)).memOk ((busy .psnrSse opsL1).inFlight.src + 22) = false) :=
  ⟨⟨deaf_memory _ _ _ _, by decide⟩, ⟨deaf_memory _ _ _ _, by decide, by decide⟩, deaf_memory _ _ _ _, by decide, by decide,
    by decide⟩

/-- The bit read last, j = 17, is not answered, and no delimiter ends at or before it. In the second part the first byte
written, k = 0, is not answered, and the delimiter stands at the last place, x + 16 = 18. -/
theorem witness_ExtractReadErrorBeforeTheDelimiterWins :
    ((deaf 0x196 1 (busy .lsbExtract opsX (memDelim 2))).FootprintIsMemory .lsbExtract ∧
      17 < 3 * (busy .lsbExtract opsX (memDelim 2)).inFlight.pixels ∧
      (deaf 0x196 1 (busy .lsbExtract opsX (memDelim 2))).memOk (0x180 + (4 * (17 / 3) + 17 % 3)) = false ∧
      ∀ x, x + 16 ≤ 17 → ¬ DelimAt ((deaf 0x196 1 (busy .lsbExtract opsX (memDelim 2))).lsbAt 0x180) x) ∧
    (deaf 0x200 1 (busy .lsbExtract opsX (memDelim 2))).FootprintIsMemory .lsbExtract ∧
      DelimAt ((deaf 0x200 1 (busy .lsbExtract opsX (memDelim 2))).lsbAt 0x180) 2 ∧
      (∀ y, y < 2 → ¬ DelimAt ((deaf 0x200 1 (busy .lsbExtract opsX (memDelim 2))).lsbAt 0x180) y) ∧
      0 < (2 + 7) / 8 ∧ (deaf 0x200 1 (busy .lsbExtract opsX (memDelim 2))).memOk (0x200 + 0) = false := by
  refine ⟨⟨deaf_memory _ _ _ _, by decide, by decide, fun x hx => ?_⟩, deaf_memory _ _ _ _, by unfold DelimAt; decide,
    by unfold DelimAt; decide, by decide, by decide⟩
  have hx' : x < 2 := by omega
  clear hx
  revert x
  unfold DelimAt
  decide

theorem witness_EveryCompletionKeepsOperandsAndControl : ∃ t, exec .sdesEnc (busy .sdesEnc opsM) = .next t := ⟨_, rfl⟩

theorem witness_EagerErrorsChangeOnlyStatus : ∃ t, exec .sdesEnc (busy .sdesEnc opsM) = .next t ∧ t.status.err = true ∧
    t.status.errcode ≠ 5 ∧ t.status.errcode ≠ 12 := ⟨_, rfl, rfl, by decide, by decide⟩

theorem witness_InFlightErrorsLeaveResultsAlone :
    (∃ t, exec .lsbExtract (busy .lsbExtract opsX) = .next t ∧ t.status.errcode = 5) ∧
      ∃ t, exec .psnrSse (deaf 0 1 (busy .psnrSse { Operands.zero with npix := 1 })) = .next t ∧ t.status.errcode = 12 :=
  ⟨⟨_, rfl, rfl⟩, _, rfl, rfl⟩

theorem witness_CommandsWriteOnlyTheirWriteRegions :
    exec .lsbEmbed (busy .lsbEmbed opsL1 memL1) = .next embedded ∧
      covers (writeRegions .lsbEmbed (busy .lsbEmbed opsL1 memL1).inFlight) 0x17F = false ∧
      covers (writeRegions .lsbEmbed (busy .lsbEmbed opsL1 memL1).inFlight) 0x198 = false :=
  ⟨exec_embedded, by decide, by decide⟩

/-- Two memories that differ right before the carrier. -/
theorem witness_OutcomeDependsOnlyOnTheReadRegions :
    exec .lsbEmbed (busy .lsbEmbed opsL1 memL1) = .next embedded ∧
      ∀ a, covers (readRegions .lsbEmbed (busy .lsbEmbed opsL1 memL1).inFlight) a = true →
        (busy .lsbEmbed opsL1 memL1).byteAt a = (busy .lsbEmbed opsL1 (Memory.write memL1 0xFF 1)).byteAt a := by
  refine ⟨exec_embedded, fun a ha => ?_⟩
  show Memory.read memL1 a = Memory.read (Memory.write memL1 0xFF 1) a
  rw [Memory.read_write, if_neg]
  rintro rfl
  revert ha
  decide

/-- A machine whose host has a cache that is not coherent. -/
def cached (c : List (Nat × CachedByte)) (s : State) : State :=
  { s with platform := { Platform.plain with coherent := false }, hostCache := c }

theorem witness_FootprintHazardFaults :
    covers (busy .lsbEmbed opsL1).platform.nonMemory (0x197 : Word).toNat = false ∧
      covers (busy .lsbEmbed opsL1).phase.footprint (0x197 : Word).toNat = true ∧
      covers (busy .lsbEmbed opsL1).phase.footprint (0x198 : Word).toNat = false ∧
      covers (busy .lsbEmbed opsL1).phase.writeRegions (0x197 : Word).toNat = true ∧
      covers (busy .lsbEmbed opsL1).phase.writeRegions (0x17F : Word).toNat = false ∧
      (busy .lsbEmbed opsL1).platform.coherent = true ∧ (cached [] (busy .lsbEmbed opsL1)).platform.coherent = false := by
  decide

/-- R75: a store without PLATFORM_COHERENT reaches memory only when it is written back. -/
theorem test_cached_store_waits_for_its_write_back :
    (runEvents [.hostStore 0x140 7] (cached [] State.reset) =
        .next (cached [(0x140, ⟨7, true⟩)] State.reset)) ∧
      (runEvents [.hostStore 0x140 7, .writeBack 0x140] (cached [] State.reset) =
        .next { cached [(0x140, ⟨7, false⟩)] State.reset with mem := [(0x140, 7)] }) ∧
      runEvents [.hostStore 0x140 7] State.reset = .next { State.reset with mem := [(0x140, 7)] } := ⟨rfl, rfl, rfl⟩

/-- R75: without PLATFORM_COHERENT a load gets the stale copy until it is dropped. -/
theorem test_cached_load_is_stale_until_dropped :
    (runEvents [.hostLoad 0x140, .memWrite 0x140 7, .hostLoad 0x140, .invalidate 0x140, .hostLoad 0x140]
      (cached [] State.reset)) = .next { cached [(0x140, ⟨7, false⟩)] State.reset with
        mem := [(0x140, 7)], observed := [.mem 0x140 7, .mem 0x140 0, .mem 0x140 0] } := rfl

theorem witness_FaultsHaveOnlyTheirCauses :
    step { busy .lsbEmbed opsL1 with inputs := [.memWrite 0x197 1] } = .fault .hazard ∧
      step { busy .lsbEmbed opsL1 with inputs := [.hostStore 0x197 1] } = .fault .hazard ∧
      step { cached [(0x197, ⟨1, true⟩)] (busy .lsbEmbed opsL1) with inputs := [.writeBack 0x197] } = .fault .hazard ∧
      step { busy .lsbEmbed opsL1 with platform := { Platform.plain with nonMemory := [⟨0x140, 1⟩] } } = .fault .notMemory ∧
      covers (footprint .lsbEmbed (busy .lsbEmbed opsL1).inFlight) 0x140 = true ∧
      covers (busy .lsbEmbed opsL1).phase.footprint 0x140 = true ∧ covers [(⟨0x140, 1⟩ : Region)] 0x140 = true :=
  ⟨rfl, rfl, rfl, rfl, by decide, by decide, by decide⟩

/-- R270 on an address that is no memory: the store is the hazard in BUSY, and refused in IDLE. -/
theorem test_hazard_comes_before_the_device :
    step { busy .lsbEmbed opsL1 with
        platform := { Platform.plain with nonMemory := [⟨0x197, 1⟩] }, inputs := [.memWrite 0x197 1] } = .fault .hazard ∧
      step { State.reset with
        platform := { Platform.plain with nonMemory := [⟨0x197, 1⟩] }, inputs := [.memWrite 0x197 1] } =
        .refused .platformDevice := ⟨rfl, rfl⟩

/-- Accesses at the window's two ends, on a window at 0x100, and an access to what is no memory. -/
theorem witness_OnlyOutsideAccessesAreRefused :
    step { State.reset with inputs := [.busRead .half 0x00] } = .refused .narrowAccess ∧
      step { State.reset with inputs := [.busRead .word 0xFD] } = .refused .narrowAccess ∧
      step { State.reset with platform := { Platform.plain with base := 0x100 }, inputs := [.busWrite .word 0xFD 1] } =
        .refused .narrowAccess ∧
      step { State.reset with platform := { Platform.plain with base := 0x100 }, inputs := [.busWrite .word 0xFC 1] } =
        .next { State.reset with platform := { Platform.plain with base := 0x100 } } ∧
      step { State.reset with inputs := [.busRead .byte 0x100] } = .next State.reset ∧
      step { State.reset with
        inputs := [.memRead 0x140], platform := { Platform.plain with nonMemory := [⟨0x140, 1⟩] } } =
        .refused .platformDevice := ⟨rfl, rfl, rfl, rfl, rfl, rfl⟩

/-- Each flag changes in some step that is no reset, HVALID both ways, and PSNR_INF takes both values. -/
theorem witness_ResultFlagsChangeOnlyAsTabled :
    (∃ t, step { busy .sdesKey { opsM with klen := 10 } with res := Results.zero } = .next t ∧ t.res.kvalid ≠ false) ∧
      (∃ t, step (busy .hillCheck opsM) = .next t ∧ t.res.hvalid ≠ (busy .hillCheck opsM).res.hvalid) ∧
      (∃ t, step { busy .hillCheck Operands.zero with res := { Results.zero with hvalid := true } } = .next t ∧
        t.res.hvalid = false) ∧
      (∃ t, step (busy .hillInv opsM) = .next t ∧ t.phase = .idle ∧ t.status.err = false) ∧
      (∃ t, step (busy .psnrSse opsM) = .next t ∧ t.res.psnrInf ≠ (busy .psnrSse opsM).res.psnrInf) ∧
      (∃ t, step (busy .lsbEmbed opsL1 memL1) = .next t ∧ t.phase = .idle ∧ t.status.err = false ∧ t.res.psnrInf = false) ∧
      ¬ (busy .psnrSse opsM).ResetIsNext := by
  refine ⟨⟨_, rfl, by decide⟩, ⟨_, rfl, by decide⟩, ⟨_, rfl, by decide⟩, 
    ⟨_, step_busy .hillInv opsM [], by decide, by decide⟩,
    ⟨_, rfl, by decide⟩, ⟨_, step_busy .lsbEmbed opsL1 memL1, by decide, by decide, by decide⟩, ?_⟩
  rintro (⟨_, h⟩ | ⟨_, _, _, h⟩) <;> exact nomatch h

theorem witness_WerrStaysUntilClearedOrReset :
    (∃ t, step { State.reset with status := ⟨false, false, true, 0⟩, inputs := [.busWrite .word 0x008 0x8] } = .next t ∧
      t.status.werr = false) ∧
    ∃ t, step { State.reset with status := ⟨false, false, true, 0⟩, inputs := [.rst] } = .next t ∧ t.status.werr = false :=
  ⟨⟨_, rfl, rfl⟩, _, rfl, rfl⟩

theorem witness_OnlyCtrlWritesAndResetsChangeIe :
    (∃ t, step { State.reset with inputs := [.busWrite .word 0x004 0x1] } = .next t ∧ t.ie ≠ false) ∧
      ∃ t, step { State.reset with ie := true, inputs := [.rst] } = .next t ∧ t.ie ≠ true :=
  ⟨⟨_, rfl, by decide⟩, _, rfl, by decide⟩

theorem witness_BusyFreezesOperandsResultsAndFootprint :
    (busy .lsbEmbed opsL1).phase.isBusy = true ∧
      ∃ t, step { busy .lsbEmbed opsL1 with inputs := [.memWrite 0x198 7] } = .next t ∧ t.phase ≠ .idle :=
  ⟨rfl, _, rfl, by decide⟩

theorem witness_AcceptedCommandCompletes :
    (busy .nop opsM).phase.isBusy = true ∧ (busy .nop opsM).platform.nonMemory = [] ∧
      ∀ e ∈ ([.busRead .word 0x008, .busWrite .word 0x00C 0, .engine] : List Input),
        e = .engine ∨ ∃ r, e = .busRead .word ((busy .nop opsM).platform.base + regOffset r) ∨
          (r ≠ .ctrl ∧ ∃ v, e = .busWrite .word ((busy .nop opsM).platform.base + regOffset r) v) := by
  refine ⟨rfl, rfl, fun e he => ?_⟩
  simp only [List.mem_cons, List.not_mem_nil, or_false] at he
  rcases he with rfl | rfl | rfl
  · exact .inr ⟨.status, .inl rfl⟩
  · exact .inr ⟨.cmd, .inr ⟨by decide, 0, rfl⟩⟩
  · exact .inl rfl

/-- The invariant holds of a machine with a command in BUSY, and its step goes on. -/
theorem witness_EveryStepKeepsTheInvariant : (busy .nop opsM).Inv ∧ ∃ t, step (busy .nop opsM) = .next t := by
  refine ⟨⟨by simp [busy, Memory.wf], by simp [busy, State.reset, Cache.wf], by decide, by decide, fun _ _ _ => ⟨rfl, rfl, rfl⟩, ?_, by decide, by decide, by decide,
    by decide, by decide⟩, _, rfl⟩
  intro w p h
  simp only [busy, Phase.busy.injEq] at h
  exact h.2.symm

end Sys2Proof.Tests
end

section
/-! SUPPORT. What a write through the register window stores (spec/10_state.md R24, R46 to R48), and the statements about
those writes. -/

namespace Sys2Proof.Machine

/-! ### What a stored field reads back as -/

/-- A field of a written word, put back at its place, is the word under the field's mask (R47). -/
theorem placed_extractLsb' (v : Word) (lo n : Nat) :
    placed (v.extractLsb' lo n) lo = v &&& placed (BitVec.allOnes n) lo := by
  ext k hk
  by_cases hlo : k < lo
  · simp [placed, hlo]
  · have hback : lo + (k - lo) = k := by omega
    by_cases hn : k - lo < n <;> simp [placed, hlo, hn, hback, hk, BitVec.getLsbD_eq_getElem]

/-- Two fields of a written word, each put back at its place, are the word under both masks (R47). -/
theorem placed_extractLsb'_or (v : Word) (lo n lo' n' : Nat) :
    placed (v.extractLsb' lo n) lo ||| placed (v.extractLsb' lo' n') lo' =
      v &&& (placed (BitVec.allOnes n) lo ||| placed (BitVec.allOnes n') lo') := by
  rw [placed_extractLsb', placed_extractLsb', BitVec.and_or_distrib_left]

/-- A register without a stored mask stores nothing (R46). -/
theorem Operands.stored_of_unmasked {r : Reg} (h : storedMask r = none) (o : Operands) (v : Word) : o.stored r v = o := by
  cases r <;> simp_all [storedMask, Operands.stored]

/-- A register without a stored mask does not read the operands. -/
theorem readReg_withOps_of_unmasked {r : Reg} (h : storedMask r = none) (s : State) (o : Operands) :
    readReg { s with ops := o } r = readReg s r := by
  cases r <;> simp [storedMask] at h <;> rfl

/-- A written RW register reads back the bits under its mask, reserved bits 0 (R47). -/
theorem readReg_stored_self {r : Reg} {mask : Word} (h : storedMask r = some mask) (s : State) (v : Word) :
    readReg { s with ops := s.ops.stored r v } r = v &&& mask := by
  cases r <;> cases h
  case hm00 | hm01 | hm10 | hm11 => exact placed_extractLsb' v 0 8
  case hin => exact placed_extractLsb'_or v 0 5 8 5
  case skey => exact placed_extractLsb'_or v 0 10 16 4
  case sblk => exact placed_extractLsb'_or v 0 8 8 4
  case sfin => exact placed_extractLsb'_or v 0 4 8 8
  case src | dst | ref | len | npix | paddr | pbits => exact BitVec.and_allOnes.symm

/-- A written RW register leaves what every other register reads as alone (R47). -/
theorem readReg_stored_of_ne {r r' : Reg} (hne : r' ≠ r) (s : State) (v : Word) :
    readReg { s with ops := s.ops.stored r v } r' = readReg s r' := by
  cases hr' : storedMask r' with
  | none => exact readReg_withOps_of_unmasked hr' s _
  | some mask' =>
    cases hr : storedMask r with
    | none => rw [Operands.stored_of_unmasked hr]
    | some mask =>
      -- Two different operand registers share no field, and `hne` rules out the same one.
      cases r <;> cases hr <;> cases r' <;> cases hr' <;> simp [readReg, Operands.stored] at hne ⊢

/-! ### Which writes do what -/

/-- In IDLE a write to a register other than CTRL, STATUS and CMD stores its fields (R47). -/
theorem busWrite_idle_reg {s : State} {r : Reg} (hs : s.phase = .idle) (h1 : r ≠ .ctrl) (h2 : r ≠ .status) (h3 : r ≠ .cmd)
    (v : Word) :
    busWrite s .word (s.platform.base + regOffset r) v = .next { s with ops := s.ops.stored r v } := by
  obtain ⟨h4, hlt⟩ := regOffset_aligned r
  have hctrl : regOffset r ≠ regOffset .ctrl := fun h => h1 (by simpa using congrArg regAt h)
  have hstatus : regOffset r ≠ regOffset .status := fun h => h2 (by simpa using congrArg regAt h)
  rw [busWrite_window s h4 hlt, writeOffset_plain s hctrl hstatus, regAt_regOffset]
  simp [writePlain, hs]

/-- In IDLE a write to a reserved offset is ignored (R46). -/
theorem busWrite_idle_reserved {s : State} {offset : Nat} (hs : s.phase = .idle) (h4 : offset % 4 = 0) (hlt : offset < 0x100)
    (hr : regAt offset = none) (v : Word) : busWrite s .word (s.platform.base + offset) v = .next s := by
  have hctrl : offset ≠ 0x004 := by rintro rfl; cases hr
  have hstatus : offset ≠ 0x008 := by rintro rfl; cases hr
  rw [busWrite_window s h4 hlt, writeOffset_plain s hctrl hstatus, hr]
  simp [writePlain, hs]

/-- In BUSY a write to any offset but CTRL and STATUS is dropped and sets WERR (R48). -/
theorem busWrite_busy_dropped {s : State} {w : Word} {p : Snapshot} {offset : Nat} (hs : s.phase = .busy w p)
    (h4 : offset % 4 = 0) (hlt : offset < 0x100) (hctrl : offset ≠ 0x004) (hstatus : offset ≠ 0x008) (v : Word) :
    busWrite s .word (s.platform.base + offset) v = .next { s with status := s.status.dropped } := by
  rw [busWrite_window s h4 hlt, writeOffset_plain s hctrl hstatus, writePlain_busy hs]

/-- A CTRL write with SRST = 0 sets IE, in any phase (R23, R48). -/
theorem busWrite_ctrl_ie (s : State) {v : Word} (hv : v.getLsbD 1 = false) :
    busWrite s .word (s.platform.base + 0x004) v = .next { s with ie := v.getLsbD 0 } := by
  rw [busWrite_window s (by decide) (by decide), writeOffset_ctrl, writeCtrl,
    if_neg (by rw [hv]; exact Bool.false_ne_true)]

/-- A CTRL write with SRST = 1 is the reset step, in any phase (R23, R48, R261). -/
theorem busWrite_ctrl_reset (s : State) {v : Word} (hv : v.getLsbD 1 = true) :
    busWrite s .word (s.platform.base + 0x004) v = s.resetStep := by
  rw [busWrite_window s (by decide) (by decide), writeOffset_ctrl, writeCtrl, if_pos hv]

/-- A STATUS write applies its W1C bits, in any phase (R24, R48). -/
theorem busWrite_status (s : State) (v : Word) :
    busWrite s .word (s.platform.base + 0x008) v = .next { s with status := s.status.w1c v } := by
  rw [busWrite_window s (by decide) (by decide), writeOffset_status]

end Sys2Proof.Machine

namespace Sys2Proof.Proofs

open Sys2Proof.Machine

/-- Settles O3: the stored fields read back under the mask, and no other register reads them. -/
theorem idleWriteStoresFieldBits : Obligations.IdleWriteStoresFieldBits := by
  intro s r mask v hmask hs
  have hctrl : r ≠ .ctrl := by rintro rfl; cases hmask
  have hstatus : r ≠ .status := by rintro rfl; cases hmask
  have hcmd : r ≠ .cmd := by rintro rfl; cases hmask
  exact ⟨_, busWrite_idle_reg hs hctrl hstatus hcmd v, readReg_stored_self hmask s v,
    fun r' hne => readReg_stored_of_ne hne s v, rfl⟩

/-- Settles O4: a reserved offset has no register, and a read-only register stores nothing. -/
theorem idleWriteToReadOnlyIsIgnored : Obligations.IdleWriteToReadOnlyIsIgnored := by
  intro s offset v hs h4 hlt hro
  cases hr : regAt offset with
  | none => exact ⟨busWrite_idle_reserved hs h4 hlt hr v, fun _ => by simp [readOffset, hr]⟩
  | some r =>
    obtain ⟨hmask, hctrl, hstatus, hcmd⟩ := hro r hr
    obtain rfl := regAt_ctrl_or_status hr
    rw [busWrite_idle_reg hs hctrl hstatus hcmd, Operands.stored_of_unmasked hmask]
    exact ⟨rfl, fun h => nomatch h⟩

/-- Settles O5: one clause for each kind of offset, and CTRL's split by SRST. -/
theorem busyWriteIsDroppedWithWerr : Obligations.BusyWriteIsDroppedWithWerr :=
  ⟨fun _ _ _ _ v hs h4 hlt hctrl hstatus => busWrite_busy_dropped hs h4 hlt hctrl hstatus v,
    fun s _ hv => busWrite_ctrl_ie s hv, fun s _ hv => busWrite_ctrl_reset s hv, busWrite_status⟩

/-- Settles O6: the W1C rule of the STATUS write, bit by bit. -/
theorem statusWriteClearsEachBitAlone : Obligations.StatusWriteClearsEachBitAlone :=
  fun s v => ⟨_, busWrite_status s v, rfl, rfl, rfl, rfl, rfl⟩

end Sys2Proof.Proofs
end

section
/-! SUPPORT. What a step that is no reset can do to the results and to a command in BUSY (spec/10_state.md R48, R49, R51;
spec/70_reset_and_hazards.md R273), and the statements about both. -/

namespace Sys2Proof.Machine

/-! ### What an event leaves alone -/

/-- What an event that neither moves the engine nor resets the device leaves alone: the results always and, in BUSY, the
command, the operand registers and the footprint's bytes (R48, R49, R273). -/
structure KeepsCommand (s t : State) : Prop where
  res : t.res = s.res
  phase : s.phase ≠ .idle → t.phase = s.phase
  ops : s.phase ≠ .idle → t.ops = s.ops
  footprint : ∀ a, covers s.phase.footprint a = true → t.byteAt a = s.byteAt a

/-- A state with the same results, phase, operands and memory. -/
theorem KeepsCommand.of_eq {s t : State} (hres : t.res = s.res) (hphase : t.phase = s.phase) (hops : t.ops = s.ops)
    (hmem : t.mem = s.mem) : KeepsCommand s t :=
  ⟨hres, fun _ => hphase, fun _ => hops, fun a _ => by rw [State.byteAt, State.byteAt, hmem]⟩

/-- A store outside the footprint leaves the footprint's bytes alone (R270). -/
theorem KeepsCommand.store {s t : State} {a : Nat} {v : Byte} (ha : covers s.phase.footprint a = false)
    (hres : t.res = s.res) (hphase : t.phase = s.phase) (hops : t.ops = s.ops) (hmem : t.mem = Memory.write s.mem a v) :
    KeepsCommand s t := by
  refine ⟨hres, fun _ => hphase, fun _ => hops, fun b hb => ?_⟩
  have hne : b ≠ a := by rintro rfl; simp [ha] at hb
  rw [State.byteAt, hmem, Memory.read_write, if_neg hne, State.byteAt]

/-- A write other than to CTRL and STATUS: dropped in BUSY, and an acceptance or an operand write in IDLE (R47, R48). -/
theorem KeepsCommand.plain (s : State) (r : Option Reg) (v : Word) : KeepsCommand s (writePlain s r v) := by
  rcases writePlain_cases s r v with ⟨_, hw⟩ | ⟨hs, hw | ⟨o, hw⟩⟩ <;> rw [hw]
  · exact .of_eq rfl rfl rfl rfl
  · exact ⟨rfl, fun h => absurd hs h, fun h => absurd hs h, fun _ _ => rfl⟩
  · exact ⟨rfl, fun h => absurd hs h, fun h => absurd hs h, fun _ _ => rfl⟩

/-- Everything one event can do, seen from the command: the engine moves, the device is reset, or the command is kept. -/
theorem EventDoes.keepsCommand {s t : State} {e : Input} (h : EventDoes s e t) :
    engineTurn s = .next t ∨
      ((e = .rst ∨ ∃ v, v.getLsbD 1 = true ∧ e = .busWrite .word (s.platform.base + 0x004) v) ∧ t = s.resetDevice) ∨
      KeepsCommand s t := by
  cases h with
  | engine h => exact .inl h
  | rst => exact .inr (.inl ⟨.inl rfl, rfl⟩)
  | softReset hv => exact .inr (.inl ⟨.inr ⟨_, hv, rfl⟩, rfl⟩)
  | plain v h1 h2 => exact .inr (.inr (.plain s _ v))
  | store e a v ha hm => exact .inr (.inr (.store ha rfl rfl rfl rfl))
  | writeBack a v ha hc => exact .inr (.inr (.store ha rfl rfl rfl rfl))
  | elsewhere | ctrl | status | read | cachedRead | cachedStore | dropped =>
    exact .inr (.inr (.of_eq rfl rfl rfl rfl))

/-- Everything one step can do, seen from the command: the engine moves, the device is reset, or the command is kept. -/
theorem step_keepsCommand {s t : State} (h : step s = .next t) :
    (∃ es, engineTurn { s with inputs := es } = .next t) ∨ (s.ResetIsNext ∧ t.phase = .idle) ∨ KeepsCommand s t := by
  rcases step_does h with ⟨_, he⟩ | ⟨e, rest, hi, he⟩
  · exact .inl ⟨s.inputs, he⟩
  · rcases he.keepsCommand with he | ⟨hreset, rfl⟩ | ⟨hres, hphase, hops, hbytes⟩
    · exact .inl ⟨rest, he⟩
    · refine .inr (.inl ⟨?_, rfl⟩)
      rcases hreset with rfl | ⟨v, hv, rfl⟩
      · exact .inl ⟨rest, hi⟩
      · exact .inr ⟨v, rest, hv, hi⟩
    · exact .inr (.inr ⟨hres, hphase, hops, hbytes⟩)

/-- A command's completion leaves the engine in IDLE (R235). -/
theorem exec_phase {i : Instr} {s t : State} (h : exec i s = .next t) : t.phase = .idle := by
  rcases exec_ends h with ⟨c, _, _, rfl⟩ | ⟨d, c, _, rfl⟩ | ⟨d, r, m, rfl, _⟩ <;> rfl

/-- The engine's move ends in IDLE (R235, R238, R249). -/
theorem engineTurn_phase {s t : State} (h : engineTurn s = .next t) : t.phase = .idle := by
  rcases engineTurn_cases h with ⟨hs, rfl⟩ | ⟨w, p, i, _, _, he⟩ | ⟨w, p, e, _, _, rfl⟩
  · exact hs
  · exact exec_phase he
  · rfl

/-! ### The result flags -/

/-- The Hill scan finds an inverse exactly for a determinant prime to 26 (R100). -/
theorem hillScan_ne_zero_iff (d : Int) : hillScan (mod26 d) ≠ 0 ↔ Int.gcd d 26 = 1 := by
  obtain ⟨_, hinv, hleast⟩ := hillScan_spec (mod26_lt d)
  have hgcd : Int.gcd d 26 = Nat.gcd (mod26 d) 26 := by
    rw [← Int.gcd_emod d 26, ← mod26_cast]; rfl
  rw [hgcd]
  constructor
  · intro h
    exact Nat.coprime_of_mul_modEq_one _ (hinv h)
  · intro h
    obtain ⟨x, hx26, hx⟩ := Nat.exists_mul_mod_eq_one_of_coprime h (by decide)
    have hpos : 1 ≤ x := Nat.one_le_iff_ne_zero.2 (by rintro rfl; simp at hx)
    exact (hleast x hpos (by omega) hx).1

/-- HILL_CHECK's verdict: the matrix is valid exactly when its determinant is prime to 26 (R100, R107). -/
theorem hillValidate_valid_iff (p : Snapshot) : (hillValidate p).valid = true ↔ Int.gcd p.ops.det 26 = 1 :=
  bne_iff_ne.trans (hillScan_ne_zero_iff p.ops.det)

/-- The commands that report on the key matrix (R103 to R106). -/
def hillCommands : List Instr := [.hillCheck, .hillInv, .hillEnc, .hillDec]

/-- The commands that report a sum of squared differences (R170, R172). -/
def sseCommands : List Instr := [.lsbEmbed, .psnrSse]

/-- No command reports both the matrix and a sum. -/
theorem not_mem_sseCommands_of_hill : ∀ i ∈ hillCommands, i ∉ sseCommands := by decide

/-- What R51's table gives for a successful command with the snapshot `p`, from the results `r` to the results `r'`. -/
structure FlagsTabled (i : Instr) (p : Snapshot) (r r' : Results) : Prop where
  keyScheduled : i = .sdesKey → p.ops.klen = 10 ∧ r'.kvalid = true
  kvalidKept : i ≠ .sdesKey → r'.kvalid = r.kvalid
  matrixReported : i ∈ hillCommands → (r'.hvalid = true ↔ Int.gcd p.ops.det 26 = 1)
  matrixValid : i ∈ hillCommands → i ≠ .hillCheck → r'.hvalid = true
  hvalidKept : i ∉ hillCommands → r'.hvalid = r.hvalid
  sseReported : i ∈ sseCommands → (r'.psnrInf = true ↔ r'.sse = 0)
  psnrInfKept : i ∉ sseCommands → r'.psnrInf = r.psnrInf

/-- No success clears KVALID. -/
theorem FlagsTabled.kvalid_of_kvalid {i : Instr} {p : Snapshot} {r r' : Results} (h : FlagsTabled i p r r')
    (hk : r.kvalid = true) : r'.kvalid = true := by
  by_cases hi : i = .sdesKey
  · exact (h.keyScheduled hi).2
  · exact (h.kvalidKept hi).trans hk

/-- Only HILL_CHECK of an invalid matrix clears HVALID. -/
theorem FlagsTabled.hillCheck_of_cleared {i : Instr} {p : Snapshot} {r r' : Results} (h : FlagsTabled i p r r')
    (h1 : r.hvalid = true) (h2 : r'.hvalid = false) : i = .hillCheck ∧ Int.gcd p.ops.det 26 ≠ 1 := by
  have hchanged : r'.hvalid ≠ r.hvalid := by simp [h1, h2]
  have hhill : i ∈ hillCommands := not_not.1 fun hi => hchanged (h.hvalidKept hi)
  refine ⟨not_not.1 fun hne => ?_, fun hgcd => ?_⟩
  · simp [h.matrixValid hhill hne] at h2
  · simp [(h.matrixReported hhill).2 hgcd] at h2

/-- A command outside the table leaves the three flags alone. -/
theorem FlagsTabled.untabled {i : Instr} {p : Snapshot} {r r' : Results} (hi : i ∉ .sdesKey :: (hillCommands ++ sseCommands))
    (hk : r'.kvalid = r.kvalid) (hh : r'.hvalid = r.hvalid) (hp : r'.psnrInf = r.psnrInf) : FlagsTabled i p r r' := by
  simp only [List.mem_cons, List.mem_append, not_or] at hi
  obtain ⟨hkey, hhill, hsse⟩ := hi
  exact ⟨fun h => absurd h hkey, fun _ => hk, fun h => absurd h hhill, fun h => absurd h hhill, fun _ => hh,
    fun h => absurd h hsse, fun _ => hp⟩

/-- A successful Hill command reports the matrix in HVALID, and all but HILL_CHECK need it valid. -/
theorem FlagsTabled.hill {i : Instr} {p : Snapshot} {r r' : Results} (hi : i ∈ hillCommands)
    (hvalid : i ≠ .hillCheck → (hillValidate p).valid = true) (hk : r'.kvalid = r.kvalid)
    (hh : r'.hvalid = (hillValidate p).valid) (hp : r'.psnrInf = r.psnrInf) : FlagsTabled i p r r' where
  keyScheduled h := absurd (h ▸ hi) (by decide)
  kvalidKept _ := hk
  matrixReported _ := by rw [hh]; exact hillValidate_valid_iff p
  matrixValid _ h := hh.trans (hvalid h)
  hvalidKept h := absurd hi h
  sseReported h := absurd h (not_mem_sseCommands_of_hill i hi)
  psnrInfKept _ := hp

/-- A successful SDES_KEY sets KVALID. -/
theorem FlagsTabled.key {p : Snapshot} {r r' : Results} (hlen : p.ops.klen = 10) (hk : r'.kvalid = true)
    (hh : r'.hvalid = r.hvalid) (hp : r'.psnrInf = r.psnrInf) : FlagsTabled .sdesKey p r r' where
  keyScheduled _ := ⟨hlen, hk⟩
  kvalidKept h := absurd rfl h
  matrixReported h := absurd h (by decide)
  matrixValid h := absurd h (by decide)
  hvalidKept _ := hh
  sseReported h := absurd h (by decide)
  psnrInfKept _ := hp

/-- PSNR_INF is set exactly when the SSE register holds 0 (R24, R44). -/
theorem withSse_psnrInf_iff (r : Results) {e : Nat} (he : e < 2 ^ 64) :
    (r.withSse e).psnrInf = true ↔ (r.withSse e).sse = 0 := by
  rw [withSse_sse r he]
  simp [Results.withSse]

/-- A sum over the pixels of a snapshot fits the 64-bit SSE register (R44, R163). -/
theorem sse_lt (f g : Nat → Byte) (p : Snapshot) : sse f g p.pixels < 2 ^ 64 := by
  have hsum := sse_le f g p.pixels
  have hn : p.pixels < 2 ^ 32 := p.ops.npix.isLt
  omega

/-- A successful LSB_EMBED or PSNR_SSE reports the SSE in PSNR_INF. -/
theorem FlagsTabled.sse {i : Instr} {p : Snapshot} {r r' : Results} {e : Nat} (hi : i ∈ sseCommands) (he : e < 2 ^ 64)
    (hk : r'.kvalid = r.kvalid) (hh : r'.hvalid = r.hvalid) : FlagsTabled i p r (r'.withSse e) where
  keyScheduled h := absurd (h ▸ hi) (by decide)
  kvalidKept _ := hk
  matrixReported h := absurd hi (not_mem_sseCommands_of_hill i h)
  matrixValid h := absurd hi (not_mem_sseCommands_of_hill i h)
  hvalidKept _ := hh
  sseReported _ := withSse_psnrInf_iff r' he
  psnrInfKept h := absurd hi h

/-- How a command's end leaves the flags: an error leaves the results alone, a success follows the table (R51, R236,
R237). -/
def SettlesFlags (i : Instr) (s t : State) : Prop :=
  (t.status.err = true ∧ t.res = s.res) ∨ (t.status.err = false ∧ FlagsTabled i s.inFlight s.res t.res)

/-- A check that a command makes: it fails with an error code, or the command goes on (R233). -/
theorem SettlesFlags.check {i : Instr} {s t : State} {b : Prop} [Decidable b] {c : ErrCode}
    {rest : Host.Outcome State Fault Refusal} (h : (if b then .next (s.fail c) else rest) = .next t)
    (hrest : ¬ b → rest = .next t → SettlesFlags i s t) : SettlesFlags i s t := by
  split at h
  · cases h; exact .inl ⟨rfl, rfl⟩
  · exact hrest ‹_› h

/-- A commit whose results follow the table. A free value may have been drawn before it. -/
theorem SettlesFlags.commit {i : Instr} {s : State} {d : Nat} {r : Results} {m : List Host.Cell}
    (hr : FlagsTabled i s.inFlight s.res r) : SettlesFlags i s (State.commit { s with draws := d } r m) := .inr ⟨rfl, hr⟩

/-- The end of a command that accesses no memory. -/
theorem SettlesFlags.of_commit {i : Instr} {s t : State} {r : Results} {m : List Host.Cell}
    (h : (.next (s.commit r m) : Host.Outcome State Fault Refusal) = .next t) (hr : FlagsTabled i s.inFlight s.res r) :
    SettlesFlags i s t := by
  cases h
  exact .commit (d := s.draws) hr

/-- The memory phase settles the flags as the command's own end does. -/
theorem SettlesFlags.of_memoryPhase {i j : Instr} {s t : State} {accessed : List Nat} {finish : State → State}
    (h : s.memoryPhase j accessed finish = .next t) (hf : ∀ d, SettlesFlags i s (finish { s with draws := d })) :
    SettlesFlags i s t := by
  rcases memoryPhase_cases s j accessed finish with ⟨hc, _⟩ | ⟨_, d, _, hc | ⟨_, hc⟩⟩ <;> rw [hc] at h <;> cases h
  · exact .inl ⟨rfl, rfl⟩
  · exact hf d

/-- The one-block commands leave the flags alone (R126, R127). -/
theorem SettlesFlags.of_blockCommand {i : Instr} {s t : State} {ka kb : Byte}
    (hi : i ∉ .sdesKey :: (hillCommands ++ sseCommands)) (h : blockCommand s ka kb = .next t) : SettlesFlags i s t :=
  .check h fun _ h => .check h fun _ h => .of_commit h (.untabled hi rfl rfl rfl)

/-- The buffer commands leave the flags alone (R129, R130). -/
theorem SettlesFlags.of_bufferCommand {i j : Instr} {s t : State} {f : Byte → Byte}
    (hi : i ∉ .sdesKey :: (hillCommands ++ sseCommands)) (h : bufferCommand j s f = .next t) : SettlesFlags i s t :=
  .check h fun _ h => .check h fun _ h => .check h fun _ h =>
    .of_memoryPhase h fun _ => .commit (.untabled hi rfl rfl rfl)

/-- The end of LSB_EXTRACT leaves the flags alone, with or without a delimiter found (R171). -/
theorem SettlesFlags.extractFinish (s : State) (d : Nat) (p : Snapshot) :
    SettlesFlags .lsbExtract s (extractFinish { s with draws := d } p) := by
  unfold Machine.extractFinish
  split
  · exact .commit (.untabled (by decide) rfl rfl rfl)
  · exact .inl ⟨rfl, rfl⟩

/-- Every command's end settles the flags (R51): its checks, then a commit that follows the table. -/
theorem exec_settlesFlags {i : Instr} {s t : State} (h : exec i s = .next t) : SettlesFlags i s t := by
  cases i with
  | nop => exact .of_commit h (.untabled (by decide) rfl rfl rfl)
  | hillCheck => exact .of_commit h (.hill (by decide) (fun hne => absurd rfl hne) rfl rfl rfl)
  | hillInv =>
    exact .check h fun hv h => .of_commit h (.hill (by decide) (fun _ => by simpa using hv) rfl rfl rfl)
  | hillEnc =>
    exact .check h fun hv h => .check h fun _ h =>
      .of_commit h (.hill (by decide) (fun _ => by simpa using hv) rfl rfl rfl)
  | hillDec =>
    exact .check h fun hv h => .check h fun _ h =>
      .of_commit h (.hill (by decide) (fun _ => by simpa using hv) rfl rfl rfl)
  | sdesKey => exact .check h fun hlen h => .of_commit h (.key (not_not.1 hlen) rfl rfl rfl)
  | sdesEnc => exact .of_blockCommand (by decide) h
  | sdesDec => exact .of_blockCommand (by decide) h
  | sdesF => exact .of_commit h (.untabled (by decide) rfl rfl rfl)
  | sdesEncb => exact .of_bufferCommand (by decide) h
  | sdesDecb => exact .of_bufferCommand (by decide) h
  | lsbEmbed =>
    exact .check h fun _ h => .check h fun _ h => .check h fun _ h =>
      .of_memoryPhase h fun _ => .commit (.sse (by decide) (sse_lt ..) rfl rfl)
  | lsbExtract =>
    exact .check h fun _ h => .check h fun _ h => .of_memoryPhase h fun d => .extractFinish s d _
  | psnrSse =>
    exact .check h fun _ h => .of_memoryPhase h fun _ => .commit (.sse (by decide) (sse_lt ..) rfl rfl)

/-- Everything one step that is no reset can do to the flags: nothing, so that a command that ends here ends in an error,
or what the table gives for the command that succeeds (R51). -/
theorem step_flags {s t : State} (h : step s = .next t) (hr : ¬ s.ResetIsNext) :
    (t.res = s.res ∧ (s.phase ≠ .idle → t.phase = .idle → t.status.err = true)) ∨
      ∃ w p i, s.phase = .busy w p ∧ decode w = .ok i ∧ t.status.err = false ∧ FlagsTabled i p s.res t.res := by
  rcases step_keepsCommand h with ⟨es, he⟩ | ⟨hreset, _⟩ | hkeep
  · rcases engineTurn_cases he with ⟨hs, rfl⟩ | ⟨w, p, i, hs, hd, hexec⟩ | ⟨w, p, e, _, _, rfl⟩
    · exact .inl ⟨rfl, fun hbusy => absurd hs hbusy⟩
    · rcases exec_settlesFlags hexec with ⟨herr, hres⟩ | ⟨herr, htab⟩
      · exact .inl ⟨hres, fun _ _ => herr⟩
      · rw [State.inFlight_of_busy hs] at htab
        exact .inr ⟨w, p, i, hs, hd, herr, htab⟩
    · exact .inl ⟨rfl, fun _ _ => rfl⟩
  · exact absurd hreset hr
  · exact .inl ⟨hkeep.res, fun hbusy hidle => absurd ((hkeep.phase hbusy).symm.trans hidle) hbusy⟩

end Sys2Proof.Machine

namespace Sys2Proof.Proofs

open Sys2Proof.Machine

/-- Settles O57: a step that does not end in IDLE is neither the engine's move nor a reset, so it keeps the command. -/
theorem busyFreezesOperandsResultsAndFootprint : Obligations.BusyFreezesOperandsResultsAndFootprint := by
  intro s t w p hs h ht
  have hbusy : s.phase ≠ .idle := by simp [hs]
  rcases step_keepsCommand h with ⟨es, he⟩ | ⟨_, hidle⟩ | hkeep
  · exact absurd (engineTurn_phase he) ht
  · exact absurd hidle ht
  · exact ⟨(hkeep.phase hbusy).trans hs, hkeep.ops hbusy, hkeep.res, hkeep.footprint⟩

/-- Settles O54: a step leaves the results alone, or a command succeeds and its row of the table gives each flag. -/
theorem resultFlagsChangeOnlyAsTabled : Obligations.ResultFlagsChangeOnlyAsTabled := by
  intro s t h hr
  rcases step_flags h hr with ⟨hres, herr⟩ | ⟨w, p, i, hs, hd, herr, htab⟩
  · rw [hres]
    refine ⟨id, fun hne => absurd rfl hne, fun hne => absurd rfl hne, fun h1 h2 => absurd h1 (by simp [h2]),
      fun hne => absurd rfl hne, fun w p i hs _ hidle hok => ?_⟩
    exact absurd (herr (by simp [hs]) hidle) (by simp [hok])
  · refine ⟨htab.kvalid_of_kvalid, fun hne => ?_, fun hne => ?_, fun h1 h2 => ?_, fun hne => ?_, ?_⟩
    · obtain rfl : i = .sdesKey := not_not.1 fun hi => hne (htab.kvalidKept hi)
      exact ⟨w, p, hs, hd, (htab.keyScheduled rfl).1, herr⟩
    · exact ⟨w, p, i, hs, hd, not_not.1 fun hi => hne (htab.hvalidKept hi), herr⟩
    · obtain ⟨rfl, hgcd⟩ := htab.hillCheck_of_cleared h1 h2
      exact ⟨w, p, hs, hd, hgcd⟩
    · exact ⟨w, p, i, hs, hd, not_not.1 fun hi => hne (htab.psnrInfKept hi), herr⟩
    · intro w' p' i' hs' hd' _ _
      obtain ⟨rfl, rfl⟩ : w = w' ∧ p = p' := by simpa [hs] using hs'
      obtain rfl : i = i' := by simpa [hd] using hd'
      refine ⟨fun hi => (htab.keyScheduled hi).2, htab.matrixReported, fun hi => ?_, htab.sseReported⟩
      exact htab.matrixValid (List.mem_cons_of_mem _ hi) (by rintro rfl; simp at hi)

end Sys2Proof.Proofs
end

section
/-! SUPPORT. What the register window answers: which accesses it refuses (spec/20_memory.md R62, R69, R77), what each
register reads as (spec/10_state.md section 2), and the statements about both. -/

namespace Sys2Proof.Machine

/-! ### Where an access falls -/

theorem sizeBytes_pos (size : Size) : 0 < sizeBytes size := by
  cases size <;> decide

/-- An access falls elsewhere exactly when it touches no byte of the window (R77, I8). -/
theorem target_eq_elsewhere_iff (s : State) (size : Size) (addr : Nat) :
    s.target size addr = .elsewhere ↔ addr + sizeBytes size ≤ s.platform.base ∨ s.platform.base + 0x100 ≤ addr := by
  unfold State.target
  split
  next h => simp [h]
  next h => split <;> simp only [h, reduceCtorEq]

/-- An access is outside the interface exactly when it touches the window without being an aligned 32-bit access inside it
(R46, R62, I7). -/
theorem target_eq_outside_iff (s : State) (size : Size) (addr : Nat) :
    s.target size addr = .outside ↔ s.platform.base < addr + sizeBytes size ∧ addr < s.platform.base + 0x100 ∧
      ¬ (size = .word ∧ s.platform.base ≤ addr ∧ (addr - s.platform.base) % 4 = 0) := by
  constructor
  · intro h
    have htouch : ¬ (addr + sizeBytes size ≤ s.platform.base ∨ s.platform.base + 0x100 ≤ addr) := by
      rw [← target_eq_elsewhere_iff, h]
      nofun
    exact ⟨by omega, by omega, target_eq_outside h⟩
  · rintro ⟨hlo, hhi, hnarrow⟩
    cases h : s.target size addr with
    | elsewhere =>
      have := (target_eq_elsewhere_iff s size addr).1 h
      omega
    | window offset =>
      obtain ⟨rfl, rfl, h4, _⟩ := target_eq_window h
      exact absurd ⟨rfl, by omega, by simpa using h4⟩ hnarrow
    | outside => rfl

/-! ### Which events are refused -/

theorem resetStep_ne_refused (s : State) (r : Refusal) : s.resetStep ≠ .refused r := by
  rcases resetStep_cases s with ⟨h, _⟩ | ⟨_, h⟩ <;> rw [h] <;> nofun

/-- No write that falls in the window is refused. -/
theorem writeOffset_ne_refused (s : State) (offset : Nat) (v : Word) (r : Refusal) : writeOffset s offset v ≠ .refused r := by
  unfold writeOffset
  split
  · unfold writeCtrl
    split
    · exact resetStep_ne_refused s r
    · nofun
  · nofun
  · nofun

/-- A host read is refused exactly when it falls outside the interface (R62, I7). -/
theorem busRead_eq_refused_iff (s : State) (size : Size) (addr : Nat) (r : Refusal) :
    busRead s size addr = .refused r ↔ r = .narrowAccess ∧ s.target size addr = .outside := by
  unfold busRead
  cases s.target size addr <;> simp [eq_comm]

/-- A host write is refused exactly when it falls outside the interface (R62, I7). -/
theorem busWrite_eq_refused_iff (s : State) (size : Size) (addr : Nat) (v : Word) (r : Refusal) :
    busWrite s size addr v = .refused r ↔ r = .narrowAccess ∧ s.target size addr = .outside := by
  unfold busWrite
  cases s.target size addr with
  | elsewhere => simp
  | window offset => simp [writeOffset_ne_refused]
  | outside => simp [eq_comm]

/-- A host access that touches no byte of the window changes nothing (R77, I8). -/
theorem busRead_elsewhere {s : State} {size : Size} {addr : Nat} (h : s.target size addr = .elsewhere) :
    busRead s size addr = .next s := by
  simp [busRead, h]

theorem busWrite_elsewhere {s : State} {size : Size} {addr : Nat} (h : s.target size addr = .elsewhere) (v : Word) :
    busWrite s size addr v = .next s := by
  simp [busWrite, h]

/-- A store that reaches memory is refused exactly on no memory outside the footprint in BUSY (R69, R270). -/
theorem hostMemWrite_eq_refused_iff (s : State) (a : Word) (v : Byte) (r : Refusal) :
    hostMemWrite s a v = .refused r ↔ r = .platformDevice ∧ covers s.phase.footprint a.toNat = false ∧
      covers s.platform.nonMemory a.toNat = true := by
  rcases hostMemWrite_cases s a v with ⟨hf, h⟩ | ⟨hf, hm, h⟩ | ⟨_, hm, h⟩
  · simp [h, hf]
  · simp [h, hf, hm, eq_comm]
  · simp [h, hm]

/-- A host store is refused exactly on no memory outside the footprint in BUSY, on a coherent platform and on any other. -/
theorem hostStore_eq_refused_iff (s : State) (a : Word) (v : Byte) (r : Refusal) :
    hostStore s a v = .refused r ↔ r = .platformDevice ∧ covers s.phase.footprint a.toNat = false ∧
      covers s.platform.nonMemory a.toNat = true := by
  rcases hostStore_cases s a v with ⟨hf, h⟩ | ⟨hf, hm, h⟩ | ⟨_, hm, ⟨_, h⟩ | ⟨_, h⟩⟩
  · simp [h, hf]
  · simp [h, hf, hm, eq_comm]
  · simp [h, hm]
  · simp [h, hm]

/-- A read of a byte is refused exactly on no memory outside the write regions in BUSY (R69, R270). -/
theorem readByte_eq_refused_iff (s : State) (a : Word) (held : Byte) (got : State → Byte → State) (r : Refusal) :
    s.readByte a held got = .refused r ↔ r = .platformDevice ∧ covers s.phase.writeRegions a.toNat = false ∧
      covers s.platform.nonMemory a.toNat = true := by
  rcases readByte_cases s a held got with ⟨hw, h⟩ | ⟨hw, hm, h⟩ | ⟨_, hm, h⟩
  · simp [h, hw]
  · simp [h, hw, hm, eq_comm]
  · simp [h, hm]

theorem hostMemRead_eq_refused_iff (s : State) (a : Word) (r : Refusal) :
    hostMemRead s a = .refused r ↔ r = .platformDevice ∧ covers s.phase.writeRegions a.toNat = false ∧
      covers s.platform.nonMemory a.toNat = true :=
  readByte_eq_refused_iff ..

/-- A host load is refused as a read of memory is, whatever the host's cache holds. -/
theorem hostLoad_eq_refused_iff (s : State) (a : Word) (r : Refusal) :
    hostLoad s a = .refused r ↔ r = .platformDevice ∧ covers s.phase.writeRegions a.toNat = false ∧
      covers s.platform.nonMemory a.toNat = true := by
  unfold hostLoad
  split
  · exact hostMemRead_eq_refused_iff s a r
  · split <;> exact readByte_eq_refused_iff ..

/-- A refused write-back is one of an address that is no memory (R69). -/
theorem hostWriteBack_refused {s : State} {a : Word} {r : Refusal} (h : hostWriteBack s a = .refused r) :
    r = .platformDevice ∧ covers s.platform.nonMemory a.toNat = true := by
  rcases hostWriteBack_cases s a with ⟨_, hw⟩ | ⟨_, v, _, hw⟩ <;> rw [hw] at h
  · cases h
  · obtain ⟨hr, _, hm⟩ := (hostMemWrite_eq_refused_iff ..).1 h
    exact ⟨hr, hm⟩

/-- The engine's move is never refused: every command has a meaning. -/
theorem engineTurn_ne_refused (s : State) (r : Refusal) : engineTurn s ≠ .refused r := by
  unfold engineTurn
  split
  · nofun
  · split
    · exact (exec_stops _ s).1 r
    · nofun

/-- The host accesses to a window at `base` that are refused: those that touch it without being an aligned 32-bit access
inside it (R62, I7). -/
def NarrowAccess (base : Nat) (e : Input) : Prop :=
  ∃ size addr, (e = .busRead size addr ∨ ∃ v, e = .busWrite size addr v) ∧ base < addr + sizeBytes size ∧
    addr < base + 0x100 ∧ ¬ (size = .word ∧ base ≤ addr ∧ (addr - base) % 4 = 0)

/-- The accesses to an address, by the host or another agent, that go to the device memory space. -/
def MemoryAccess (a : Word) (e : Input) : Prop :=
  e = .memRead a ∨ e = .hostLoad a ∨ e = .writeBack a ∨ ∃ v, e = .memWrite a v ∨ e = .hostStore a v

/-- Everything an event can be refused for: a narrow access to the window, or an access to what is no memory. -/
theorem takeInput_refused {s : State} {e : Input} {r : Refusal} (h : takeInput s e = .refused r) :
    (r = .narrowAccess ∧ NarrowAccess s.platform.base e) ∨
      (r = .platformDevice ∧ ∃ a, MemoryAccess a e ∧ covers s.platform.nonMemory a.toNat = true) := by
  cases e with
  | engine => exact absurd h (engineTurn_ne_refused s r)
  | busWrite size addr v =>
    obtain ⟨hr, ht⟩ := (busWrite_eq_refused_iff ..).1 h
    exact .inl ⟨hr, size, addr, .inr ⟨v, rfl⟩, (target_eq_outside_iff ..).1 ht⟩
  | busRead size addr =>
    obtain ⟨hr, ht⟩ := (busRead_eq_refused_iff ..).1 h
    exact .inl ⟨hr, size, addr, .inl rfl, (target_eq_outside_iff ..).1 ht⟩
  | memWrite a v =>
    obtain ⟨hr, _, hm⟩ := (hostMemWrite_eq_refused_iff ..).1 h
    exact .inr ⟨hr, a, .inr (.inr (.inr ⟨v, .inl rfl⟩)), hm⟩
  | memRead a =>
    obtain ⟨hr, _, hm⟩ := (hostMemRead_eq_refused_iff ..).1 h
    exact .inr ⟨hr, a, .inl rfl, hm⟩
  | hostStore a v =>
    obtain ⟨hr, _, hm⟩ := (hostStore_eq_refused_iff ..).1 h
    exact .inr ⟨hr, a, .inr (.inr (.inr ⟨v, .inr rfl⟩)), hm⟩
  | hostLoad a =>
    obtain ⟨hr, _, hm⟩ := (hostLoad_eq_refused_iff ..).1 h
    exact .inr ⟨hr, a, .inr (.inl rfl), hm⟩
  | writeBack a =>
    obtain ⟨hr, hm⟩ := hostWriteBack_refused h
    exact .inr ⟨hr, a, .inr (.inr (.inl rfl)), hm⟩
  | invalidate a => cases h
  | rst => exact absurd h (resetStep_ne_refused s r)

/-- A refused step refuses the next pending event: the engine's own move is never refused. -/
theorem step_refused {s : State} {r : Refusal} (h : step s = .refused r) :
    ∃ e rest, s.inputs = e :: rest ∧ takeInput { s with inputs := rest } e = .refused r := by
  unfold step nextEvent at h
  split at h
  · exact absurd h (engineTurn_ne_refused s r)
  · exact ⟨_, _, ‹_›, h⟩

/-! ### What a register reads as -/

/-- The low `k` bits of a register word are all it holds, and `z` is their value. -/
structure HoldsBelow (w : Word) (k z : Nat) : Prop where
  value : w.toNat = z
  bound : w.toNat < 2 ^ k

/-- A field at bit 0. -/
theorem HoldsBelow.field {n : Nat} (x : BitVec n) (hn : n ≤ 32) : HoldsBelow (placed x 0) n x.toNat := by
  have hx : (placed x 0).toNat = x.toNat := by simpa using placed_toNat x (k := 0) hn
  exact ⟨hx, hx ▸ x.isLt⟩

/-- A flag at bit 0. -/
theorem HoldsBelow.flag (b : Bool) : HoldsBelow (flagAt b 0) 1 b.toNat := by
  simpa [flagAt] using HoldsBelow.field (BitVec.ofBool b) (by decide)

/-- One more field above those a word holds. -/
theorem HoldsBelow.orField {w : Word} {k z n lo : Nat} (h : HoldsBelow w k z) (x : BitVec n) (hk : k ≤ lo)
    (hn : n + lo ≤ 32) : HoldsBelow (w ||| placed x lo) (n + lo) (z + x.toNat * 2 ^ lo) := by
  have hx : (placed x lo).toNat = x.toNat * 2 ^ lo := placed_toNat x hn
  have hw : w.toNat < 2 ^ lo := h.bound.trans_le (Nat.pow_le_pow_right (by decide) hk)
  have hsum : (w ||| placed x lo).toNat = z + x.toNat * 2 ^ lo := by rw [or_toNat hw hx, h.value, hx]
  refine ⟨hsum, ?_⟩
  calc (w ||| placed x lo).toNat = w.toNat + x.toNat * 2 ^ lo := by rw [hsum, h.value]
    _ < 2 ^ lo + x.toNat * 2 ^ lo := Nat.add_lt_add_right hw _
    _ = (x.toNat + 1) * 2 ^ lo := by ring
    _ ≤ 2 ^ n * 2 ^ lo := Nat.mul_le_mul_right _ x.isLt
    _ = 2 ^ (n + lo) := (pow_add ..).symm

/-- One more flag above the fields a word holds. -/
theorem HoldsBelow.orFlag {w : Word} {k z lo : Nat} (h : HoldsBelow w k z) (b : Bool) (hk : k ≤ lo) (hn : 1 + lo ≤ 32) :
    HoldsBelow (w ||| flagAt b lo) (1 + lo) (z + b.toNat * 2 ^ lo) := by
  simpa [flagAt] using h.orField (BitVec.ofBool b) hk hn

/-- A register of one field, at bit 0. -/
theorem placed_zero_toNat {n : Nat} (x : BitVec n) (hn : n ≤ 32) : (placed x 0).toNat = x.toNat :=
  (HoldsBelow.field x hn).value

/-- A register of two fields, the first at bit 0. -/
theorem placed_pair_toNat {n m lo : Nat} (x : BitVec n) (y : BitVec m) (hn : n ≤ lo) (hm : m + lo ≤ 32) :
    (placed x 0 ||| placed y lo).toNat = x.toNat + y.toNat * 2 ^ lo :=
  ((HoldsBelow.field x (by omega)).orField y hn hm).value

/-- The STATUS word, flag by flag (R24). -/
theorem statusWord_toNat (s : State) :
    s.statusWord.toNat = s.phase.isBusy.toNat + s.status.done.toNat * 2 ^ 1 + s.status.err.toNat * 2 ^ 2
      + s.status.werr.toNat * 2 ^ 3 + s.status.errcode.toNat * 2 ^ 4 + s.res.hvalid.toNat * 2 ^ 8
      + s.res.kvalid.toNat * 2 ^ 9 + s.res.psnrInf.toNat * 2 ^ 10 := by
  have hlow := (((HoldsBelow.flag s.phase.isBusy).orFlag s.status.done (lo := 1) (by decide) (by decide)).orFlag
    s.status.err (lo := 2) (by decide) (by decide)).orFlag s.status.werr (lo := 3) (by decide) (by decide)
  have hcode := hlow.orField s.status.errcode (lo := 4) (by decide) (by decide)
  have hall := ((hcode.orFlag s.res.hvalid (lo := 8) (by decide) (by decide)).orFlag
    s.res.kvalid (lo := 9) (by decide) (by decide)).orFlag s.res.psnrInf (lo := 10) (by decide) (by decide)
  exact hall.value

/-- The HINV word, entry by entry (R30). -/
theorem readReg_hinv_toNat (s : State) :
    (readReg s .hinv).toNat = s.res.i00.toNat + s.res.i01.toNat * 2 ^ 8 + s.res.i10.toNat * 2 ^ 16
      + s.res.i11.toNat * 2 ^ 24 := by
  have hall := (((HoldsBelow.field s.res.i00 (by decide)).orField s.res.i01 (lo := 8) (by decide) (by decide)).orField
    s.res.i10 (lo := 16) (by decide) (by decide)).orField s.res.i11 (lo := 24) (by decide) (by decide)
  exact hall.value

end Sys2Proof.Machine

namespace Sys2Proof.Proofs

open Sys2Proof.Machine

/-- Settles O53: each kind of access says when it is refused, and a refused step refuses its next event. -/
theorem onlyOutsideAccessesAreRefused : Obligations.OnlyOutsideAccessesAreRefused := by
  refine ⟨fun s a v hm => ⟨fun hf => ?_, fun hw => ?_⟩, fun s size addr v => ⟨fun hlo hhi hnarrow => ?_, fun h => ?_⟩,
    fun s r h => ?_⟩
  · exact ⟨(hostMemWrite_eq_refused_iff ..).2 ⟨rfl, hf, hm⟩, (hostStore_eq_refused_iff ..).2 ⟨rfl, hf, hm⟩⟩
  · exact ⟨(hostMemRead_eq_refused_iff ..).2 ⟨rfl, hw, hm⟩, (hostLoad_eq_refused_iff ..).2 ⟨rfl, hw, hm⟩⟩
  · have ht := (target_eq_outside_iff s size addr).2 ⟨hlo, hhi, hnarrow⟩
    exact ⟨(busRead_eq_refused_iff ..).2 ⟨rfl, ht⟩, (busWrite_eq_refused_iff ..).2 ⟨rfl, ht⟩⟩
  · have ht := (target_eq_elsewhere_iff s size addr).2 h
    exact ⟨busRead_elsewhere ht, busWrite_elsewhere ht v⟩
  · obtain ⟨e, rest, hi, he⟩ := step_refused h
    rw [hi]
    rcases takeInput_refused he with ⟨hr, size, addr, haccess, hnarrow⟩ | ⟨hr, a, haccess, hm⟩
    · exact .inl ⟨hr, size, addr, rest, by simpa using haccess, hnarrow⟩
    · exact .inr ⟨hr, a, rest, by simpa [MemoryAccess] using haccess, hm⟩

/-- Settles O8: inside the window every access touches it, so only narrow ones are outside the interface. -/
theorem narrowAccessesAreRefused : Obligations.NarrowAccessesAreRefused := by
  intro s size addr v hlo hhi
  have htouch : s.platform.base < addr + sizeBytes size := by
    have := sizeBytes_pos size
    omega
  have hnarrow : s.target size addr = .outside ↔ ¬ (size = .word ∧ (addr - s.platform.base) % 4 = 0) := by
    simp [target_eq_outside_iff, htouch, hhi, hlo]
  exact ⟨(busRead_eq_refused_iff ..).trans (by simpa using hnarrow),
    (busWrite_eq_refused_iff ..).trans (by simpa using hnarrow)⟩

/-- Settles O7: a read only records its value, and each register's word is the sum of its fields at their bits. -/
theorem registerReadHasNoSideEffect : Obligations.RegisterReadHasNoSideEffect := by
  refine ⟨fun s offset h4 hlt => busRead_window s h4 hlt, fun s =>
    ⟨rfl, (HoldsBelow.flag s.ie).value, statusWord_toNat s, rfl,
    ?hm00, ?hm01, ?hm10, ?hm11, rfl, ?hdetmod, ?hdetinv, readReg_hinv_toNat s, ?hin, ?hout, ?skey, ?subk, ?sblk, ?sout, ?sfin,
    ?sfout, rfl, rfl, rfl, rfl, rfl, rfl, rfl, rfl, rfl, rfl, rfl, rfl, rfl⟩⟩
  case hm00 | hm01 | hm10 | hm11 | hdetmod | hdetinv | sout | sfout => exact placed_zero_toNat _ (by decide)
  case hin | hout | skey | subk | sblk | sfin => exact placed_pair_toNat _ _ (by decide) (by decide)

end Sys2Proof.Proofs
end

section
/-! SUPPORT. Which bytes the commands access and change (spec/20_memory.md R65 to R70), and the statements about them. -/

namespace Sys2Proof.Machine

/-! ### Regions as bytes -/

/-- A region wraps exactly when it has a byte past the address space (R65): its last byte, if any. -/
theorem Region.wraps_iff_exists (r : Region) : r.wraps = true ↔ ∃ a, r.contains a = true ∧ 2 ^ 32 ≤ a := by
  simp only [Region.wraps_iff, Region.contains_iff]
  constructor
  · rintro ⟨hlen, hend⟩
    exact ⟨r.base + r.len - 1, by omega, by omega⟩
  · rintro ⟨a, ⟨hlo, hhi⟩, ha⟩
    omega

/-- Two regions overlap exactly when they share a byte (R67): the larger of the two bases, if any. -/
theorem Region.overlaps_iff_exists (r q : Region) :
    r.overlaps q = true ↔ ∃ a, r.contains a = true ∧ q.contains a = true := by
  simp only [Region.overlaps_iff, Region.contains_iff]
  constructor
  · rintro ⟨hr, hq, hrq, hqr⟩
    exact ⟨max r.base q.base, by omega, by omega⟩
  · rintro ⟨a, ⟨hr, hr'⟩, hq, hq'⟩
    omega

/-! ### What a command leaves alone -/

/-- However a command ends, it leaves the bytes outside its write regions alone (R66). -/
theorem Ends.byteAt_of_not_covers {i : Instr} {s t : State} {a : Nat} (h : Ends i s t)
    (ha : covers (writeRegions i s.inFlight) a = false) : t.byteAt a = s.byteAt a := by
  rcases h with ⟨c, _, _, rfl⟩ | ⟨d, c, _, rfl⟩ | ⟨d, r, m, rfl, hm⟩
  · rfl
  · exact read_havocRegions_out ha
  · exact hm a ha

/-! ### An accessed byte that is not answered -/

/-- A buffer command whose eager checks pass goes on to its memory phase (R129, R130). -/
theorem bufferCommand_of_checked (i : Instr) {s : State} (f : Byte → Byte) {p : Snapshot} (hp : p = s.inFlight)
    (hk : p.kvalid = true) (hsrc : p.srcBlocks.wraps = false) (hdst : p.dstBlocks.wraps = false)
    (ho : p.ops.src = p.ops.dst ∨ p.srcBlocks.overlaps p.dstBlocks = false) :
    bufferCommand i s f = s.memoryPhase i (bufferAccesses p) (fun t => t.commit t.res (bufferImage t.mem p f)) := by
  subst hp
  have hdisjoint : (s.inFlight.ops.src != s.inFlight.ops.dst && s.inFlight.srcBlocks.overlaps s.inFlight.dstBlocks) = false := by
    simpa [← or_iff_not_imp_left] using ho
  simp [bufferCommand, hk, hsrc, hdst, hdisjoint]

/-- LSB_EMBED with its eager checks passed goes on to its memory phase (R170). -/
theorem execLsbEmbed_of_checked {s : State} {p : Snapshot} (hp : p = s.inFlight)
    (hcap : p.payloadBits + 16 ≤ 3 * p.pixels) (hsrc : p.srcPixels.wraps = false) (hdst : p.dstPixels.wraps = false)
    (hpay : p.payload.wraps = false) (hos : p.dstPixels.overlaps p.srcPixels = false)
    (hop : p.dstPixels.overlaps p.payload = false) :
    execLsbEmbed s =
      s.memoryPhase .lsbEmbed (embedAccesses p) (fun t => embedFinish t p (stegoBuffer t.mem p)) := by
  subst hp
  have hcap' : ¬ s.inFlight.capacityBits < s.inFlight.usedBits := Nat.not_lt.2 hcap
  simp [execLsbEmbed, hcap', hsrc, hdst, hpay, hos, hop]

/-- PSNR_SSE with its eager check passed goes on to its memory phase (R172). -/
theorem execPsnrSse_of_checked {s : State} {p : Snapshot} (hp : p = s.inFlight) (hsrc : p.srcPixels.wraps = false)
    (href : p.refPixels.wraps = false) :
    execPsnrSse s = s.memoryPhase .psnrSse (psnrAccesses p) (fun t => t.commit
      (t.res.withSse (sse (fun q => Memory.read t.mem (p.src + q)) (fun q => Memory.read t.mem (p.ref + q)) p.pixels))
      t.mem) := by
  subst hp
  simp [execPsnrSse, hsrc, href]

/-- A buffer command accesses every byte of both buffers (R129). -/
theorem mem_bufferAccesses {p : Snapshot} {k : Nat} (hk : k < p.byteCount) :
    p.src + k ∈ bufferAccesses p ∧ p.dst + k ∈ bufferAccesses p := by
  simp [bufferAccesses, hk]

/-- The walk reaches every byte of a PixelBuffer that is no alpha byte (R162). -/
theorem exists_walk_eq {q n : Nat} (hq : q < 4 * n) (halpha : q % 4 ≠ 3) : ∃ j, j < 3 * n ∧ walk j = q :=
  ⟨3 * (q / 4) + q % 4, by omega, by unfold walk; omega⟩

/-- PSNR_SSE accesses every byte of both PixelBuffers that is no alpha byte (R172). -/
theorem mem_psnrAccesses {p : Snapshot} {q : Nat} (hq : q < 4 * p.pixels) (halpha : q % 4 ≠ 3) :
    p.src + q ∈ psnrAccesses p ∧ p.ref + q ∈ psnrAccesses p := by
  obtain ⟨j, hj, rfl⟩ := exists_walk_eq hq halpha
  simp only [psnrAccesses, List.mem_append, List.mem_map, List.mem_range]
  exact ⟨.inl ⟨j, hj, rfl⟩, .inr ⟨j, hj, rfl⟩⟩

/-- An accessed byte that is not answered ends the memory phase in an in-flight error with code 12 (R70, R237). -/
theorem memoryPhase_failedInFlight {s : State} {i : Instr} {accessed : List Nat} {finish : State → State} {a : Nat}
    (h : s.FootprintIsMemory i) (ha : a ∈ accessed) (hbad : s.memOk a = false) :
    ∃ t, s.memoryPhase i accessed finish = .next t ∧ s.FailedInFlight t 12 (writeRegions i s.inFlight) :=
  ⟨_, memoryPhase_unanswered h ha hbad, failedInFlight_of_failInFlight s s.draws .busError _⟩

/-- A buffer command with its eager checks passed and a buffer byte not answered (R70, R129, R130). -/
theorem bufferCommand_failedInFlight {i : Instr} {s : State} (f : Byte → Byte) {p : Snapshot} (hp : p = s.inFlight)
    (hmem : s.FootprintIsMemory i) (hk : p.kvalid = true) (hsrc : p.srcBlocks.wraps = false)
    (hdst : p.dstBlocks.wraps = false) (ho : p.ops.src = p.ops.dst ∨ p.srcBlocks.overlaps p.dstBlocks = false)
    (hbad : ∃ k, k < p.byteCount ∧ (s.memOk (p.src + k) = false ∨ s.memOk (p.dst + k) = false)) :
    ∃ t, bufferCommand i s f = .next t ∧ s.FailedInFlight t 12 (writeRegions i s.inFlight) := by
  rw [bufferCommand_of_checked i f hp hk hsrc hdst ho]
  obtain ⟨k, hlt, hbad⟩ := hbad
  obtain ⟨hreads, hwrites⟩ := mem_bufferAccesses hlt
  rcases hbad with hbad | hbad
  · exact memoryPhase_failedInFlight hmem hreads hbad
  · exact memoryPhase_failedInFlight hmem hwrites hbad

end Sys2Proof.Machine

namespace Sys2Proof.Proofs

open Sys2Proof.Machine

/-- Settles O44: past its eager checks a command is its memory phase, and the unanswered byte is among its accesses. -/
theorem unansweredAccessEndsInBusError : Obligations.UnansweredAccessEndsInBusError := by
  intro s p hp
  refine ⟨fun i hi hmem hk hsrc hdst ho hbad => ?buffer, fun hmem hcap hsrc hdst hpay hos hop hbad => ?embed,
    fun hmem hsrc href hbad => ?psnr⟩
  case buffer =>
    subst hp
    obtain rfl | rfl : i = .sdesEncb ∨ i = .sdesDecb := by simpa using hi
    · exact bufferCommand_failedInFlight _ rfl hmem hk hsrc hdst ho hbad
    · exact bufferCommand_failedInFlight _ rfl hmem hk hsrc hdst ho hbad
  case embed =>
    obtain ⟨a, ha, hbad⟩ := hbad
    rw [exec, execLsbEmbed_of_checked hp hcap hsrc hdst hpay hos hop]
    subst hp
    exact memoryPhase_failedInFlight hmem (embedAccesses_covered.2 ha) hbad
  case psnr =>
    obtain ⟨q, hlt, halpha, hbad⟩ := hbad
    obtain ⟨hsrcAccess, hrefAccess⟩ := mem_psnrAccesses hlt halpha
    rw [exec, execPsnrSse_of_checked hp hsrc href]
    rcases hbad with hbad | hbad
    · exact memoryPhase_failedInFlight hmem hsrcAccess hbad
    · exact memoryPhase_failedInFlight hmem hrefAccess hbad

/-- Settles O49: every ending of a command leaves the bytes outside its write regions alone. -/
theorem commandsWriteOnlyTheirWriteRegions : Obligations.CommandsWriteOnlyTheirWriteRegions :=
  fun _ _ _ _ h ha => (exec_ends h).byteAt_of_not_covers ha

/-- Settles O35: a region's last byte shows a wrap, and the larger base is a byte that two overlapping regions share. -/
theorem wrapAndOverlapAreAboutBytes : Obligations.WrapAndOverlapAreAboutBytes :=
  ⟨Region.wraps_iff_exists, Region.overlaps_iff_exists⟩

end Sys2Proof.Proofs
end

section
/-! SUPPORT. The command words (spec/30_encoding.md R80 to R85) and the RUN line of a host program (R88), and the
statements about both. -/

namespace Sys2Proof

/-! ### Decoding -/

/-- A word with a bit set above its opcode is no command, whatever its opcode (R80, R85). -/
theorem decode_of_reservedBits {w : Word} (h : w.extractLsb' 8 24 ≠ 0) : decode w = .error .reservedBits := if_pos h

/-- A word with no bit set above an opcode that the map does not assign is no command (R85). -/
theorem decode_of_unassigned {w : Word} (h : w.extractLsb' 8 24 = 0)
    (ho : opcodeToInstr (w.extractLsb' 0 8).toNat = none) : decode w = .error .unassignedOpcode := by
  rw [decode, if_neg (not_not.2 h), ho]

/-- The decoder reads a command's own word back (R83, R84). -/
theorem decode_encode (i : Instr) : decode (encode i) = .ok i := by
  cases i <;> rfl

/-- The opcode map assigns a command its own opcode only (R83). -/
theorem opcode_of_opcodeToInstr {n : Nat} {i : Instr} (h : opcodeToInstr n = some i) : n = (opcode i).toNat := by
  unfold opcodeToInstr at h
  split at h <;> cases h <;> rfl

/-- A word whose bits above the low byte are 0 is that byte, zero-extended (R80). -/
theorem eq_setWidth_of_reservedBits {w : Word} (h : w.extractLsb' 8 24 = 0) :
    w = (w.extractLsb' 0 8).setWidth 32 := by
  have hhigh : w.toNat / 256 % 16777216 = 0 := by
    simpa [Nat.shiftRight_eq_div_pow] using congrArg BitVec.toNat h
  have hlow : w.toNat < 256 := by omega
  exact BitVec.eq_of_toNat_eq (by simp; omega)

/-- A word decodes to a command exactly when it is the command's own word (R83, R84). -/
theorem decode_eq_ok_iff {w : Word} {i : Instr} : decode w = .ok i ↔ w = encode i := by
  refine ⟨fun h => ?_, fun h => h ▸ decode_encode i⟩
  unfold decode at h
  split at h
  · cases h
  · rename_i hbits
    split at h
    · rename_i j hj
      cases h
      have hop : w.extractLsb' 0 8 = opcode i := BitVec.eq_of_toNat_eq (opcode_of_opcodeToInstr hj)
      rw [encode, ← hop]
      exact eq_setWidth_of_reservedBits (not_not.1 hbits)
    · cases h

/-- The list of all commands misses none (R83). -/
theorem mem_allInstrs (i : Instr) : i ∈ allInstrs := by
  cases i <;> decide

/-- The rows of the opcode map are the pairs of a command's word and the command. -/
theorem mem_opcodeMap_iff {w : Word} {i : Instr} :
    (w, i) ∈ allInstrs.map (fun j => (encode j, j)) ↔ w = encode i := by
  simp [mem_allInstrs, eq_comm]

namespace Machine

/-! ### Runs, event by event -/

/-- A run with an event that answers a next state goes on from there with the events after it. -/
theorem runEvents_cons {s t : State} {e : Input} {rest : List Input}
    (h : takeInput { s with inputs := rest } e = .next { t with inputs := rest }) :
    runEvents (e :: rest) s = runEvents rest t := by
  have hstep : step { s with inputs := e :: rest } = .next { t with inputs := rest } := h
  rw [runEvents, List.length_cons, runSteps, hstep, runEvents]

/-- In IDLE a CMD write is accepted (R25, R234). -/
theorem busWrite_idle_cmd {s : State} (hs : s.phase = .idle) (w : Word) :
    busWrite s .word (s.platform.base + 0x00C) w = .next (s.accept w) := by
  rw [busWrite_window s (by decide) (by decide), writeOffset_plain s (by decide) (by decide)]
  simp [writePlain, hs, regAt]

/-- A poll of STATUS, the host's read in a WAIT line (R87). -/
def poll (base : Nat) : Input := (readFrom .status).event base

/-- The state after a poll: STATUS has been read. -/
def State.polled (s : State) : State :=
  { s with observed := .reg (s.platform.base + 0x008) s.statusWord :: s.observed }

/-- A poll of STATUS reads it and does nothing else (R69). -/
theorem takeInput_poll {s : State} {base : Nat} (h : s.platform.base = base) :
    takeInput s (poll base) = .next s.polled := by
  subst h
  exact busRead_window s (by decide) (by decide)

/-- Polls only add to what the host has read. -/
theorem runEvents_polls (s : State) (polls : Nat) (rest : List Input) : ∃ obs,
    runEvents (List.replicate polls (poll s.platform.base) ++ rest) s = runEvents rest { s with observed := obs } := by
  induction polls generalizing s with
  | zero => exact ⟨s.observed, rfl⟩
  | succ n ih =>
    obtain ⟨obs, hrun⟩ := ih s.polled
    exact ⟨obs, (runEvents_cons (takeInput_poll rfl)).trans hrun⟩

/-- In BUSY with a command's own word, the engine's move is the command (R235). -/
theorem engineTurn_encode {s : State} {i : Instr} {p : Snapshot} (h : s.phase = .busy (encode i) p) :
    engineTurn s = exec i s := by
  simp [engineTurn, h, decode_encode]

/-- A command leaves the platform as it is (R8). -/
theorem exec_platform {i : Instr} {s t : State} (h : exec i s = .next t) : t.platform = s.platform := by
  rcases exec_ends h with ⟨c, _, _, rfl⟩ | ⟨d, c, _, rfl⟩ | ⟨d, r, m, rfl, _⟩ <;> rfl

/-- A command leaves the pending events as they are. -/
theorem exec_inputs {i : Instr} {s t : State} (h : exec i s = .next t) : t.inputs = s.inputs := by
  rcases exec_ends h with ⟨c, _, _, rfl⟩ | ⟨d, c, _, rfl⟩ | ⟨d, r, m, rfl, _⟩ <;> rfl

/-- The engine's move of a command in BUSY that completes, whatever is pending and was observed (R235). -/
theorem takeInput_engine_withLists {s t : State} {i : Instr} {p : Snapshot} (hs : s.phase = .busy (encode i) p)
    (h : exec i s = .next t) (ins : List Input) (obs : List Observation) :
    takeInput { s with inputs := ins, observed := obs } .engine = .next { t with inputs := ins, observed := obs } := by
  have hturn : engineTurn { s with inputs := ins, observed := obs } = exec i { s with inputs := ins, observed := obs } :=
    engineTurn_encode hs
  rw [takeInput, hturn, exec_withLists, h, withLists]

/-- A poll loop on a command in BUSY that completes: its last read finds STATUS of the completed state (R88, R235). -/
theorem runEvents_wait {s t : State} {i : Instr} {p : Snapshot} (hs : s.phase = .busy (encode i) p)
    (h : exec i s = .next t) (polls : Nat) : ∃ obs,
    runEvents (waitEvents s.platform.base polls) s = .next (State.polled { t with inputs := [], observed := obs }) := by
  obtain ⟨obs, hpolls⟩ := runEvents_polls s polls [.engine, poll s.platform.base]
  have hbase : t.platform.base = s.platform.base := congrArg Platform.base (exec_platform h)
  refine ⟨obs, ?_⟩
  calc runEvents (waitEvents s.platform.base polls) s
      = runEvents [.engine, poll s.platform.base] { s with observed := obs } := hpolls
    _ = runEvents [poll s.platform.base] { t with observed := obs } :=
        runEvents_cons (takeInput_engine_withLists hs h _ obs)
    _ = runEvents [] (State.polled { t with observed := obs }) :=
        runEvents_cons (takeInput_poll hbase)
    _ = .next (State.polled { t with inputs := [], observed := obs }) := rfl

/-- A RUN line on an idle machine is its CMD write, accepted, and then its poll loop (R88). -/
theorem runLines_run {s : State} (hs : s.phase = .idle) (i : Instr) (polls : Nat) :
    runLines [.run i polls] s = runEvents (waitEvents s.platform.base polls) (s.accept (encode i)) := by
  simp only [runLines, List.flatMap_singleton, events]
  exact runEvents_cons (busWrite_idle_cmd (s := { s with inputs := waitEvents s.platform.base polls }) hs (encode i))

end Machine

end Sys2Proof

namespace Sys2Proof.Proofs

open Sys2Proof.Machine

/-- Settles O13: the line is a CMD write, which is accepted, and then the poll loop on the accepted command. -/
theorem runLineAcceptsThenCompletes : Obligations.RunLineAcceptsThenCompletes := by
  intro s t i polls hs hin h
  have hexec : exec i (s.accept (encode i)) = .next t := h
  have hplatform : t.platform = s.platform := (exec_platform hexec).trans (s.accept_platform _)
  have hinputs : t.inputs = [] := (exec_inputs hexec).trans hin
  obtain ⟨obs, hwait⟩ := runEvents_wait rfl hexec polls
  refine ⟨obs, ?_⟩
  calc runLines [.run i polls] s
      = runEvents (waitEvents s.platform.base polls) (s.accept (encode i)) := runLines_run hs i polls
    _ = .next (State.polled { t with inputs := [], observed := obs }) := hwait
    _ = .next { t with observed := .reg (s.platform.base + 0x008) t.statusWord :: obs } := by
        rw [← hinputs, ← hplatform]; rfl

/-- Settles O14: a word decodes to a command exactly when it is the command's own word, and the written map lists
every command beside its word. -/
theorem decodeReadsExactlyTheOpcodeMap : Obligations.DecodeReadsExactlyTheOpcodeMap :=
  ⟨fun _ _ => decode_eq_ok_iff.trans mem_opcodeMap_iff.symm, fun i _ => decode_encode i⟩

/-- Settles O15: four words are the commands' own, one has a reserved bit set, and one has an unassigned opcode. -/
theorem decodesOneWordOfEachFamily : Obligations.DecodesOneWordOfEachFamily :=
  ⟨decode_encode .nop, decode_encode .hillEnc, decode_encode .sdesEncb, decode_encode .lsbExtract,
    decode_of_reservedBits (by decide), decode_of_unassigned (by decide) (by decide)⟩

end Sys2Proof.Proofs
end

section
/-! SUPPORT. The Hill unit (spec/40_hill.md): how each of its commands ends, the key matrix as a matrix over the residues
mod 26 with its inverse (R101, R108, R109), and the statements about both. -/

namespace Sys2Proof.Machine

/-! ### How a Hill command ends -/

/-- The check that the key matrix is valid (R104 to R106, check 1). -/
def matrixError (p : Snapshot) : Option ErrCode := if (hillValidate p).valid then none else some .invalidKeyMatrix

/-- The check of the pair of letters (R105, R106, check 2). -/
def letterError (p : Snapshot) : Option ErrCode := if lettersLegal p then none else some .invalidLetter

/-- The first check of a Hill command that fails. -/
def hillError (p : Snapshot) : Instr → Option ErrCode
  | .hillInv => matrixError p
  | .hillEnc | .hillDec => (matrixError p).or (letterError p)
  | _ => none

/-- The results that a Hill command commits when no check fails. -/
def hillResults (r : Results) (p : Snapshot) : Instr → Results
  | .hillInv => (r.withCheck (hillValidate p)).withInverse (hillInverse p)
  | .hillEnc => (r.withCheck (hillValidate p)).withPair (hillApply (keyMatrix p) p.c1 p.c2)
  | .hillDec =>
    ((r.withCheck (hillValidate p)).withInverse (hillInverse p)).withPair (hillApply (hillInverse p) p.c1 p.c2)
  | _ => r.withCheck (hillValidate p)

/-- The state a Hill command leaves: the first failing check's error, or its results committed. -/
def State.hillEnd (s : State) (i : Instr) : State :=
  match hillError s.inFlight i with
  | some c => s.fail c
  | none => s.commit (hillResults s.res s.inFlight i) s.mem

/-- The two checks in order, as a pair command makes them. -/
theorem pairError_eq (p : Snapshot) : (matrixError p).or (letterError p) =
    if !(hillValidate p).valid then some .invalidKeyMatrix
    else if !lettersLegal p then some .invalidLetter
    else none := by
  unfold matrixError letterError
  cases (hillValidate p).valid <;> cases lettersLegal p <;> rfl

/-- Every Hill command makes its checks, in order, and then commits its results (R103 to R106). -/
theorem exec_hill {i : Instr} (hi : i ∈ hillCommands) (s : State) : exec i s = .next (s.hillEnd i) := by
  simp only [hillCommands, List.mem_cons, List.not_mem_nil, or_false] at hi
  rcases hi with rfl | rfl | rfl | rfl
  case inl => rfl
  case inr.inl =>
    simp only [exec, execHillInv, State.hillEnd, hillError, matrixError]
    cases (hillValidate s.inFlight).valid <;> rfl
  case inr.inr.inl | inr.inr.inr =>
    simp only [exec, execHillEnc, execHillDec, State.hillEnd, hillError, pairError_eq]
    cases (hillValidate s.inFlight).valid <;> cases lettersLegal s.inFlight <;> rfl

/-- A Hill command whose checks hold commits its results. -/
theorem exec_hill_of_checked {i : Instr} (hi : i ∈ hillCommands) {s : State} (h : hillError s.inFlight i = none) :
    exec i s = .next (s.commit (hillResults s.res s.inFlight i) s.mem) := by
  rw [exec_hill hi, State.hillEnd, h]

/-- A Hill command with a failing check ends in that check's error. -/
theorem exec_hill_of_failed {i : Instr} (hi : i ∈ hillCommands) {s : State} {c : ErrCode}
    (h : hillError s.inFlight i = some c) : exec i s = .next (s.failedWith c.code) := by
  rw [exec_hill hi, State.hillEnd, h]; rfl

/-- R107: the matrix check passes exactly for a determinant prime to 26. -/
theorem matrixError_eq_none_iff {p : Snapshot} : matrixError p = none ↔ Int.gcd p.ops.det 26 = 1 := by
  simp [matrixError, hillValidate_valid_iff]

theorem matrixError_of_invalid {p : Snapshot} (h : Int.gcd p.ops.det 26 ≠ 1) : matrixError p = some .invalidKeyMatrix :=
  if_neg (mt (hillValidate_valid_iff p).1 h)

theorem lettersLegal_iff (p : Snapshot) : lettersLegal p = true ↔ p.ops.hinC1.toNat ≤ 25 ∧ p.ops.hinC2.toNat ≤ 25 := by
  rw [lettersLegal, Bool.and_eq_true, decide_eq_true_iff, decide_eq_true_iff]; rfl

theorem letterError_of_legal {p : Snapshot} (h1 : p.ops.hinC1.toNat ≤ 25) (h2 : p.ops.hinC2.toNat ≤ 25) :
    letterError p = none := if_pos ((lettersLegal_iff p).2 ⟨h1, h2⟩)

theorem letterError_of_illegal {p : Snapshot} (h : 25 < p.ops.hinC1.toNat ∨ 25 < p.ops.hinC2.toNat) :
    letterError p = some .invalidLetter := if_neg (by rw [lettersLegal_iff]; omega)

/-- Both checks of a pair command pass. -/
theorem pairError_of_legal {p : Snapshot} (h : Int.gcd p.ops.det 26 = 1) (h1 : p.ops.hinC1.toNat ≤ 25)
    (h2 : p.ops.hinC2.toNat ≤ 25) : (matrixError p).or (letterError p) = none := by
  rw [matrixError_eq_none_iff.2 h, letterError_of_legal h1 h2]; rfl

/-- The matrix is checked before the letters. -/
theorem pairError_of_invalid {p : Snapshot} (h : Int.gcd p.ops.det 26 ≠ 1) :
    (matrixError p).or (letterError p) = some .invalidKeyMatrix := by
  rw [matrixError_of_invalid h]; rfl

/-- Under a valid matrix the letters decide. -/
theorem pairError_of_illegal {p : Snapshot} (h : Int.gcd p.ops.det 26 = 1)
    (hc : 25 < p.ops.hinC1.toNat ∨ 25 < p.ops.hinC2.toNat) : (matrixError p).or (letterError p) = some .invalidLetter := by
  rw [matrixError_eq_none_iff.2 h, letterError_of_illegal hc]; rfl

/-! ### What the committed results read as -/

/-- Every Hill command reports the matrix (R51). -/
theorem hillResults_reports (r : Results) (p : Snapshot) (i : Instr) : (hillResults r p i).ReportsMatrix p.ops := by
  cases i <;> exact withCheck_reports r p

/-- Every Hill command that has checked the matrix sets HVALID (R51). -/
theorem hillResults_hvalid (r : Results) {p : Snapshot} (i : Instr) (h : Int.gcd p.ops.det 26 = 1) :
    (hillResults r p i).hvalid = true := by
  cases i <;> exact (hillValidate_valid_iff p).2 h

/-- HILL_INV and HILL_DEC leave the inverse matrix in HINV (R30, R101). -/
theorem hillResults_holdsInverse (r : Results) (p : Snapshot) {i : Instr} (hi : i ∈ [Instr.hillInv, .hillDec]) :
    (hillResults r p i).HoldsInverse p.ops := by
  have hinv : (r.withCheck (hillValidate p)).hdetinv.toNat = (hillValidate p).inv :=
    field5_toNat (Nat.lt_succ_of_le (hillValidate_inv_le p))
  simp only [List.mem_cons, List.not_mem_nil, or_false] at hi
  rcases hi with rfl | rfl <;> exact withInverse_holds (r.withCheck (hillValidate p)) p hinv

/-- The letters of a transformed pair are residues (R102). -/
theorem hillApply_lt (a : Matrix2) (c1 c2 : Nat) : (hillApply a c1 c2).1 < 26 ∧ (hillApply a c1 c2).2 < 26 :=
  ⟨mod26_lt _, mod26_lt _⟩

/-- HOUT reads back a transformed pair (R32). -/
theorem withPair_toNat (r : Results) (a : Matrix2) (c1 c2 : Nat) :
    (r.withPair (hillApply a c1 c2)).o1.toNat = (hillApply a c1 c2).1 ∧
      (r.withPair (hillApply a c1 c2)).o2.toNat = (hillApply a c1 c2).2 :=
  ⟨field5_toNat (hillApply_lt a c1 c2).1, field5_toNat (hillApply_lt a c1 c2).2⟩

/-- HILL_ENC leaves the pair transformed by the key matrix in HOUT (R105). -/
theorem hillResults_hillEnc_toNat (r : Results) (p : Snapshot) :
    (hillResults r p .hillEnc).o1.toNat = (hillApply (keyMatrix p) p.c1 p.c2).1 ∧
      (hillResults r p .hillEnc).o2.toNat = (hillApply (keyMatrix p) p.c1 p.c2).2 := withPair_toNat ..

/-- HILL_DEC leaves the pair transformed by the inverse matrix in HOUT (R106). -/
theorem hillResults_hillDec_toNat (r : Results) (p : Snapshot) :
    (hillResults r p .hillDec).o1.toNat = (hillApply (hillInverse p) p.c1 p.c2).1 ∧
      (hillResults r p .hillDec).o2.toNat = (hillApply (hillInverse p) p.c1 p.c2).2 := withPair_toNat ..

/-- HINV's fields read back the inverse matrix (R30). -/
theorem withInverse_toNat (r : Results) (p : Snapshot) :
    (((r.withInverse (hillInverse p)).i00.toNat : Int) = (hillInverse p).a00 ∧
      ((r.withInverse (hillInverse p)).i01.toNat : Int) = (hillInverse p).a01) ∧
    ((r.withInverse (hillInverse p)).i10.toNat : Int) = (hillInverse p).a10 ∧
      ((r.withInverse (hillInverse p)).i11.toNat : Int) = (hillInverse p).a11 :=
  have field (x : Int) : ((BitVec.ofInt 5 (mod26 x : Int)).toNat : Int) = (mod26 x : Int) :=
    congrArg Nat.cast (field5_ofInt_toNat (mod26_lt x))
  ⟨⟨field _, field _⟩, field _, field _⟩

theorem mod26_natCast (n : Nat) : mod26 n = n % 26 := by
  have h := mod26_cast n
  omega

/-- The pair transformed by the inverse matrix, from the fields of HINV (R102, R106). -/
theorem hillApply_hillInverse (r : Results) (p : Snapshot) (c1 c2 : Nat) :
    hillApply (hillInverse p) c1 c2 =
      (((r.withInverse (hillInverse p)).i00.toNat * c1 + (r.withInverse (hillInverse p)).i01.toNat * c2) % 26,
        ((r.withInverse (hillInverse p)).i10.toNat * c1 + (r.withInverse (hillInverse p)).i11.toNat * c2) % 26) := by
  obtain ⟨⟨h00, h01⟩, h10, h11⟩ := withInverse_toNat r p
  rw [hillApply, ← h00, ← h01, ← h10, ← h11]
  simp only [← Nat.cast_mul, ← Nat.cast_add, mod26_natCast]

/-! ### The key matrix over the residues mod 26 -/

/-- A matrix of integers, read mod 26. -/
def Matrix2.residues (a : Matrix2) : Matrix (Fin 2) (Fin 2) (ZMod 26) := !![(a.a00 : ZMod 26), a.a01; a.a10, a.a11]

/-- Equal remainders are equal residues (R11). -/
theorem emod26_eq_iff {x y : Int} : x % 26 = y % 26 ↔ (x : ZMod 26) = (y : ZMod 26) :=
  (ZMod.intCast_eq_intCast_iff' x y 26).symm

theorem mod26_zmod (x : Int) : ((mod26 x : Nat) : ZMod 26) = (x : ZMod 26) := by
  rw [← Int.cast_natCast, mod26_cast]
  exact ZMod.intCast_mod x 26

/-- `mod26` tells two integers apart exactly when they are different residues. -/
theorem mod26_eq_iff {x y : Int} : mod26 x = mod26 y ↔ (x : ZMod 26) = (y : ZMod 26) := by
  rw [← emod26_eq_iff, ← mod26_cast, ← mod26_cast, Nat.cast_inj]

/-- Equal residues, entry by entry. -/
theorem Matrix2.residues_eq_iff {a b : Matrix2} : a.residues = b.residues ↔
    (a.a00 % 26 = b.a00 % 26 ∧ a.a01 % 26 = b.a01 % 26) ∧ a.a10 % 26 = b.a10 % 26 ∧ a.a11 % 26 = b.a11 % 26 := by
  simp [residues, emod26_eq_iff]

/-- The determinant mod 26 is that of the matrix of residues (R100). -/
theorem det_residues (p : Snapshot) : (p.ops.det : ZMod 26) = (keyMatrix p).residues.det := by
  rw [Matrix2.residues, Matrix.det_fin_two_of]
  simp [Operands.det, keyMatrix, Snapshot.m00, Snapshot.m01, Snapshot.m10, Snapshot.m11]

/-- R101: the inverse matrix is the adjugate times the determinant's inverse. -/
theorem residues_hillInverse (p : Snapshot) :
    (hillInverse p).residues = ((hillValidate p).inv : ZMod 26) • (keyMatrix p).residues.adjugate := by
  simp [Matrix2.residues, hillInverse, keyMatrix, Matrix.adjugate_fin_two_of, mod26_zmod]

/-- The scan's answer inverts the determinant of a valid matrix mod 26 (R100). -/
theorem det_mul_inv {p : Snapshot} (h : Int.gcd p.ops.det 26 = 1) :
    (keyMatrix p).residues.det * ((hillValidate p).inv : ZMod 26) = 1 := by
  have hne : hillScan (mod26 p.ops.det) ≠ 0 := (hillScan_ne_zero_iff _).2 h
  have hmul : mod26 p.ops.det * hillScan (mod26 p.ops.det) % 26 = 1 % 26 := (hillScan_spec (mod26_lt _)).2.1 hne
  have hcast := (ZMod.natCast_eq_natCast_iff' _ _ 26).2 hmul
  rwa [Nat.cast_mul, mod26_zmod, det_residues, Nat.cast_one] at hcast

/-- R109: a valid matrix times its inverse is the identity mod 26. -/
theorem keyMatrix_mul_hillInverse {p : Snapshot} (h : Int.gcd p.ops.det 26 = 1) :
    (keyMatrix p).residues * (hillInverse p).residues = 1 := by
  rw [residues_hillInverse, Matrix.mul_smul, Matrix.mul_adjugate, smul_smul, mul_comm, det_mul_inv h, one_smul]

/-- R109: the inverse times the matrix is the identity, too. -/
theorem hillInverse_mul_keyMatrix {p : Snapshot} (h : Int.gcd p.ops.det 26 = 1) :
    (hillInverse p).residues * (keyMatrix p).residues = 1 :=
  mul_eq_one_comm.1 (keyMatrix_mul_hillInverse h)

/-- A product that is the identity mod 26, entry by entry. -/
theorem Matrix2.residues_mul_eq_one_iff {a b : Matrix2} : a.residues * b.residues = 1 ↔
    ((a.a00 * b.a00 + a.a01 * b.a10) % 26 = 1 ∧ (a.a00 * b.a01 + a.a01 * b.a11) % 26 = 0) ∧
      (a.a10 * b.a00 + a.a11 * b.a10) % 26 = 0 ∧ (a.a10 * b.a01 + a.a11 * b.a11) % 26 = 1 := by
  have hone (x : Int) : x % 26 = 1 ↔ (x : ZMod 26) = 1 := by simpa using emod26_eq_iff (x := x) (y := 1)
  have hzero (x : Int) : x % 26 = 0 ↔ (x : ZMod 26) = 0 := by simpa using emod26_eq_iff (x := x) (y := 0)
  simp [residues, ← Matrix.ext_iff, Fin.forall_fin_two, hone, hzero]

/-- R102: the transformed pair, read mod 26, is the matrix times the pair. -/
theorem hillApply_residues (a : Matrix2) (c1 c2 : Nat) :
    ![((hillApply a c1 c2).1 : ZMod 26), ((hillApply a c1 c2).2 : ZMod 26)] =
      a.residues.mulVec ![(c1 : ZMod 26), (c2 : ZMod 26)] := by
  refine funext (Fin.forall_fin_two.2 ⟨?_, ?_⟩) <;>
    simp [hillApply, mod26_zmod, Matrix2.residues, mul_comm]

/-- Letters with the same residues are the same pair. -/
theorem letters_ext {c d : Nat × Nat} (hc : c.1 < 26 ∧ c.2 < 26) (hd : d.1 < 26 ∧ d.2 < 26)
    (h : ![(c.1 : ZMod 26), (c.2 : ZMod 26)] = ![(d.1 : ZMod 26), (d.2 : ZMod 26)]) : c = d := by
  have hval {m n : Nat} (hm : m < 26) (hn : n < 26) (hmn : (m : ZMod 26) = n) : m = n := by
    rwa [ZMod.natCast_eq_natCast_iff', Nat.mod_eq_of_lt hm, Nat.mod_eq_of_lt hn] at hmn
  obtain ⟨h1, h2⟩ : (c.1 : ZMod 26) = d.1 ∧ (c.2 : ZMod 26) = d.2 := by simpa using h
  exact Prod.ext (hval hc.1 hd.1 h1) (hval hc.2 hd.2 h2)

/-- A pair transformed by a matrix and then by its inverse mod 26 is the pair again (R109). -/
theorem hillApply_hillApply {a b : Matrix2} (h : a.residues * b.residues = 1) {c1 c2 : Nat} (h1 : c1 ≤ 25) (h2 : c2 ≤ 25) :
    hillApply a (hillApply b c1 c2).1 (hillApply b c1 c2).2 = (c1, c2) := by
  refine letters_ext (hillApply_lt _ _ _) ⟨Nat.lt_succ_of_le h1, Nat.lt_succ_of_le h2⟩ ?_
  rw [hillApply_residues, hillApply_residues, Matrix.mulVec_mulVec, h, Matrix.one_mulVec]

/-! ### What depends on the residues alone -/

/-- R108: two snapshots whose key matrices agree mod 26 get the same residue of the determinant and the same answer of
the scan. -/
theorem hillValidate_congr {p q : Snapshot} (h : (keyMatrix p).residues = (keyMatrix q).residues) :
    (hillValidate p).dm = (hillValidate q).dm ∧ (hillValidate p).inv = (hillValidate q).inv := by
  have hdm : mod26 p.ops.det = mod26 q.ops.det := by rw [mod26_eq_iff, det_residues, det_residues, h]
  exact ⟨hdm, congrArg hillScan hdm⟩

/-- R108: they have the same inverse matrix. -/
theorem hillInverse_congr {p q : Snapshot} (h : (keyMatrix p).residues = (keyMatrix q).residues) :
    hillInverse p = hillInverse q := by
  obtain ⟨⟨h00, h01⟩, h10, h11⟩ := Matrix2.residues_eq_iff.1 h
  simp only [keyMatrix, emod26_eq_iff] at h00 h01 h10 h11
  obtain ⟨_, hinv⟩ := hillValidate_congr h
  simp [hillInverse, hinv, mod26_eq_iff, h00, h01, h10, h11]

/-- R108: a pair is transformed alike by matrices that agree mod 26. -/
theorem hillApply_congr {a b : Matrix2} (h : a.residues = b.residues) (c1 c2 : Nat) :
    hillApply a c1 c2 = hillApply b c1 c2 :=
  letters_ext (hillApply_lt a c1 c2) (hillApply_lt b c1 c2) (by rw [hillApply_residues, hillApply_residues, h])

/-- R108: the checks come out alike. -/
theorem hillError_congr {p q : Snapshot} (h : (keyMatrix p).residues = (keyMatrix q).residues) (hc1 : p.c1 = q.c1)
    (hc2 : p.c2 = q.c2) (i : Instr) : hillError p i = hillError q i := by
  obtain ⟨_, hinv⟩ := hillValidate_congr h
  have hmatrix : matrixError p = matrixError q := by
    rw [matrixError, matrixError, HillCheck.valid, HillCheck.valid, hinv]
  have hletters : letterError p = letterError q := by
    rw [letterError, letterError, lettersLegal, lettersLegal, hc1, hc2]
  cases i <;> simp only [hillError, hmatrix, hletters]

/-- R108: the registers that report the matrix agree but for HDET. -/
theorem withCheck_congr {p q : Snapshot} (h : (keyMatrix p).residues = (keyMatrix q).residues) (r : Results) :
    r.withCheck (hillValidate p) = { r.withCheck (hillValidate q) with hdet := BitVec.ofInt 32 p.ops.det } := by
  obtain ⟨hdm, hinv⟩ := hillValidate_congr h
  simp only [Results.withCheck, HillCheck.valid, hillValidate_det, hdm, hinv]

/-- R108: the committed results agree but for HDET. -/
theorem hillResults_congr {p q : Snapshot} (h : (keyMatrix p).residues = (keyMatrix q).residues) (hc1 : p.c1 = q.c1)
    (hc2 : p.c2 = q.c2) (r : Results) (i : Instr) :
    hillResults r p i = { hillResults r q i with hdet := BitVec.ofInt 32 p.ops.det } := by
  cases i <;>
    simp only [hillResults, withCheck_congr h, hillInverse_congr h, hillApply_congr h, hc1, hc2, Results.withInverse,
      Results.withPair]

/-! ### A pair there and back -/

/-- A pair command that transforms the snapshot's letters by a matrix of the snapshot, when its checks hold. -/
def TransformsPair (i : Instr) (matrix : Snapshot → Matrix2) : Prop :=
  ∀ s : State, Int.gcd s.inFlight.ops.det 26 = 1 → s.inFlight.ops.hinC1.toNat ≤ 25 → s.inFlight.ops.hinC2.toNat ≤ 25 →
    ∃ t, exec i s = .next t ∧
      t.res.o1.toNat = (hillApply (matrix s.inFlight) s.inFlight.c1 s.inFlight.c2).1 ∧
      t.res.o2.toNat = (hillApply (matrix s.inFlight) s.inFlight.c1 s.inFlight.c2).2

/-- HILL_ENC transforms by the key matrix (R105). -/
theorem hillEnc_transformsPair : TransformsPair .hillEnc keyMatrix := fun s hgcd h1 h2 =>
  ⟨_, exec_hill_of_checked (by decide) (pairError_of_legal hgcd h1 h2), hillResults_hillEnc_toNat s.res s.inFlight⟩

/-- HILL_DEC transforms by the inverse matrix (R106). -/
theorem hillDec_transformsPair : TransformsPair .hillDec hillInverse := fun s hgcd h1 h2 =>
  ⟨_, exec_hill_of_checked (by decide) (pairError_of_legal hgcd h1 h2), hillResults_hillDec_toNat s.res s.inFlight⟩

/-- A pair command undoes another one whose matrix its own inverts, in any state with the same key matrix (R109). -/
theorem TransformsPair.undo {i j : Instr} {a b : Snapshot → Matrix2} (hi : TransformsPair i a) (hj : TransformsPair j b)
    {s : State} (hgcd : Int.gcd s.inFlight.ops.det 26 = 1)
    (hinv : ∀ q : Snapshot, keyMatrix q = keyMatrix s.inFlight → (b q).residues * (a s.inFlight).residues = 1)
    (h1 : s.inFlight.ops.hinC1.toNat ≤ 25) (h2 : s.inFlight.ops.hinC2.toNat ≤ 25) :
    ∃ t, exec i s = .next t ∧
      ∀ u : State, u.inFlight.ops = { s.inFlight.ops with hinC1 := t.res.o1, hinC2 := t.res.o2 } →
        ∃ v, exec j u = .next v ∧ v.res.o1 = s.inFlight.ops.hinC1 ∧ v.res.o2 = s.inFlight.ops.hinC2 := by
  obtain ⟨t, ht, ho1, ho2⟩ := hi s hgcd h1 h2
  obtain ⟨hlt1, hlt2⟩ := hillApply_lt (a s.inFlight) s.inFlight.c1 s.inFlight.c2
  refine ⟨t, ht, fun u hu => ?_⟩
  have hmatrix : keyMatrix u.inFlight = keyMatrix s.inFlight := by
    simp only [keyMatrix, Snapshot.m00, Snapshot.m01, Snapshot.m10, Snapshot.m11, hu]
  have hc1 : u.inFlight.c1 = (hillApply (a s.inFlight) s.inFlight.c1 s.inFlight.c2).1 := by rw [Snapshot.c1, hu, ← ho1]
  have hc2 : u.inFlight.c2 = (hillApply (a s.inFlight) s.inFlight.c1 s.inFlight.c2).2 := by rw [Snapshot.c2, hu, ← ho2]
  obtain ⟨v, hv, hv1, hv2⟩ := hj u (by rw [hu]; exact hgcd) (by rw [← Snapshot.c1]; omega) (by rw [← Snapshot.c2]; omega)
  have hback : hillApply (b u.inFlight) u.inFlight.c1 u.inFlight.c2 = (s.inFlight.c1, s.inFlight.c2) := by
    rw [hc1, hc2]
    exact hillApply_hillApply (hinv _ hmatrix) h1 h2
  rw [hback] at hv1 hv2
  exact ⟨v, hv, BitVec.eq_of_toNat_eq hv1, BitVec.eq_of_toNat_eq hv2⟩

end Sys2Proof.Machine

namespace Sys2Proof.Proofs

open Sys2Proof.Machine

/-- Settles O18: HILL_CHECK has no check that could fail, and it commits what `hill_validate` reports. -/
theorem hillCheckReportsTheMatrix : Obligations.HillCheckReportsTheMatrix :=
  ⟨decode_encode .hillCheck, fun _ => ⟨_, exec_hill_of_checked (by decide) rfl, hillResults_reports .., rfl⟩⟩

/-- Settles O19: the matrix check decides between the inverse and code 1. -/
theorem hillInvWritesTheInverse : Obligations.HillInvWritesTheInverse := by
  refine ⟨decode_encode .hillInv, fun s => ⟨fun hgcd => ?_, fun hgcd => ?_⟩⟩
  · exact ⟨_, exec_hill_of_checked (by decide) (matrixError_eq_none_iff.2 hgcd), hillResults_reports ..,
      hillResults_holdsInverse _ _ (by decide), hillResults_hvalid _ _ hgcd, rfl⟩
  · exact exec_hill_of_failed (i := .hillInv) (by decide) (matrixError_of_invalid hgcd)

/-- Settles O20: the two checks in order, then the pair transformed by the key matrix. -/
theorem hillEncTransformsThePair : Obligations.HillEncTransformsThePair := by
  refine ⟨decode_encode .hillEnc, fun s => ⟨fun hgcd h1 h2 => ?_, fun hgcd => ?_, fun hgcd hc => ?_⟩⟩
  · obtain ⟨ho1, ho2⟩ := hillResults_hillEnc_toNat s.res s.inFlight
    exact ⟨_, exec_hill_of_checked (by decide) (pairError_of_legal hgcd h1 h2), hillResults_reports ..,
      hillResults_hvalid _ _ hgcd, (congrArg Nat.cast ho1).trans (mod26_cast _),
      (congrArg Nat.cast ho2).trans (mod26_cast _), rfl⟩
  · exact exec_hill_of_failed (i := .hillEnc) (by decide) (pairError_of_invalid hgcd)
  · exact exec_hill_of_failed (i := .hillEnc) (by decide) (pairError_of_illegal hgcd hc)

/-- Settles O21: the same checks, then the pair transformed by the inverse computed from the key matrix. -/
theorem hillDecTransformsByTheInverse : Obligations.HillDecTransformsByTheInverse := by
  refine ⟨decode_encode .hillDec, fun s => ⟨fun hgcd h1 h2 => ?_, fun hgcd => ?_, fun hgcd hc => ?_⟩⟩
  · obtain ⟨ho1, ho2⟩ := hillResults_hillDec_toNat s.res s.inFlight
    rw [hillApply_hillInverse (s.res.withCheck (hillValidate s.inFlight))] at ho1 ho2
    exact ⟨_, exec_hill_of_checked (by decide) (pairError_of_legal hgcd h1 h2), hillResults_reports ..,
      hillResults_holdsInverse _ _ (by decide), hillResults_hvalid _ _ hgcd, ho1, ho2, rfl⟩
  · exact exec_hill_of_failed (i := .hillDec) (by decide) (pairError_of_invalid hgcd)
  · exact exec_hill_of_failed (i := .hillDec) (by decide) (pairError_of_illegal hgcd hc)

/-- Settles O22: over the residues the inverse matrix is the adjugate times the determinant's inverse, so it inverts the
key matrix on both sides, and each pair command undoes the other. -/
theorem hillEncodeAndDecodeUndoEachOther : Obligations.HillEncodeAndDecodeUndoEachOther := by
  rintro s o rfl hgcd
  refine ⟨⟨_, exec_hill_of_checked (by decide) (matrixError_eq_none_iff.2 hgcd), ?_⟩, fun h1 h2 => ⟨?_, ?_⟩⟩
  · obtain ⟨⟨h00, h01⟩, h10, h11⟩ := withInverse_toNat (s.res.withCheck (hillValidate s.inFlight)) s.inFlight
    obtain ⟨⟨hr00, hr01⟩, hr10, hr11⟩ := Matrix2.residues_mul_eq_one_iff.1 (keyMatrix_mul_hillInverse hgcd)
    obtain ⟨⟨hl00, hl01⟩, hl10, hl11⟩ := Matrix2.residues_mul_eq_one_iff.1 (hillInverse_mul_keyMatrix hgcd)
    simp only [State.commit_res, hillResults, h00, h01, h10, h11]
    exact ⟨hr00, hr01, hr10, hr11, hl00, hl01, hl10, hl11⟩
  · refine hillEnc_transformsPair.undo hillDec_transformsPair hgcd (fun q hq => ?_) h1 h2
    rw [hillInverse_congr (congrArg Matrix2.residues hq)]
    exact hillInverse_mul_keyMatrix hgcd
  · refine hillDec_transformsPair.undo hillEnc_transformsPair hgcd (fun q hq => ?_) h1 h2
    rw [hq]
    exact keyMatrix_mul_hillInverse hgcd

/-- Settles O24: both states fail the same check, or commit results that agree but for HDET. -/
theorem hillResultsDependOnResiduesOnly : Obligations.HillResultsDependOnResiduesOnly := by
  rintro s s' t t' o o' i hi rfl rfl hops hres hstatus h00 h01 h10 h11 ht ht'
  have hmatrix : (keyMatrix s'.inFlight).residues = (keyMatrix s.inFlight).residues :=
    Matrix2.residues_eq_iff.2 ⟨⟨h00.symm, h01.symm⟩, h10.symm, h11.symm⟩
  have hc1 : s'.inFlight.c1 = s.inFlight.c1 := by rw [Snapshot.c1, hops]; rfl
  have hc2 : s'.inFlight.c2 = s.inFlight.c2 := by rw [Snapshot.c2, hops]; rfl
  have herror := hillError_congr hmatrix hc1 hc2 i
  cases hcheck : hillError s.inFlight i with
  | some c =>
    rw [exec_hill_of_failed hi hcheck] at ht
    rw [exec_hill_of_failed hi (herror.trans hcheck)] at ht'
    cases ht; cases ht'
    simp [hres, hstatus]
  | none =>
    rw [exec_hill_of_checked hi hcheck] at ht
    rw [exec_hill_of_checked hi (herror.trans hcheck)] at ht'
    cases ht; cases ht'
    simp [hres, hstatus, hillResults_congr hmatrix hc1 hc2]

/-- Settles O23: below 26 a residue is its own `mod26`, and the table is twelve scans. -/
theorem inverseScanFindsExactlyTheUnits : Obligations.InverseScanFindsExactlyTheUnits := by
  refine ⟨fun dm hdm => ?_, by decide⟩
  have hscan := hillScan_ne_zero_iff dm
  rwa [mod26_natCast, Nat.mod_eq_of_lt hdm] at hscan

end Sys2Proof.Proofs
end

section
/-! SUPPORT. The Feistel unit (spec/41_feistel.md): the tables as bit moves, the key schedule as two composed tables, the
block function and its inverse, how the one-block and the buffer commands end, and the statements about them. -/

namespace Sys2Proof.Machine

/-! ### A permutation table as a bit move -/

/-- The input bit that bit k of the output copies, under a table of R120 on an n-bit input (R10, R121). Past the table's
last place it is bit n, which no n-bit value has. -/
def sourceBit (n : Nat) (table : List Nat) (k : Nat) : Nat := n - table.reverse.getD k 0

/-- The last place of a table gives the least significant bit (R10). -/
theorem perm_append_singleton {n : Nat} (m : Nat) (table : List Nat) (pos : Nat) (v : BitVec n) :
    perm m (table ++ [pos]) v = (perm m table v).shiftConcat (v.getLsbD (n - pos)) := by
  rw [perm, List.foldl_concat, ← perm]

/-- R10: every bit that `perm` produces is the input bit the table names. -/
theorem getLsbD_perm {n m : Nat} (table : List Nat) (v : BitVec n) {k : Nat} (hk : k < m) :
    (perm m table v).getLsbD k = v.getLsbD (sourceBit n table k) := by
  induction table using List.reverseRecOn generalizing k with
  | nil => simp [perm, sourceBit]
  | append_singleton table pos ih =>
    rw [perm_append_singleton, BitVec.getLsbD_shiftConcat]
    cases k with
    | zero => simp [sourceBit, hk]
    | succ j => simpa [sourceBit, hk] using ih (Nat.lt_of_succ_lt hk)

/-- A table moves register bits as a list of moves says, when the two name the same input bits (R121). -/
theorem getLsbD_perm_of_moves {n m : Nat} {table moves : List Nat}
    (h : ∀ k < m, sourceBit n table k = moves.getD k 0) (v : BitVec n) {k : Nat} (hk : k < m) :
    (perm m table v).getLsbD k = v.getLsbD (moves.getD k 0) := by
  rw [getLsbD_perm table v hk, h k hk]

/-- Two permutations in a row are the one whose table names the same input bits. -/
theorem perm_perm {n k m : Nat} {first second whole : List Nat}
    (h : ∀ j < m, sourceBit k second j < k ∧ sourceBit n first (sourceBit k second j) = sourceBit n whole j)
    (v : BitVec n) : perm m second (perm k first v) = perm m whole v := by
  refine BitVec.eq_of_getLsbD_eq fun j hj => ?_
  obtain ⟨hlt, hsource⟩ := h j hj
  rw [getLsbD_perm second _ hj, getLsbD_perm first v hlt, hsource, getLsbD_perm whole v hj]

/-- A table that leaves every bit in its place. -/
theorem perm_eq_self {n : Nat} {table : List Nat} (h : ∀ k < n, sourceBit n table k = k) (v : BitVec n) :
    perm n table v = v :=
  BitVec.eq_of_getLsbD_eq fun k hk => by rw [getLsbD_perm table v hk, h k hk]

/-- IP⁻¹ undoes IP (R121): together they are the table 1..8. -/
theorem permIPInv_permIP (v : Byte) : perm 8 tableIPInv (perm 8 tableIP v) = v :=
  (perm_perm (whole := List.range' 1 8) (by decide) v).trans (perm_eq_self (by decide) v)

/-- IP undoes IP⁻¹, too. -/
theorem permIP_permIPInv (v : Byte) : perm 8 tableIP (perm 8 tableIPInv v) = v :=
  (perm_perm (whole := List.range' 1 8) (by decide) v).trans (perm_eq_self (by decide) v)

/-! ### The key schedule -/

/-- A left rotation, bit by bit (R10). -/
theorem getLsbD_rol5 (h : BitVec 5) {s k : Nat} (hs : s < 5) (hk : k < 5) :
    (rol5 h s).getLsbD k = h.getLsbD ((k + (5 - s)) % 5) := by
  rw [rol5, BitVec.getLsbD_or, BitVec.getLsbD_shiftLeft, BitVec.getLsbD_ushiftRight]
  by_cases hks : k < s
  · rw [Nat.mod_eq_of_lt (by omega), Nat.add_comm]
    simp [hks]
  · have hmod : (k + (5 - s)) % 5 = k - s := by omega
    simp [hks, hk, hmod, BitVec.getLsbD_of_ge h (5 - s + k) (by omega)]

/-- Both 5-bit halves rotated left by `s` places, as a table on the whole 10 bits (R122). -/
def rotationTable (s : Nat) : List Nat := [1, 2, 3, 4, 5].rotate s ++ [6, 7, 8, 9, 10].rotate s

/-- The rotation table's bit moves: each half turns on its own. -/
theorem sourceBit_rotationTable : ∀ s < 5, ∀ k < 10,
    sourceBit 10 (rotationTable s) k = if k < 5 then (k + (5 - s)) % 5 else 5 + (k - 5 + (5 - s)) % 5 := by
  decide

/-- Rotating the two halves of ten bits is a permutation of them (R122). -/
theorem rol5_halves (x : BitVec 10) {s : Nat} (hs : s < 5) :
    rol5 (x.extractLsb' 5 5) s ++ rol5 (x.extractLsb' 0 5) s = perm 10 (rotationTable s) x := by
  refine BitVec.eq_of_getLsbD_eq fun k hk => ?_
  rw [getLsbD_perm _ x hk, sourceBit_rotationTable s hs k hk, BitVec.getLsbD_append]
  by_cases hlow : k < 5
  · rw [if_pos hlow, if_pos hlow, getLsbD_rol5 _ hs hlow, BitVec.getLsbD_extractLsb']
    simp [Nat.mod_lt]
  · rw [if_neg hlow, if_neg hlow, getLsbD_rol5 _ hs (by omega), BitVec.getLsbD_extractLsb']
    simp [Nat.mod_lt]

/-- The halves rotated by 1, as one table on the key: P10, then the rotation (R122). -/
theorem rotatedHalves_one (key : BitVec 10) : rotatedHalves key 1 = perm 10 [5, 2, 7, 4, 3, 1, 9, 8, 6, 10] key := by
  rw [rotatedHalves, rol5_halves _ (by decide)]
  exact perm_perm (by decide) key

/-- K1 as one table on the key (R122). -/
theorem subkey1_eq_perm (key : BitVec 10) : subkey1 key = perm 8 [1, 7, 9, 4, 8, 3, 10, 6] key := by
  rw [subkey1, rotatedHalves_one]
  exact perm_perm (by decide) key

/-- K2 as one table on the key: the rotated halves, rotated by 2 more, then P8 (R122). -/
theorem subkey2_eq_perm (key : BitVec 10) : subkey2 key = perm 8 [8, 3, 6, 5, 10, 2, 9, 1] key := by
  have hrotated : perm 10 (rotationTable 2) (rotatedHalves key 1) = perm 10 [7, 4, 3, 5, 2, 8, 6, 10, 1, 9] key := by
    rw [rotatedHalves_one]
    exact perm_perm (by decide) key
  rw [subkey2, rol5_halves _ (by decide), hrotated]
  exact perm_perm (by decide) key

/-! ### The block function -/

/-- The block function on the halves of the permuted block (R125). -/
theorem sdesBlock_of_halves {b : Byte} {l r : BitVec 4} (h : l ++ r = perm 8 tableIP b) (ka kb : Byte) :
    sdesBlock b ka kb = perm 8 tableIPInv (sdesRounds l r ka kb) := by
  rw [sdesBlock, ← h, BitVec.extractLsb'_append_eq_left, BitVec.extractLsb'_append_eq_right]

/-- The two rounds with the subkeys swapped, on the halves that the two rounds leave, give the halves back (R131): the
second round's XOR is undone first. -/
theorem sdesRounds_sdesRounds (l r : BitVec 4) (ka kb : Byte) :
    sdesRounds (r ^^^ sdesF (l ^^^ sdesF r ka) kb) (l ^^^ sdesF r ka) kb ka = l ++ r := by
  simp only [sdesRounds, xor_cancel_right]

/-- R131: the block function with the subkeys swapped undoes it. -/
theorem sdesBlock_sdesBlock (b ka kb : Byte) : sdesBlock (sdesBlock b ka kb) kb ka = b := by
  obtain ⟨l, r, hb⟩ : ∃ l r : BitVec 4, l ++ r = perm 8 tableIP b := ⟨_, _, BitVec.extractLsb'_append_extractLsb'⟩
  have hpermuted : perm 8 tableIP (sdesBlock b ka kb) = sdesRounds l r ka kb := by
    rw [sdesBlock_of_halves hb, permIP_permIPInv]
  rw [sdesBlock_of_halves hpermuted.symm, sdesRounds_sdesRounds, hb, permIPInv_permIP]

/-! ### How the one-block commands end -/

/-- SDES_ENC and SDES_DEC with a key and a whole block commit SOUT (R126, R127). -/
theorem blockCommand_of_checked {s : State} (hk : s.inFlight.kvalid = true) (hlen : s.inFlight.ops.blen = 8)
    (ka kb : Byte) :
    blockCommand s ka kb = .next (s.commit { s.res with bout := sdesBlock s.inFlight.ops.bin ka kb } s.mem) := by
  simpa [hk, hlen] using blockCommand_cases s ka kb

/-- Without a key they end in code 9, whatever the block's length (R126, R127). -/
theorem blockCommand_of_noKey {s : State} (hk : s.inFlight.kvalid = false) (ka kb : Byte) :
    blockCommand s ka kb = .next (s.fail .keyNotScheduled) := by
  simpa [hk] using blockCommand_cases s ka kb

/-- Under a key a block of another length ends in code 3 (R126, R127). -/
theorem blockCommand_of_badLength {s : State} (hk : s.inFlight.kvalid = true) (hlen : s.inFlight.ops.blen ≠ 8)
    (ka kb : Byte) : blockCommand s ka kb = .next (s.fail .invalidBlockLength) := by
  simpa [hk, show s.inFlight.ops.blen ≠ 8#4 from hlen] using blockCommand_cases s ka kb

/-! ### How the buffer commands end -/

section
variable {i : Instr} {s t : State} {f : Byte → Byte} {p : Snapshot}

/-- Without a key a buffer command ends in code 9 (R129, check 1). -/
theorem bufferCommand_of_noKey (hp : p = s.inFlight) (hk : p.kvalid = false) :
    bufferCommand i s f = .next (s.fail .keyNotScheduled) := by
  simpa [hk] using bufferCommand_cases i s f p hp

/-- Under a key a buffer that wraps ends in code 11 (R129, check 2). -/
theorem bufferCommand_of_wrap (hp : p = s.inFlight) (hk : p.kvalid = true)
    (hw : p.srcBlocks.wraps = true ∨ p.dstBlocks.wraps = true) :
    bufferCommand i s f = .next (s.fail .regionWrap) := by
  obtain hw | hw := hw <;> simpa [hk, hw] using bufferCommand_cases i s f p hp

/-- A partial overlap then ends in code 10 (R129, check 3). -/
theorem bufferCommand_of_overlap (hp : p = s.inFlight) (hk : p.kvalid = true) (hsrc : p.srcBlocks.wraps = false)
    (hdst : p.dstBlocks.wraps = false) (hne : p.ops.src ≠ p.ops.dst) (ho : p.srcBlocks.overlaps p.dstBlocks = true) :
    bufferCommand i s f = .next (s.fail .regionOverlap) := by
  simpa [hk, hsrc, hdst, hne, ho] using bufferCommand_cases i s f p hp

/-- On an ordinary footprint of the two buffers, the memory phase commits the buffer image. -/
theorem memoryPhase_bufferImage (h : s.FootprintOrdinary i) (hf : footprint i s.inFlight = [p.srcBlocks, p.dstBlocks]) :
    s.memoryPhase i (bufferAccesses p) (fun t => t.commit t.res (bufferImage t.mem p f)) =
      .next (s.commit s.res (bufferImage s.mem p f)) :=
  memoryPhase_ordinary h fun _ ha => hf ▸ bufferAccesses_covered ha

/-- With its checks passed on an ordinary footprint, a buffer command leaves the image of SRC in DST and every other byte
alone (R129). -/
theorem bufferCommand_writes_image (hf : footprint i s.inFlight = [p.srcBlocks, p.dstBlocks]) (hp : p = s.inFlight)
    (hk : p.kvalid = true) (hsrc : p.srcBlocks.wraps = false) (hdst : p.dstBlocks.wraps = false)
    (ho : p.ops.src = p.ops.dst ∨ p.srcBlocks.overlaps p.dstBlocks = false) (h : s.FootprintOrdinary i) :
    ∃ t, bufferCommand i s f = .next t ∧ t = s.completedWith s.res t.mem ∧
      (∀ k, k < p.byteCount → t.byteAt (p.dst + k) = f (s.byteAt (p.src + k))) ∧
      ∀ a, p.dstBlocks.contains a = false → t.byteAt a = s.byteAt a :=
  ⟨_, (bufferCommand_of_checked i f hp hk hsrc hdst ho).trans (memoryPhase_bufferImage h hf), rfl,
    fun _ hlt => read_bufferImage_in s.mem p f hlt, fun _ ha => read_bufferImage_out s.mem p f ha⟩

/-- On an ordinary footprint a buffer command that ends without an error has passed its checks and written the image. -/
theorem bufferCommand_succeeded (hf : footprint i s.inFlight = [p.srcBlocks, p.dstBlocks]) (hp : p = s.inFlight)
    (h : s.FootprintOrdinary i) (ht : bufferCommand i s f = .next t) (herr : t.status.err = false) :
    p.dstBlocks.wraps = false ∧ ∀ k, k < p.byteCount → t.byteAt (p.dst + k) = f (s.byteAt (p.src + k)) := by
  rcases bufferCommand_cases i s f p hp with ⟨_, hc⟩ | ⟨_, _, hc⟩ | ⟨_, _, _, _, _, hc⟩ | ⟨_, _, hdst, _, hc⟩
  case inr.inr.inr =>
    rw [hc, memoryPhase_bufferImage h hf] at ht
    cases ht
    exact ⟨hdst, fun _ hlt => read_bufferImage_in s.mem p f hlt⟩
  all_goals
    rw [hc] at ht
    cases ht
    cases herr

end

end Sys2Proof.Machine

namespace Sys2Proof.Proofs

open Sys2Proof.Machine

/-- Settles O25: each table names the input bits of its row of moves, and IP⁻¹ after IP names every bit itself. -/
theorem permutationTablesMoveTheseBits : Obligations.PermutationTablesMoveTheseBits :=
  ⟨fun v _ => getLsbD_perm_of_moves (by decide) v, fun v _ => getLsbD_perm_of_moves (by decide) v,
    fun v _ => getLsbD_perm_of_moves (by decide) v, fun v _ => getLsbD_perm_of_moves (by decide) v,
    fun v _ => getLsbD_perm_of_moves (by decide) v, fun v _ => getLsbD_perm_of_moves (by decide) v, permIPInv_permIP⟩

/-- Settles O26: sixteen lookups in each box. -/
theorem sboxLookupTable : Obligations.SboxLookupTable := ⟨by decide, by decide⟩

/-- Settles O27: each subkey is a composition of permutations, so it is one table on the key. -/
theorem sdesKeySchedulesBothSubkeys : Obligations.SdesKeySchedulesBothSubkeys := by
  refine ⟨decode_encode .sdesKey, fun s => ⟨fun hlen => ?_, fun hlen => ?_⟩⟩
  · rw [← subkey1_eq_perm, ← subkey2_eq_perm]
    exact if_neg (not_not.2 hlen)
  · exact if_pos hlen

/-- Settles O28: both commands are the one-block command with a subkey order, and the block function works on the halves
of the permuted block. -/
theorem blockCommandsRunTheBlockFunction : Obligations.BlockCommandsRunTheBlockFunction := by
  refine ⟨decode_encode .sdesEnc, decode_encode .sdesDec,
    fun s => ⟨fun hk hlen => ?success, fun hk => ?noKey, fun hk hlen => ?badLength⟩, ?blockFunction⟩
  case success => exact ⟨blockCommand_of_checked hk hlen .., blockCommand_of_checked hk hlen ..⟩
  case noKey => exact ⟨blockCommand_of_noKey hk .., blockCommand_of_noKey hk ..⟩
  case badLength => exact ⟨blockCommand_of_badLength hk hlen .., blockCommand_of_badLength hk hlen ..⟩
  case blockFunction =>
    rintro b ka kb l r _ _ _ _ _ _ hb rfl rfl rfl rfl rfl rfl
    exact sdesBlock_of_halves hb ka kb

/-- Settles O29: SDES_F has no check, and it commits the round function. -/
theorem sdesFEvaluatesTheRoundFunction : Obligations.SdesFEvaluatesTheRoundFunction :=
  ⟨decode_encode .sdesF, fun _ => ⟨_, rfl, rfl⟩⟩

/-- Settles O30: IP undoes IP⁻¹ in the middle, and the rounds run backwards. -/
theorem blockFunctionIsUndoneBySwappedSubkeys : Obligations.BlockFunctionIsUndoneBySwappedSubkeys := sdesBlock_sdesBlock

/-- Settles O31: SDES_ENCB is the buffer command with K1, K2. -/
theorem sdesEncbEncryptsTheBuffer : Obligations.SdesEncbEncryptsTheBuffer := by
  refine ⟨decode_encode .sdesEncb, ?_⟩
  rintro s p rfl
  exact ⟨bufferCommand_of_noKey rfl, bufferCommand_of_wrap rfl, bufferCommand_of_overlap rfl,
    bufferCommand_writes_image rfl rfl⟩

/-- Settles O32: SDES_DECB is the buffer command with K2, K1. -/
theorem sdesDecbDecryptsTheBuffer : Obligations.SdesDecbDecryptsTheBuffer := by
  refine ⟨decode_encode .sdesDecb, ?_⟩
  rintro s p rfl
  exact ⟨bufferCommand_of_noKey rfl, bufferCommand_of_wrap rfl, bufferCommand_of_overlap rfl,
    bufferCommand_writes_image rfl rfl⟩

/-- Settles O33: the bytes SDES_DECB reads are the encrypted ones, and the block function with the subkeys swapped
undoes each. -/
theorem decryptingAnEncryptedBufferRestoresIt : Obligations.DecryptingAnEncryptedBufferRestoresIt := by
  intro s t u hs hu ht herr hbytes hk hk1 hk2 hsrc hlen hdst ho
  obtain ⟨hwrap, hwritten⟩ := bufferCommand_succeeded rfl rfl hs ht herr
  have hbase : u.inFlight.src = s.inFlight.dst := congrArg BitVec.toNat hsrc
  have hcount : u.inFlight.byteCount = s.inFlight.byteCount := congrArg BitVec.toNat hlen
  have hblocks : u.inFlight.srcBlocks = s.inFlight.dstBlocks := congrArg₂ Region.mk hbase hcount
  obtain ⟨v, hv, hstatus, hdecrypted, _⟩ := bufferCommand_writes_image
    (f := fun b => sdesBlock b u.inFlight.k2 u.inFlight.k1) rfl rfl hk (hblocks ▸ hwrap) hdst ho hu
  refine ⟨v, hv, by rw [hstatus]; rfl, fun i hi => ?_⟩
  have hin : s.inFlight.dstBlocks.contains (s.inFlight.dst + i) = true :=
    (Region.contains_iff _ _).2 ⟨Nat.le_add_right _ _, Nat.add_lt_add_left hi _⟩
  have hencrypted : u.byteAt (s.inFlight.dst + i) =
      sdesBlock (s.byteAt (s.inFlight.src + i)) s.inFlight.k1 s.inFlight.k2 :=
    (hbytes _ hin).trans (hwritten i hi)
  rw [hdecrypted i (hcount ▸ hi), hbase, hencrypted, hk1, hk2, sdesBlock_sdesBlock]

end Sys2Proof.Proofs
end

section
/-! SUPPORT. A packed bit stream in memory (spec/42_bitstream.md R150, R152): its bits and its bytes read back, and the
statement about them. -/

namespace Sys2Proof.Machine

/-- R150: rounding the length up leaves room for every bit, so each one read back is the stream's own. -/
theorem bits_fill_packedByte (m : List Host.Cell) (a : Nat) (bs : List Bool) :
    bits (Memory.fill m a ((bs.length + 7) / 8) (fun x => packedByte bs (x - a))) a bs.length = bs := by
  refine List.ext_getElem (by simp [bits]) fun i _ hi => ?_
  have hbit := streamBit_packed m a bs (n := (bs.length + 7) / 8) (i := i) (by omega)
  simpa [bits, hi] using hbit

/-- R152: a stored byte is the stream's block of the same index. -/
theorem read_fill_packedByte (m : List Host.Cell) (a : Nat) (bs : List Bool) {n k : Nat} (hk : k < n) :
    Memory.read (Memory.fill m a n (fun x => packedByte bs (x - a))) (a + k) = packedByte bs k := by
  rw [Memory.read_fill_in (by omega) (by omega), Nat.add_sub_cancel_left]

end Sys2Proof.Machine

namespace Sys2Proof.Proofs

open Sys2Proof.Machine

/-- Settles O34: the stream comes back bit by bit, and each filled byte is the block of its index. -/
theorem packedBytesReadBackAsTheStream : Obligations.PackedBytesReadBackAsTheStream := by
  intro m a bs
  refine ⟨bits_fill_packedByte m a bs, List.map_congr_left fun k hk => ?_⟩
  exact (read_fill_packedByte m a bs (List.mem_range.1 hk)).symm

end Sys2Proof.Proofs
end

section
/-! SUPPORT. The LSB unit (spec/43_lsb.md R160 to R176): the checks of its three commands, what each leaves when they
pass, the delimiter's first place in a stream, and the statements about them. -/

namespace Sys2Proof.Machine

/-- A check that a command without an error has passed (R233). -/
theorem check_passed {s t : State} {b : Prop} [Decidable b] {c : ErrCode} {rest : Host.Outcome State Fault Refusal}
    (h : (if b then .next (s.fail c) else rest) = .next t) (herr : t.status.err = false) : ¬ b ∧ rest = .next t := by
  split at h
  · cases h; cases herr
  · exact ⟨‹_›, h⟩

/-- A PixelBuffer that does not wrap has fewer channels than there are addresses (R65, R161). -/
theorem channels_lt_of_not_wraps {base n : Nat} (h : (Region.mk base (4 * n)).wraps = false) : 3 * n < 2 ^ 32 := by
  have hfits : 4 * n = 0 ∨ base + 4 * n ≤ 2 ^ 32 := (Region.wraps_eq_false _).1 h
  omega

/-! ### LSB_EMBED: the checks -/

section
variable {s t : State} {p : Snapshot}

/-- A full payload longer than the capacity ends LSB_EMBED in code 4 (R170, check 1). -/
theorem execLsbEmbed_of_overCapacity (hp : p = s.inFlight) (hcap : 3 * p.pixels < p.payloadBits + 16) :
    execLsbEmbed s = .next (s.fail .capacityExceeded) := by
  subst hp
  exact if_pos hcap

/-- A full payload that fits, with a region that wraps, ends it in code 11 (R170, check 2). -/
theorem execLsbEmbed_of_wrap (hp : p = s.inFlight) (hcap : p.payloadBits + 16 ≤ 3 * p.pixels)
    (hwrap : p.srcPixels.wraps = true ∨ p.dstPixels.wraps = true ∨ p.payload.wraps = true) :
    execLsbEmbed s = .next (s.fail .regionWrap) := by
  subst hp
  exact (if_neg (Nat.not_lt.2 hcap)).trans (if_pos (by simpa [or_assoc] using hwrap))

/-- An output buffer over the carrier or the payload then ends it in code 10 (R170, check 3). -/
theorem execLsbEmbed_of_overlap (hp : p = s.inFlight) (hcap : p.payloadBits + 16 ≤ 3 * p.pixels)
    (hsrc : p.srcPixels.wraps = false) (hdst : p.dstPixels.wraps = false) (hpay : p.payload.wraps = false)
    (hover : p.dstPixels.overlaps p.srcPixels = true ∨ p.dstPixels.overlaps p.payload = true) :
    execLsbEmbed s = .next (s.fail .regionOverlap) := by
  subst hp
  exact (if_neg (Nat.not_lt.2 hcap)).trans
    ((if_neg (by simp [hsrc, hdst, hpay])).trans (if_pos (by simpa using hover)))

/-! ### LSB_EMBED: what it leaves -/

/-- The error-free end of LSB_EMBED: the stego buffer of the state's own memory, and its statistics (R170). -/
def State.embedEnd (s : State) (p : Snapshot) : State := embedFinish s p (stegoBuffer s.mem p)

/-- On an ordinary footprint the memory phase of LSB_EMBED is its error-free end. -/
theorem memoryPhase_embedEnd (hp : p = s.inFlight) (h : s.FootprintOrdinary .lsbEmbed) :
    s.memoryPhase .lsbEmbed (embedAccesses p) (fun t => embedFinish t p (stegoBuffer t.mem p)) =
      .next (s.embedEnd p) :=
  memoryPhase_ordinary h fun _ ha => hp ▸ embedAccesses_covered.1 ha

/-- On an ordinary footprint an LSB_EMBED without an error had its payload fit and its output buffer not wrap, and it
left its error-free end. -/
theorem execLsbEmbed_succeeded (hp : p = s.inFlight) (h : s.FootprintOrdinary .lsbEmbed)
    (ht : execLsbEmbed s = .next t) (herr : t.status.err = false) :
    p.payloadBits + 16 ≤ 3 * p.pixels ∧ p.dstPixels.wraps = false ∧ t = s.embedEnd p := by
  subst hp
  obtain ⟨hcap, ht⟩ := check_passed ht herr
  obtain ⟨hwrap, ht⟩ := check_passed ht herr
  obtain ⟨-, ht⟩ := check_passed ht herr
  obtain ⟨⟨-, hdst⟩, -⟩ : (s.inFlight.srcPixels.wraps = false ∧ s.inFlight.dstPixels.wraps = false) ∧
      s.inFlight.payload.wraps = false := by simpa using hwrap
  rw [memoryPhase_embedEnd rfl h] at ht
  cases ht
  exact ⟨Nat.not_lt.1 hcap, hdst, rfl⟩

/-- A byte of the output buffer is the stego buffer's (R170). -/
theorem embedEnd_byteAt (s : State) {q : Nat} (hq : q < 4 * p.pixels) :
    (s.embedEnd p).byteAt (p.dst + q) = (stegoBuffer s.mem p).getD q 0 := by
  refine (Memory.read_fill_in (Nat.le_add_right _ _) (Nat.add_lt_add_left hq _)).trans ?_
  rw [Nat.add_sub_cancel_left]

/-- A walked byte of the output buffer carries its stream bit in the low bit (R170). -/
theorem embedEnd_walked (s : State) {j : Nat} (hcap : p.payloadBits + 16 ≤ 3 * p.pixels) (hj : j < p.payloadBits + 16) :
    (s.embedEnd p).byteAt (p.dst + walk j) = withLsb (s.byteAt (p.src + walk j)) (s.fullBit p j) := by
  rw [embedEnd_byteAt s (walk_lt (Nat.lt_of_lt_of_le hj hcap)), stegoBuffer_walked s p hj hcap]

/-- A byte of the output buffer that the walk does not reach is the carrier's (R170). -/
theorem embedEnd_unwalked (s : State) {q : Nat} (hq : q < 4 * p.pixels) (h : ∀ j, j < p.payloadBits + 16 → walk j ≠ q) :
    (s.embedEnd p).byteAt (p.dst + q) = s.byteAt (p.src + q) := by
  rw [embedEnd_byteAt s hq, stegoBuffer_other s p hq h]

/-- LSB_EMBED leaves every byte outside the output buffer alone (R66). -/
theorem embedEnd_outside (s : State) {a : Nat} (ha : p.dstPixels.contains a = false) :
    (s.embedEnd p).byteAt a = s.byteAt a :=
  Memory.read_fill_out ((Region.contains_eq_false _ _).1 ha)

/-- The SSE register holds the exact sum over the carrier and the output buffer (R163, R170). -/
theorem embedEnd_sse (s : State) (p : Snapshot) : (s.embedEnd p).res.sse =
    sse (fun q => s.byteAt (p.src + q)) (fun q => (s.embedEnd p).byteAt (p.dst + q)) p.pixels :=
  (withSse_sse _ (sse_lt ..)).trans (sse_congr fun _ hq => ⟨rfl, (embedEnd_byteAt s hq).symm⟩)

/-- PSNR_INF says whether that sum is 0 (R170). -/
theorem embedEnd_psnrInf_iff (s : State) (p : Snapshot) :
    (s.embedEnd p).res.psnrInf = true ↔ (s.embedEnd p).res.sse = 0 :=
  withSse_psnrInf_iff _ (sse_lt ..)

/-! ### LSB_EMBED: the distortion -/

/-- The sum of squared differences goes along the channel walk (R162, R163). -/
theorem sse_eq_sum_walk (f g : Nat → Byte) (n : Nat) :
    sse f g n = ∑ j ∈ Finset.range (3 * n), sqDiff (f (walk j)) (g (walk j)) := by
  induction n with
  | zero => rfl
  | succ n ih =>
    have hpixel : ∀ c < 3, walk (3 * n + c) = 4 * n + c := fun c hc => by unfold walk; omega
    have hred : walk (3 * n) = 4 * n := hpixel 0 (by decide)
    rw [sse, ih, Nat.mul_succ, Finset.sum_range_succ, Finset.sum_range_succ, Finset.sum_range_succ, hred,
      hpixel 1 (by decide), hpixel 2 (by decide), Nat.add_assoc, Nat.add_assoc, Nat.add_assoc]

/-- Replacing the low bit costs 1 where the bit was another, else nothing (R173). -/
theorem sqDiff_withLsb (b : Byte) (bit : Bool) : sqDiff b (withLsb b bit) = if (bit != b.getLsbD 0) = true then 1 else 0 := by
  rw [sqDiff, ← Int.natAbs_neg, neg_sub, withLsb_diff]
  by_cases h : bit = b.getLsbD 0 <;> simp [h]

/-- The numbers below n that pass a test, counted as a sum. -/
theorem length_filter_range (f : Nat → Bool) (n : Nat) :
    ((List.range n).filter f).length = ∑ j ∈ Finset.range n, if f j = true then 1 else 0 := by
  rw [← Finset.card_filter, ← Nat.count_eq_card_filter_range, Nat.count, List.countP_eq_length_filter]
  simp only [Bool.decide_eq_true]

/-- The walked channels whose low bit LSB_EMBED changes (R173). -/
def State.flippedBits (s : State) (p : Snapshot) : List Nat :=
  (List.range (p.payloadBits + 16)).filter fun j => s.fullBit p j != s.lsbAt p.src j

/-- What channel j of the walk adds to the sum that LSB_EMBED reports (R163). -/
def State.channelCost (s : State) (p : Snapshot) (j : Nat) : Nat :=
  sqDiff (s.byteAt (p.src + walk j)) ((s.embedEnd p).byteAt (p.dst + walk j))

/-- A channel of the full payload adds 1 exactly when its low bit changes (R173). -/
theorem channelCost_walked (s : State) {j : Nat} (hcap : p.payloadBits + 16 ≤ 3 * p.pixels)
    (hj : j < p.payloadBits + 16) :
    s.channelCost p j = if (s.fullBit p j != s.lsbAt p.src j) = true then 1 else 0 := by
  rw [State.channelCost, embedEnd_walked s hcap hj, sqDiff_withLsb]
  rfl

/-- A channel past the full payload adds nothing (R173). -/
theorem channelCost_unwalked (s : State) {j : Nat} (hj : j < 3 * p.pixels) (hpast : p.payloadBits + 16 ≤ j) :
    s.channelCost p j = 0 := by
  have hunwalked : ∀ i, i < p.payloadBits + 16 → walk i ≠ walk j := fun i hi he => by
    have := walk_injective he
    omega
  rw [State.channelCost, embedEnd_unwalked s (walk_lt hj) hunwalked, sqDiff_self]

/-- The sum counts the channels that LSB_EMBED changes (R173). -/
theorem embedEnd_sse_eq_flipped (s : State) (hcap : p.payloadBits + 16 ≤ 3 * p.pixels) :
    (s.embedEnd p).res.sse = (s.flippedBits p).length := by
  have hpast : ∀ j ∈ Finset.range (3 * p.pixels), j ∉ Finset.range (p.payloadBits + 16) → s.channelCost p j = 0 :=
    fun j hj hj' => channelCost_unwalked s (Finset.mem_range.1 hj) (by simpa using hj')
  calc (s.embedEnd p).res.sse
      = ∑ j ∈ Finset.range (3 * p.pixels), s.channelCost p j := by rw [embedEnd_sse, sse_eq_sum_walk]; rfl
    _ = ∑ j ∈ Finset.range (p.payloadBits + 16), s.channelCost p j :=
        (Finset.sum_subset (Finset.range_subset_range.2 hcap) hpast).symm
    _ = ∑ j ∈ Finset.range (p.payloadBits + 16), if (s.fullBit p j != s.lsbAt p.src j) = true then 1 else 0 :=
        Finset.sum_congr rfl fun j hj => channelCost_walked s hcap (Finset.mem_range.1 hj)
    _ = (s.flippedBits p).length := (length_filter_range _ _).symm

end

/-! ### The delimiter's first place -/

/-- The delimiter stands at position x of a stream and at no earlier one (R171). -/
def FirstDelimAt (stream : Nat → Bool) (x : Nat) : Prop := DelimAt stream x ∧ ∀ y, y < x → ¬ DelimAt stream y

/-- The first delimiter is seen in any stream that agrees up to its end. -/
theorem FirstDelimAt.congr {f g : Nat → Bool} {x : Nat} (h : FirstDelimAt f x) (hfg : ∀ j, j < x + 16 → g j = f j) :
    FirstDelimAt g x := by
  have hsame : ∀ y, y ≤ x → (DelimAt g y ↔ DelimAt f y) := fun y hy =>
    forall₂_congr fun k hk => by rw [hfg (y + k) (by omega)]
  exact ⟨(hsame x le_rfl).2 h.1, fun y hy => mt (hsame y (Nat.le_of_lt hy)).1 (h.2 y hy)⟩

/-- R175: a payload without the delimiter is followed by it, and no delimiter straddles its end, since one that did would
end inside the ones of DELIM. -/
theorem fullBit_firstDelimAt {s : State} {p : Snapshot} (h : ∀ y, y + 16 ≤ p.payloadBits → ¬ DelimAt (s.fullBit p) y) :
    FirstDelimAt (s.fullBit p) p.payloadBits := by
  refine ⟨fun k hk => ?_, fun y hy hd => ?_⟩
  · simp [State.fullBit]
  · by_cases hinside : y + 16 ≤ p.payloadBits
    · exact h y hinside hd
    · have hlast : s.fullBit p (y + 15) = false := hd 15 (by decide)
      have hones : s.fullBit p (y + 15) = true := by
        rw [State.fullBit, if_neg (by omega)]
        exact decide_eq_true (by omega)
      exact Bool.false_ne_true (hlast.symm.trans hones)

/-! ### LSB_EXTRACT -/

section
variable {s : State} {p : Snapshot}

/-- A wrap ends LSB_EXTRACT in code 11 (R171, check 1). -/
theorem execLsbExtract_of_wrap (hp : p = s.inFlight) (hwrap : p.srcPixels.wraps = true ∨ p.extractOut.wraps = true) :
    execLsbExtract s = .next (s.fail .regionWrap) := by
  subst hp
  exact if_pos (by simpa using hwrap)

/-- An output region over the buffer then ends it in code 10 (R171, check 2). -/
theorem execLsbExtract_of_overlap (hp : p = s.inFlight) (hsrc : p.srcPixels.wraps = false)
    (hout : p.extractOut.wraps = false) (hover : p.extractOut.overlaps p.srcPixels = true) :
    execLsbExtract s = .next (s.fail .regionOverlap) := by
  subst hp
  exact (if_neg (by simp [hsrc, hout])).trans (if_pos hover)

/-- With its checks passed on an ordinary footprint, LSB_EXTRACT ends as its walk does (R171). -/
theorem execLsbExtract_of_checked (hp : p = s.inFlight) (hsrc : p.srcPixels.wraps = false)
    (hout : p.extractOut.wraps = false) (hover : p.extractOut.overlaps p.srcPixels = false)
    (h : s.FootprintOrdinary .lsbExtract) : execLsbExtract s = .next (extractFinish s p) := by
  subst hp
  exact (if_neg (by simp [hsrc, hout])).trans
    ((if_neg (by simp [hover])).trans (memoryPhase_ordinary h fun _ ha => extractAccesses_covered ha))

/-- The bits of the walked stream before position x (R171). -/
def State.lsbBits (s : State) (buf x : Nat) : List Bool := (List.range x).map (s.lsbAt buf)

/-- The walk finds the bits before the first delimiter (R171). -/
theorem extracted_of_firstDelimAt {x : Nat} (hx : x + 16 ≤ 3 * p.pixels) (hd : FirstDelimAt (s.lsbAt p.src) x) :
    extracted s.mem p = some (s.lsbBits p.src x) := by
  rcases extracted_cases s p with ⟨y, -, hy, hfirst, he⟩ | ⟨hnone, -⟩
  · obtain rfl : y = x := by
      rcases Nat.lt_trichotomy y x with hlt | heq | hlt
      · exact absurd hy (hd.2 y hlt)
      · exact heq
      · exact absurd hd.1 (hfirst x hlt)
    exact he
  · exact absurd hd.1 (hnone x hx)

/-- The walk finds nothing in a stream without the delimiter (R171). -/
theorem extracted_of_noDelim (h : ∀ x, x + 16 ≤ 3 * p.pixels → ¬ DelimAt (s.lsbAt p.src) x) :
    extracted s.mem p = none := by
  rcases extracted_cases s p with ⟨x, hx, hd, -⟩ | ⟨-, he⟩
  · exact absurd hd (h x hx)
  · exact he

/-- The end of LSB_EXTRACT with x bits found: XBITS, and the bits packed at DST (R171). -/
def State.extractEnd (s : State) (p : Snapshot) (x : Nat) : State :=
  s.commit { s.res with xbits := BitVec.ofNat 32 x }
    (Memory.fill s.mem p.dst ((x + 7) / 8) (fun a => packedByte (s.lsbBits p.src x) (a - p.dst)))

/-- The number of bits is the position of the delimiter. -/
theorem lsbBits_length (s : State) (buf x : Nat) : (s.lsbBits buf x).length = x := by simp [State.lsbBits]

/-- A bit before the delimiter is the stream's, and past the end there is padding. -/
theorem lsbBits_getD (s : State) (buf x i : Nat) :
    (s.lsbBits buf x).getD i false = (decide (i < x) && s.lsbAt buf i) := by
  by_cases h : i < x <;> simp [State.lsbBits, List.getD_eq_getElem?_getD, h]

/-- LSB_EXTRACT with its checks passed and a first delimiter in reach (R171). -/
theorem execLsbExtract_of_firstDelimAt {x : Nat} (hp : p = s.inFlight) (hsrc : p.srcPixels.wraps = false)
    (hout : p.extractOut.wraps = false) (hover : p.extractOut.overlaps p.srcPixels = false)
    (h : s.FootprintOrdinary .lsbExtract) (hx : x + 16 ≤ 3 * p.pixels) (hd : FirstDelimAt (s.lsbAt p.src) x) :
    execLsbExtract s = .next (s.extractEnd p x) := by
  rw [execLsbExtract_of_checked hp hsrc hout hover h, extractFinish, extracted_of_firstDelimAt hx hd]
  simp only [lsbBits_length, State.extractEnd]

/-- XBITS is the number of bits found. -/
theorem extractEnd_xbits {x : Nat} (hsrc : p.srcPixels.wraps = false) (hx : x + 16 ≤ 3 * p.pixels) :
    (s.extractEnd p x).res.xbits.toNat = x := by
  have hlt := channels_lt_of_not_wraps hsrc
  exact Nat.mod_eq_of_lt (by omega)

/-- A bit of a byte that LSB_EXTRACT writes (R152, R171). -/
theorem extractEnd_bit (s : State) (p : Snapshot) {x k b : Nat} (hk : k < (x + 7) / 8) (hb : b < 8) :
    ((s.extractEnd p x).byteAt (p.dst + k)).getLsbD (7 - b) = (decide (8 * k + b < x) && s.lsbAt p.src (8 * k + b)) := by
  rw [State.byteAt, State.extractEnd, State.commit_mem, read_fill_packedByte _ _ _ hk, packedByte_bit _ _ hb, lsbBits_getD]

/-- The packed bits read back (R150, R171). -/
theorem bits_extractEnd (s : State) (p : Snapshot) (x : Nat) : bits (s.extractEnd p x).mem p.dst x = s.lsbBits p.src x := by
  have hback := bits_fill_packedByte s.mem p.dst (s.lsbBits p.src x)
  rw [lsbBits_length] at hback
  exact hback

end

/-! ### LSB_EXTRACT after LSB_EMBED -/

/-- The walked stream of a buffer that holds the bytes of an LSB_EMBED is the full payload, as far as it goes (R175). -/
theorem lsbAt_of_embedded {s u : State} {p : Snapshot} (hcap : p.payloadBits + 16 ≤ 3 * p.pixels)
    (h : ∀ a, p.dstPixels.contains a = true → u.byteAt a = (s.embedEnd p).byteAt a) {j : Nat}
    (hj : j < p.payloadBits + 16) : u.lsbAt p.dst j = s.fullBit p j := by
  have hin : p.dstPixels.contains (p.dst + walk j) = true :=
    (Region.contains_iff _ _).2 ⟨Nat.le_add_right _ _, Nat.add_lt_add_left (walk_lt (by omega)) _⟩
  have hbyte : u.byteAt (p.dst + walk j) = withLsb (s.byteAt (p.src + walk j)) (s.fullBit p j) :=
    (h _ hin).trans (embedEnd_walked s hcap hj)
  exact (congrArg (BitVec.getLsbD · 0) hbyte).trans (withLsb_lsb _ _)

/-- The bits that LSB_EXTRACT finds before a position within the payload are the payload's (R175). -/
theorem lsbBits_of_embedded {s u : State} {p : Snapshot} {x : Nat} (hx : x ≤ p.payloadBits)
    (h : ∀ j, j < p.payloadBits + 16 → u.lsbAt p.dst j = s.fullBit p j) :
    u.lsbBits p.dst x = bits s.mem p.paddr x := by
  refine List.map_congr_left fun j hj => ?_
  have hlt : j < p.payloadBits := Nat.lt_of_lt_of_le (List.mem_range.1 hj) hx
  rw [h j (by omega), State.fullBit, if_pos hlt]
  rfl

/-! ### PSNR_SSE -/

/-- A wrap ends PSNR_SSE in code 11 (R172). -/
theorem execPsnrSse_of_wrap {s : State} {p : Snapshot} (hp : p = s.inFlight)
    (hwrap : p.srcPixels.wraps = true ∨ p.refPixels.wraps = true) : execPsnrSse s = .next (s.fail .regionWrap) := by
  subst hp
  exact if_pos (by simpa using hwrap)

/-- The two forms of R176's formula are one: squaring the amplitude ratio doubles the logarithm. -/
theorem twenty_logb_amplitude {e n : Nat} (he : 0 < e) :
    20 * Real.logb 10 (255 / Real.sqrt ((e : ℝ) / (3 * n))) = 10 * Real.logb 10 (195075 * n / e) := by
  have hsquare : (255 / Real.sqrt ((e : ℝ) / (3 * n))) ^ 2 = 195075 * n / e := by
    rw [div_pow, Real.sq_sqrt (by positivity), div_div_eq_mul_div]
    norm_num
    ring
  rw [← hsquare, Real.logb_pow]
  ring

/-- The PSNR of a positive sum is the power form of R176. -/
theorem psnr_denotes_iff {e : Nat} (he : 0 < e) (n : Nat) (x : EReal) :
    (psnr e n).Denotes x ↔ x = ((10 * Real.logb 10 (195075 * n / e) : ℝ) : EReal) := by
  rw [psnr, if_neg (Nat.pos_iff_ne_zero.1 he), Psnr.Denotes]
  push_cast
  rfl

end Sys2Proof.Machine

namespace Sys2Proof.Proofs

open Sys2Proof.Machine

/-- Settles O36: past its checks LSB_EMBED commits the stego buffer, walked bytes and others. -/
theorem lsbEmbedWritesTheStegoBuffer : Obligations.LsbEmbedWritesTheStegoBuffer := by
  refine ⟨decode_encode .lsbEmbed, fun s p hp hcap hsrc hdst hpay hos hop hord => ⟨s.embedEnd p, ?_, rfl, ?cap, ?used,
    ?ptouch, fun j hj => ?walked, fun q hq hother => ?unwalked, fun a ha => embedEnd_outside s ha, ?sse,
    embedEnd_psnrInf_iff s p⟩⟩
  · exact (execLsbEmbed_of_checked hp hcap hsrc hdst hpay hos hop).trans (memoryPhase_embedEnd hp hord)
  case cap => exact Nat.mod_eq_of_lt (channels_lt_of_not_wraps hsrc)
  case used => exact Nat.mod_eq_of_lt (Nat.lt_of_le_of_lt hcap (channels_lt_of_not_wraps hsrc))
  case ptouch =>
    have hlt := channels_lt_of_not_wraps hsrc
    exact Nat.mod_eq_of_lt (show (p.payloadBits + 16 + 2) / 3 < 2 ^ 32 by omega)
  case walked => exact (embedEnd_walked s hcap hj).trans (withLsb_eq _ _)
  case unwalked => exact embedEnd_unwalked s hq fun j hj => walk_ne hother hj
  case sse => rw [embedEnd_sse, sse_eq_channelSse]

/-- Settles O37: the checks in the order the command makes them. -/
theorem lsbEmbedChecksInOrder : Obligations.LsbEmbedChecksInOrder :=
  fun _ _ hp => ⟨execLsbEmbed_of_overCapacity hp, execLsbEmbed_of_wrap hp, execLsbEmbed_of_overlap hp⟩

/-- Settles O38: a walked byte has its low bit replaced, any other is the carrier's, and the changed ones make up the
sum. -/
theorem embedFlipsAtMostOneBitPerChannel : Obligations.EmbedFlipsAtMostOneBitPerChannel := by
  intro s t p hp hord ht herr
  obtain ⟨hcap, -, rfl⟩ := execLsbEmbed_succeeded hp hord ht herr
  have hsse : (s.embedEnd p).res.sse = (s.flippedBits p).length := embedEnd_sse_eq_flipped s hcap
  refine ⟨fun q hq => ?nearby, fun q hq hne => ?walked, hsse, ?bound, ?infinite⟩
  case nearby =>
    by_cases hwalked : ∃ j, j < p.payloadBits + 16 ∧ walk j = q
    · obtain ⟨j, hj, rfl⟩ := hwalked
      rw [embedEnd_walked s hcap hj, withLsb_diff]
      split <;> decide
    · rw [embedEnd_unwalked s hq fun j hj he => hwalked ⟨j, hj, he⟩]
      simp
  case walked =>
    by_contra hunwalked
    exact hne (embedEnd_unwalked s hq fun j hj he => hunwalked ⟨j, hj, he.symm⟩)
  case bound =>
    rw [hsse]
    exact (List.length_filter_le _ _).trans_eq List.length_range
  case infinite =>
    rw [embedEnd_psnrInf_iff, hsse, List.length_eq_zero_iff]
    simp [State.flippedBits]

/-- Settles O39: the first delimiter fixes what the walk finds. -/
theorem lsbExtractReturnsTheBitsBeforeTheDelimiter : Obligations.LsbExtractReturnsTheBitsBeforeTheDelimiter := by
  refine ⟨decode_encode .lsbExtract, fun s p x hp hsrc hout hover hord hx hd hfirst => ?_⟩
  refine ⟨s.extractEnd p x, execLsbExtract_of_firstDelimAt hp hsrc hout hover hord hx ⟨hd, hfirst⟩, rfl,
    extractEnd_xbits hsrc hx, fun k b hk hb => extractEnd_bit s p hk hb, fun a ha => ?_⟩
  exact Memory.read_fill_out ((Region.contains_eq_false _ _).1 ha)

/-- Settles O40: the two checks in order, then a walk that finds nothing. -/
theorem lsbExtractErrors : Obligations.LsbExtractErrors := by
  refine fun s p hp => ⟨execLsbExtract_of_wrap hp, execLsbExtract_of_overlap hp, fun hsrc hout hover hord hnone =>
    ⟨s.failInFlight .delimiterNotFound [p.extractOut], ?_, failedInFlight_of_failInFlight s s.draws _ _⟩⟩
  rw [exec, execLsbExtract_of_checked hp hsrc hout hover hord, extractFinish, extracted_of_noDelim hnone]
  rfl

/-- Settles O41: the walked stream of the stego buffer starts with the full payload, whose first delimiter is the one in
the payload or else the one that ends it. -/
theorem extractReturnsWhatWasEmbedded : Obligations.ExtractReturnsWhatWasEmbedded := by
  intro s t u p p' hp hp' hs ht herr hbytes hsrc hnpix hu hout hover
  obtain ⟨hcap, hdst, rfl⟩ := execLsbEmbed_succeeded hp hs ht herr
  have hbase : p'.src = p.dst := congrArg BitVec.toNat hsrc
  have hpixels : p'.pixels = p.pixels := congrArg BitVec.toNat hnpix
  have hbuffer : p'.srcPixels = p.dstPixels := congrArg₂ Region.mk hbase (congrArg (4 * ·) hpixels)
  have hwrap : p'.srcPixels.wraps = false := hbuffer ▸ hdst
  have hstream : ∀ j, j < p.payloadBits + 16 → u.lsbAt p.dst j = s.fullBit p j := fun j hj =>
    lsbAt_of_embedded hcap hbytes hj
  have hreturns : ∀ x, x ≤ p.payloadBits → FirstDelimAt (s.fullBit p) x →
      ∃ v, exec .lsbExtract u = .next v ∧ v.status.err = false ∧ v.res.xbits.toNat = x ∧
        bits v.mem p'.dst x = bits s.mem p.paddr x := fun x hx hd => by
    have hreach : x + 16 ≤ 3 * p'.pixels := by omega
    have hfirst : FirstDelimAt (u.lsbAt p'.src) x := hbase ▸ hd.congr fun j hj => hstream j (by omega)
    refine ⟨u.extractEnd p' x, execLsbExtract_of_firstDelimAt hp' hwrap hout hover hu hreach hfirst, rfl,
      extractEnd_xbits hwrap hreach, ?_⟩
    rw [bits_extractEnd, hbase, lsbBits_of_embedded hx hstream]
  exact ⟨fun hnone => hreturns _ le_rfl (fullBit_firstDelimAt hnone),
    fun x hx hd hfirst => hreturns x (by omega) ⟨hd, hfirst⟩⟩

/-- Settles O42: past its check PSNR_SSE commits the sum, which fits the register. -/
theorem psnrSseSumsTheSquaredDifferences : Obligations.PsnrSseSumsTheSquaredDifferences := by
  refine ⟨decode_encode .psnrSse, fun s p hp => ⟨execPsnrSse_of_wrap hp, fun hsrc href hord => ?_⟩⟩
  have hsse := withSse_sse s.res (sse_lt (fun q => s.byteAt (p.src + q)) (fun q => s.byteAt (p.ref + q)) p)
  refine ⟨_, (execPsnrSse_of_checked hp hsrc href).trans
    (memoryPhase_ordinary hord fun _ ha => hp ▸ psnrAccesses_covered ha), rfl, ?_, ?_, withSse_psnrInf_iff _ (sse_lt ..)⟩
  · exact (congrArg Nat.cast hsse).trans (sse_eq_channelSse ..)
  · exact hsse.trans_le (sse_le ..)

/-- Settles O43: `psnr` is the power form, and the amplitude form equals it. -/
theorem psnrFormulasAgree : Obligations.PsnrFormulasAgree := by
  refine ⟨fun _ _ => Iff.rfl, fun e n x he _ => ⟨?_, psnr_denotes_iff he n x⟩⟩
  rw [twenty_logb_amplitude he]
  exact psnr_denotes_iff he n x

end Sys2Proof.Proofs
end

section
/-! SUPPORT. NOP (spec/44_control.md R190): how it ends, and the statement about it. -/

namespace Sys2Proof

/-- A word with a bit set above its opcode decodes to no command (R80). -/
theorem decode_ne_ok_of_reservedBits {w : Word} (h : w.extractLsb' 8 24 ≠ 0) (i : Instr) : decode w ≠ .ok i := by
  rw [decode_of_reservedBits h]
  exact nofun

namespace Machine

/-- NOP succeeds with the results and the memory it found (R190, R235). -/
theorem exec_nop (s : State) : exec .nop s = .next (s.completedWith s.res s.mem) :=
  congrArg Host.Outcome.next (s.commit_eq s.res s.mem)

end Machine
end Sys2Proof

namespace Sys2Proof.Proofs

open Sys2Proof.Machine

/-- Settles O17: the word 0 is NOP's own, 0x100 has a reserved bit set, and BUSY drops NOP's word as it drops any CMD
write. -/
theorem nopOnlyCompletes : Obligations.NopOnlyCompletes := by
  refine ⟨decode_encode .nop, decode_ne_ok_of_reservedBits (by decide), exec_nop, fun s w p hbusy => ?dropped⟩
  case dropped => exact busWrite_busy_dropped hbusy (by decide) (by decide) (by decide) (by decide) 0

end Sys2Proof.Proofs
end

section
/-! SUPPORT. How an event is accepted, completes or fails (spec/60_exceptions.md R230 to R241), what each leaves alone, the
invariant part by part, and the statements about them. -/

namespace Sys2Proof.Machine

/-! ### The interrupt level -/

/-- A register word has no bit of a field below the field's place. -/
theorem placed_getLsbD_below {n lo k : Nat} (x : BitVec n) (h : k < lo) : (placed x lo).getLsbD k = false := by
  simp [placed, h]

/-- A flag reads back at its own bit. -/
theorem flagAt_getLsbD_self (b : Bool) {lo : Nat} (h : lo < 32) : (flagAt b lo).getLsbD lo = b := by
  simp [flagAt, placed, h]

/-- Bit 0 of CTRL is IE (R23). -/
theorem readOffset_ctrl_ie (s : State) : (readOffset s 0x004).getLsbD 0 = s.ie := flagAt_getLsbD_self s.ie (by decide)

/-- Bit 1 of STATUS is DONE: BUSY stands below it, every other field above it (R24). -/
theorem readOffset_status_done (s : State) : (readOffset s 0x008).getLsbD 1 = s.status.done := by
  have hbusy : (flagAt s.phase.isBusy 0).getLsbD 1 = false := by cases s.phase.isBusy <;> rfl
  have habove (b : Bool) {lo : Nat} (h : 1 < lo) : (flagAt b lo).getLsbD 1 = false := placed_getLsbD_below _ h
  show s.statusWord.getLsbD 1 = _
  simp only [State.statusWord, BitVec.getLsbD_or, hbusy, flagAt_getLsbD_self, habove, placed_getLsbD_below,
    Nat.reduceLT, Bool.false_or, Bool.or_false]

/-! ### Acceptance and illegal words -/

/-- The opcode map assigns nothing outside its 14 opcodes (R83, R85). -/
theorem opcodeToInstr_eq_none {n : Nat}
    (h : n ∉ [0x00, 0x01, 0x02, 0x03, 0x04, 0x10, 0x11, 0x12, 0x13, 0x14, 0x15, 0x20, 0x21, 0x22]) :
    opcodeToInstr n = none := by
  cases hi : opcodeToInstr n with
  | none => rfl
  | some i =>
    obtain rfl := opcode_of_opcodeToInstr hi
    cases i <;> exact absurd (by decide) h

/-- A word with a reserved bit set or an unassigned opcode is illegal (R85). -/
theorem decode_illegal {w : Word} (h : w.extractLsb' 8 24 ≠ 0 ∨ opcodeToInstr (w.extractLsb' 0 8).toNat = none) :
    ∃ e, decode w = .error e := by
  by_cases hbits : w.extractLsb' 8 24 = 0
  · exact ⟨_, decode_of_unassigned hbits (h.resolve_left (not_not.2 hbits))⟩
  · exact ⟨_, decode_of_reservedBits hbits⟩

/-- In BUSY with an illegal word, the engine's move is that word's completion (R238). -/
theorem engineTurn_of_illegal {s : State} {w : Word} {p : Snapshot} {e : DecodeError} (hs : s.phase = .busy w p)
    (hd : decode w = .error e) : engineTurn s = execIllegal s := by
  simp [engineTurn, hs, hd]

/-- An accepted illegal word completes with code 7, and nothing else has changed since before its acceptance (R238). -/
theorem engineTurn_accept_illegal {w : Word} {e : DecodeError} (h : decode w = .error e) (s : State) :
    engineTurn (s.accept w) = .next (s.failedWith 7) :=
  (engineTurn_of_illegal rfl h).trans rfl

/-- In BUSY with a word that decodes, the engine's move is the command (R235). -/
theorem engineTurn_of_decoded {s : State} {w : Word} {p : Snapshot} {i : Instr} (hs : s.phase = .busy w p)
    (hd : decode w = .ok i) : engineTurn s = exec i s := by
  rw [decode_eq_ok_iff.1 hd] at hs
  exact engineTurn_encode hs

/-! ### How a command ends -/

/-- Codes 5 and 12 are those of the in-flight errors (R231, R237). -/
theorem ErrCode.code_inFlight_iff (c : ErrCode) : (c.code = 5 ∨ c.code = 12) ↔ (c = .busError ∨ c = .delimiterNotFound) := by
  cases c <;> decide

/-- A command ends with the status of a success or of an error (R235). -/
theorem Ends.status {i : Instr} {s t : State} (h : Ends i s t) :
    t.status = s.status.succeeded ∨ ∃ c, t.status = s.status.failed c := by
  rcases h with ⟨c, _, _, rfl⟩ | ⟨d, c, _, rfl⟩ | ⟨d, r, m, rfl, _⟩
  · exact .inr ⟨c, rfl⟩
  · exact .inr ⟨c, rfl⟩
  · exact .inl rfl

/-- However a command ends, it leaves the operand registers, CTRL and the host's side alone (R47, R235). -/
theorem Ends.frame {i : Instr} {s t : State} (h : Ends i s t) :
    t.ops = s.ops ∧ t.ie = s.ie ∧ t.platform = s.platform ∧ t.hostCache = s.hostCache ∧ t.inputs = s.inputs ∧
      t.observed = s.observed := by
  rcases h with ⟨c, _, _, rfl⟩ | ⟨d, c, _, rfl⟩ | ⟨d, r, m, rfl, _⟩ <;> exact ⟨rfl, rfl, rfl, rfl, rfl, rfl⟩

/-- However a command ends, it leaves WERR alone (R235). -/
theorem Ends.werr {i : Instr} {s t : State} (h : Ends i s t) : t.status.werr = s.status.werr := by
  rcases h.status with hst | ⟨c, hst⟩ <;> rw [hst] <;> rfl

/-! ### LSB_EXTRACT: the accessed bytes -/

section
variable {s : State} {p : Snapshot}

/-- With its checks passed, LSB_EXTRACT goes on to its memory phase, whatever is answered (R171). -/
theorem execLsbExtract_memoryPhase (hp : p = s.inFlight) (hsrc : p.srcPixels.wraps = false)
    (hout : p.extractOut.wraps = false) (hover : p.extractOut.overlaps p.srcPixels = false) :
    execLsbExtract s =
      s.memoryPhase .lsbExtract (extractAccesses s.mem p) (fun t => extractFinish t p) := by
  subst hp
  exact (if_neg (by simp [hsrc, hout])).trans (if_neg (by simp [hover]))

/-- A walked byte is accessed unless a delimiter is complete before it (R171). -/
theorem walk_mem_extractAccesses {j : Nat} (hj : j < 3 * p.pixels)
    (h : ∀ x, x + 16 ≤ j → ¬ DelimAt (s.lsbAt p.src) x) : p.src + walk j ∈ extractAccesses s.mem p := by
  rcases extracted_cases s p with ⟨x, _, hd, _, he⟩ | ⟨_, he⟩
  · have hreached : j < x + 16 := Nat.lt_of_not_le fun hx => h x hx hd
    simp only [extractAccesses, he, List.mem_append, List.mem_map, List.mem_range, List.length_map, List.length_range]
    exact .inl ⟨j, hreached, rfl⟩
  · simp only [extractAccesses, he, List.mem_map, List.mem_range]
    exact ⟨j, hj, rfl⟩

/-- Every byte of the payload before the first delimiter is accessed at DST (R171). -/
theorem dst_mem_extractAccesses {x k : Nat} (hx : x + 16 ≤ 3 * p.pixels) (hd : FirstDelimAt (s.lsbAt p.src) x)
    (hk : k < (x + 7) / 8) : p.dst + k ∈ extractAccesses s.mem p := by
  simp only [extractAccesses, extracted_of_firstDelimAt hx hd, lsbBits_length, List.mem_append, List.mem_map,
    List.mem_range]
  exact .inr ⟨k, hk, rfl⟩

end

/-! ### What changes WERR and IE -/

/-- The engine's move leaves CTRL.IE and WERR alone (R235, R241). -/
theorem engineTurn_keeps_ie_werr {s t : State} (h : engineTurn s = .next t) :
    t.ie = s.ie ∧ t.status.werr = s.status.werr := by
  rcases engineTurn_cases h with ⟨_, rfl⟩ | ⟨w, p, i, _, _, hexec⟩ | ⟨w, p, e, _, _, rfl⟩
  · exact ⟨rfl, rfl⟩
  · obtain ⟨_, hie, _⟩ := (exec_ends hexec).frame
    exact ⟨hie, (exec_ends hexec).werr⟩
  · exact ⟨rfl, rfl⟩

/-- A write other than to CTRL and STATUS leaves CTRL.IE alone, and never clears WERR (R239). -/
theorem writePlain_keeps_ie_werr (s : State) (r : Option Reg) (v : Word) :
    (writePlain s r v).ie = s.ie ∧ (s.status.werr = true → (writePlain s r v).status.werr = true) := by
  rcases writePlain_cases s r v with ⟨_, hw⟩ | ⟨_, hw | ⟨o, hw⟩⟩ <;> rw [hw]
  · exact ⟨rfl, fun _ => rfl⟩
  · exact ⟨rfl, id⟩
  · exact ⟨rfl, id⟩

/-- An event that clears WERR is a reset or a STATUS write with bit 3 set (R239). -/
theorem EventDoes.clears_werr {s t : State} {e : Input} (h : EventDoes s e t) (hs : s.status.werr = true)
    (ht : t.status.werr = false) :
    e = .rst ∨ (∃ v, v.getLsbD 1 = true ∧ e = .busWrite .word (s.platform.base + 0x004) v) ∨
      ∃ v, v.getLsbD 3 = true ∧ e = .busWrite .word (s.platform.base + 0x008) v := by
  cases h with
  | rst => exact .inl rfl
  | softReset hv => exact .inr (.inl ⟨_, hv, rfl⟩)
  | status v =>
    have hv : v.getLsbD 3 = true := by simpa [Status.w1c, hs] using ht
    exact .inr (.inr ⟨v, hv, rfl⟩)
  | engine h => exact absurd (ht.symm.trans ((engineTurn_keeps_ie_werr h).2.trans hs)) Bool.false_ne_true
  | plain v h1 h2 => exact absurd (ht.symm.trans ((writePlain_keeps_ie_werr s _ v).2 hs)) Bool.false_ne_true
  | elsewhere | ctrl | read | cachedRead | store | writeBack | cachedStore | dropped =>
    exact absurd (ht.symm.trans hs) Bool.false_ne_true

/-- An event that changes IE is `rst` or a CTRL write (R23, R241). -/
theorem EventDoes.changes_ie {s t : State} {e : Input} (h : EventDoes s e t) (hne : t.ie ≠ s.ie) :
    e = .rst ∨ ∃ v, e = .busWrite .word (s.platform.base + 0x004) v := by
  cases h with
  | rst => exact .inl rfl
  | softReset hv => exact .inr ⟨_, rfl⟩
  | ctrl hv => exact .inr ⟨_, rfl⟩
  | engine h => exact absurd (engineTurn_keeps_ie_werr h).1 hne
  | plain v h1 h2 => exact absurd (writePlain_keeps_ie_werr s _ v).1 hne
  | elsewhere | status | read | cachedRead | store | writeBack | cachedStore | dropped => exact absurd rfl hne

/-! ### The invariant, part by part -/

/-- What the invariant says of the result registers and flags. -/
structure Results.Sound (r : Results) : Prop where
  residues : r.hdetmod.toNat < 26 ∧ r.hdetinv.toNat < 26 ∧ r.i00.toNat < 26 ∧ r.i01.toNat < 26 ∧
    r.i10.toNat < 26 ∧ r.i11.toNat < 26 ∧ r.o1.toNat < 26 ∧ r.o2.toNat < 26
  hvalidIffInverse : r.hvalid = true ↔ r.hdetinv ≠ 0
  psnrInfZero : r.psnrInf = true → r.sseLo = 0 ∧ r.sseHi = 0
  usedWithinCap : r.used.toNat ≤ r.cap.toNat
  subkeysNeedKey : r.kvalid = false → r.k1 = 0 ∧ r.k2 = 0

/-- What the invariant says of the completion fields in any phase. -/
structure Status.Sound (st : Status) : Prop where
  errcodeNamed : st.errcode ≠ 6 ∧ st.errcode ≠ 13 ∧ st.errcode ≠ 14 ∧ st.errcode ≠ 15
  errIffCode : st.err = true ↔ st.errcode ≠ 0

/-- What the invariant says of the data a command commits: memory and the results. -/
structure State.DataSound (s : State) : Prop where
  memory : Memory.wf s.mem
  results : s.res.Sound

/-- What the invariant says of the host's cache. -/
def State.CacheSound (s : State) : Prop := Cache.wf s.hostCache ∧ (s.platform.coherent = true → s.hostCache = [])

theorem State.Inv.statusSound {s : State} (h : s.Inv) : s.status.Sound := ⟨h.errcodeNamed, h.errIffCode⟩

theorem State.Inv.dataSound {s : State} (h : s.Inv) : s.DataSound :=
  ⟨h.memory, h.residues, h.hvalidIffInverse, h.psnrInfZero, h.usedWithinCap, h.subkeysNeedKey⟩

theorem State.Inv.cacheSound {s : State} (h : s.Inv) : s.CacheSound := h.cache

/-- The parts make up the invariant, with what BUSY adds (R234, R273). -/
theorem State.Inv.of_parts {s : State} (hdata : s.DataSound) (hcache : s.CacheSound) (hstatus : s.status.Sound)
    (hcleared : ∀ w p, s.phase = .busy w p → s.status.done = false ∧ s.status.err = false ∧ s.status.errcode = 0)
    (hsnap : ∀ w p, s.phase = .busy w p → p = s.takeSnapshot) : s.Inv where
  memory := hdata.memory
  cache := hcache
  errcodeNamed := hstatus.errcodeNamed
  errIffCode := hstatus.errIffCode
  busyCleared := hcleared
  snapshotHolds := hsnap
  residues := hdata.results.residues
  hvalidIffInverse := hdata.results.hvalidIffInverse
  psnrInfZero := hdata.results.psnrInfZero
  usedWithinCap := hdata.results.usedWithinCap
  subkeysNeedKey := hdata.results.subkeysNeedKey

/-- In IDLE the parts are all of the invariant. -/
theorem State.Inv.of_idle {s : State} (hs : s.phase = .idle) (hdata : s.DataSound) (hcache : s.CacheSound)
    (hstatus : s.status.Sound) : s.Inv :=
  .of_parts hdata hcache hstatus (fun _ _ h => by simp [hs] at h) (fun _ _ h => by simp [hs] at h)

/-- On a platform that is not coherent the cache only has to be in canonical form. -/
theorem State.CacheSound.of_not_coherent {s : State} (h : s.platform.coherent = false) (hc : Cache.wf s.hostCache) :
    s.CacheSound := ⟨hc, fun hcoh => by simp [h] at hcoh⟩

/-! ### The status part -/

theorem Status.Sound.zero : Status.zero.Sound := by constructor <;> decide

theorem Status.Sound.succeeded (st : Status) : st.succeeded.Sound := by constructor <;> simp

/-- Every named error code is a code other than 0 and none of the reserved ones (R231, R232). -/
theorem Status.Sound.failed (st : Status) (c : ErrCode) : (st.failed c).Sound := by
  cases c <;> constructor <;> simp [ErrCode.code]

/-- However a command ends, ERR stands with ERRCODE and the code is a named one (R235). -/
theorem Ends.statusSound {i : Instr} {s t : State} (h : Ends i s t) : t.status.Sound := by
  rcases h.status with hst | ⟨c, hst⟩ <;> rw [hst]
  · exact .succeeded s.status
  · exact .failed s.status c

/-- Clearing ERR clears ERRCODE with it (R24). -/
theorem Status.Sound.w1c {st : Status} (h : st.Sound) (v : Word) : (st.w1c v).Sound := by
  cases hv : v.getLsbD 2
  case false =>
    have hcode : (st.w1c v).errcode = st.errcode := if_neg (by rw [hv]; decide)
    have herr : (st.w1c v).err = st.err := by rw [Status.w1c, hv]; exact Bool.and_true _
    exact ⟨hcode ▸ h.errcodeNamed, by rw [hcode, herr]; exact h.errIffCode⟩
  case true =>
    have hcode : (st.w1c v).errcode = 0 := if_pos hv
    have herr : (st.w1c v).err = false := by rw [Status.w1c, hv]; exact Bool.and_false _
    exact ⟨by rw [hcode]; decide, by rw [hcode, herr]; decide⟩

/-! ### The data part: the results each command commits -/

theorem Results.Sound.zero : Results.zero.Sound := by constructor <;> decide

section
variable {r : Results}

/-- SOUT, SFOUT and XBITS are under no promise. -/
theorem Results.Sound.withOutputs (h : r.Sound) (bout : Byte) (fout : BitVec 4) (xbits : Word) :
    Results.Sound { r with bout := bout, fout := fout, xbits := xbits } :=
  ⟨h.residues, h.hvalidIffInverse, h.psnrInfZero, h.usedWithinCap, h.subkeysNeedKey⟩

/-- Under a scheduled key any subkeys may stand in SUBK (R34). -/
theorem Results.Sound.withKey (h : r.Sound) (k1 k2 : Byte) :
    Results.Sound { r with k1 := k1, k2 := k2, kvalid := true } :=
  ⟨h.residues, h.hvalidIffInverse, h.psnrInfZero, h.usedWithinCap, nofun⟩

/-- The statistics of a payload that fits a capacity that fits the register (R43, R170). -/
theorem Results.Sound.withStatistics (h : r.Sound) {used cap : Nat} (hle : used ≤ cap) (hcap : cap < 2 ^ 32)
    (ptouch : Word) :
    Results.Sound { r with cap := BitVec.ofNat 32 cap, used := BitVec.ofNat 32 used, ptouch := ptouch } := by
  refine ⟨h.residues, h.hvalidIffInverse, h.psnrInfZero, ?_, h.subkeysNeedKey⟩
  show (BitVec.ofNat 32 used).toNat ≤ (BitVec.ofNat 32 cap).toNat
  rw [BitVec.toNat_ofNat, BitVec.toNat_ofNat, Nat.mod_eq_of_lt hcap]
  exact (Nat.mod_le _ _).trans hle

/-- PSNR_INF is set over a sum of 0, which both halves of SSE hold as 0 (R24, R44). -/
theorem Results.Sound.withSse (h : r.Sound) (e : Nat) : (r.withSse e).Sound := by
  refine ⟨h.residues, h.hvalidIffInverse, fun hinf => ?_, h.usedWithinCap, h.subkeysNeedKey⟩
  obtain rfl : e = 0 := by simpa [Results.withSse] using hinf
  exact ⟨rfl, rfl⟩

/-- HVALID reports whether HDETINV holds an inverse, and both HDETMOD and HDETINV are residues (R28, R29, R100). -/
theorem Results.Sound.withCheck (h : r.Sound) (p : Snapshot) : (r.withCheck (hillValidate p)).Sound := by
  obtain ⟨_, _, hinverse⟩ := h.residues
  have hdm : (BitVec.ofNat 5 (hillValidate p).dm).toNat = (hillValidate p).dm := field5_toNat (hillValidate_dm_lt p)
  have hlt : (hillValidate p).inv < 26 := Nat.lt_succ_of_le (hillValidate_inv_le p)
  have hinv : (BitVec.ofNat 5 (hillValidate p).inv).toNat = (hillValidate p).inv := field5_toNat hlt
  refine ⟨⟨hdm.trans_lt (hillValidate_dm_lt p), hinv.trans_lt hlt, hinverse⟩, ?_, h.psnrInfZero, h.usedWithinCap,
    h.subkeysNeedKey⟩
  calc (hillValidate p).valid = true
      ↔ (hillValidate p).inv ≠ 0 := bne_iff_ne
    _ ↔ (BitVec.ofNat 5 (hillValidate p).inv).toNat ≠ 0 := by rw [hinv]
    _ ↔ BitVec.ofNat 5 (hillValidate p).inv ≠ 0 := not_congr (BitVec.toNat_eq (y := 0)).symm

/-- The entries of an inverse matrix are residues (R30, R101). -/
theorem Results.Sound.withInverse (h : r.Sound) (p : Snapshot) : (r.withInverse (hillInverse p)).Sound := by
  obtain ⟨hdm, hinv, _, _, _, _, hletters⟩ := h.residues
  have field (x : Int) : (BitVec.ofInt 5 (mod26 x : Int)).toNat < 26 :=
    (field5_ofInt_toNat (mod26_lt x)).trans_lt (mod26_lt x)
  exact ⟨⟨hdm, hinv, field _, field _, field _, field _, hletters⟩, h.hvalidIffInverse, h.psnrInfZero, h.usedWithinCap,
    h.subkeysNeedKey⟩

/-- A transformed pair is a pair of letters (R32, R102). -/
theorem Results.Sound.withPair (h : r.Sound) (a : Matrix2) (c1 c2 : Nat) : (r.withPair (hillApply a c1 c2)).Sound := by
  obtain ⟨hdm, hinv, h00, h01, h10, h11, _⟩ := h.residues
  obtain ⟨hfirst, hsecond⟩ := hillApply_lt a c1 c2
  exact ⟨⟨hdm, hinv, h00, h01, h10, h11, (field5_toNat hfirst).trans_lt hfirst, (field5_toNat hsecond).trans_lt hsecond⟩,
    h.hvalidIffInverse, h.psnrInfZero, h.usedWithinCap, h.subkeysNeedKey⟩

/-- The results every Hill command commits. -/
theorem Results.Sound.hillResults_sound (h : r.Sound) (p : Snapshot) (i : Instr) : (hillResults r p i).Sound := by
  have hcheck := h.withCheck p
  unfold hillResults
  split
  · exact hcheck.withInverse p
  · exact hcheck.withPair _ _ _
  · exact (hcheck.withInverse p).withPair _ _ _
  · exact hcheck

end

/-! ### The data part: how a command ends -/

/-- A fill at the start of a region that does not wrap stays inside the address space (R65). -/
theorem Memory.wf_fill_region {m : List Host.Cell} (h : Memory.wf m) {base len n : Nat}
    (hr : (Region.mk base len).wraps = false) (hn : n ≤ len) (f : Nat → Byte) : Memory.wf (Memory.fill m base n f) := by
  have hfits : len = 0 ∨ base + len ≤ addrSpace := (Region.wraps_eq_false _).1 hr
  exact Memory.wf_fill h (by omega) f

namespace State.DataSound

section
variable {s t : State}

/-- An in-flight error leaves havoc bytes in canonical form, and the results alone (R237). -/
theorem failInFlight (h : s.DataSound) (d : Nat) (c : ErrCode) (rs : List Region) :
    DataSound (State.failInFlight { s with draws := d } c rs) := ⟨wf_havocRegions h.memory _ _, h.results⟩

/-- A reset zeroes the results, and havocs what an aborted command may have written (R260 to R262). -/
theorem resetDevice (h : s.DataSound) : s.resetDevice.DataSound := ⟨wf_havocRegions h.memory _ _, .zero⟩

/-- A check that a command makes: it fails and leaves the data alone, or the command goes on (R233, R236). -/
theorem check (hs : s.DataSound) {b : Prop} [Decidable b] {c : ErrCode} {rest : Host.Outcome State Fault Refusal}
    (h : (if b then .next (s.fail c) else rest) = .next t) (hrest : ¬ b → rest = .next t → t.DataSound) :
    t.DataSound := by
  split at h
  · cases h; exact ⟨hs.memory, hs.results⟩
  · exact hrest ‹_› h

/-- The end of a command that accesses no memory. -/
theorem of_commit (hs : s.DataSound) {r : Results}
    (h : (.next (s.commit r s.mem) : Host.Outcome State Fault Refusal) = .next t) (hr : r.Sound) : t.DataSound := by
  cases h
  exact ⟨hs.memory, hr⟩

/-- The memory phase keeps the data sound when the command's own end does. -/
theorem of_memoryPhase (hs : s.DataSound) {i : Instr} {accessed : List Nat} {finish : State → State}
    (h : s.memoryPhase i accessed finish = .next t) (hf : ∀ d, (finish { s with draws := d }).DataSound) :
    t.DataSound := by
  rcases memoryPhase_cases s i accessed finish with ⟨hc, _⟩ | ⟨_, d, _, hc | ⟨_, hc⟩⟩ <;> rw [hc] at h <;> cases h
  · exact hs.failInFlight d _ _
  · exact hf d

/-- The Hill commands (R103 to R106). -/
theorem of_hill (hs : s.DataSound) {i : Instr} (hi : i ∈ hillCommands) (h : exec i s = .next t) : t.DataSound := by
  rw [exec_hill hi, State.hillEnd] at h
  split at h <;> cases h
  · exact ⟨hs.memory, hs.results⟩
  · exact ⟨hs.memory, hs.results.hillResults_sound _ _⟩

/-- The one-block commands (R126, R127). -/
theorem of_blockCommand (hs : s.DataSound) {ka kb : Byte} (h : blockCommand s ka kb = .next t) : t.DataSound :=
  hs.check h fun _ h => hs.check h fun _ h => hs.of_commit h (hs.results.withOutputs _ s.res.fout s.res.xbits)

/-- The buffer commands write inside DST's buffer, which does not wrap (R129, R130). -/
theorem of_bufferCommand (hs : s.DataSound) {i : Instr} {f : Byte → Byte} (h : bufferCommand i s f = .next t) :
    t.DataSound := by
  refine hs.check h fun _ h => hs.check h fun hwrap h => hs.check h fun _ h => hs.of_memoryPhase h fun _ => ?_
  obtain ⟨_, hdst⟩ : s.inFlight.srcBlocks.wraps = false ∧ s.inFlight.dstBlocks.wraps = false := by simpa using hwrap
  exact ⟨Memory.wf_fill_region hs.memory hdst le_rfl _, hs.results⟩

/-- LSB_EMBED writes inside DST's buffer, which does not wrap, and its capacity fits the register (R170). -/
theorem of_lsbEmbed (hs : s.DataSound) (h : execLsbEmbed s = .next t) : t.DataSound := by
  refine hs.check h fun hcap h => hs.check h fun hwrap h => hs.check h fun _ h => hs.of_memoryPhase h fun _ => ?_
  obtain ⟨⟨hsrc, hdst⟩, _⟩ : (s.inFlight.srcPixels.wraps = false ∧ s.inFlight.dstPixels.wraps = false) ∧
      s.inFlight.payload.wraps = false := by simpa using hwrap
  exact ⟨Memory.wf_fill_region hs.memory hdst le_rfl _,
    (hs.results.withStatistics (Nat.not_lt.1 hcap) (channels_lt_of_not_wraps hsrc) _).withSse _⟩

/-- LSB_EXTRACT writes inside (DST, XMAX), which does not wrap (R66, R171). -/
theorem of_lsbExtract (hs : s.DataSound) (h : execLsbExtract s = .next t) : t.DataSound := by
  refine hs.check h fun hwrap h => hs.check h fun _ h => hs.of_memoryPhase h fun d => ?_
  obtain ⟨_, hout⟩ : s.inFlight.srcPixels.wraps = false ∧ s.inFlight.extractOut.wraps = false := by simpa using hwrap
  unfold extractFinish
  split
  · rename_i found hfound
    exact ⟨Memory.wf_fill_region hs.memory hout (extracted_within hfound) _,
      hs.results.withOutputs s.res.bout s.res.fout _⟩
  · exact hs.failInFlight d _ _

/-- PSNR_SSE writes no memory (R172). -/
theorem of_psnrSse (hs : s.DataSound) (h : execPsnrSse s = .next t) : t.DataSound :=
  hs.check h fun _ h => hs.of_memoryPhase h fun _ => ⟨hs.memory, hs.results.withSse _⟩

/-- Every command keeps memory canonical and the results sound, however it ends. -/
theorem of_exec (hs : s.DataSound) {i : Instr} (h : exec i s = .next t) : t.DataSound := by
  cases i with
  | nop => exact hs.of_commit h hs.results
  | hillCheck | hillInv | hillEnc | hillDec => exact hs.of_hill (by decide) h
  | sdesKey => exact hs.check h fun _ h => hs.of_commit h (hs.results.withKey _ _)
  | sdesEnc | sdesDec => exact hs.of_blockCommand h
  | sdesF => exact hs.of_commit h (hs.results.withOutputs s.res.bout _ s.res.xbits)
  | sdesEncb | sdesDecb => exact hs.of_bufferCommand h
  | lsbEmbed => exact hs.of_lsbEmbed h
  | lsbExtract => exact hs.of_lsbExtract h
  | psnrSse => exact hs.of_psnrSse h

end

end State.DataSound

/-! ### Every step keeps the invariant -/

namespace State.Inv

section
variable {s t : State}

/-- Only memory and the host's cache, where an event changes them, have to be sound again: IE and the model's own lists
and counter are under no promise. -/
theorem withPlatformSide (h : s.Inv) {m : List Host.Cell} {c : List (Nat × CachedByte)} (hm : Memory.wf m)
    (hc : CacheSound { s with hostCache := c }) (ie : Bool) (ins : List Input) (obs : List Observation) (d : Nat) :
    Inv { s with mem := m, hostCache := c, ie := ie, inputs := ins, observed := obs, draws := d } :=
  .of_parts ⟨hm, h.dataSound.results⟩ hc h.statusSound h.busyCleared h.snapshotHolds

/-- What is pending is under no promise. -/
theorem withInputs (h : s.Inv) (ins : List Input) : Inv { s with inputs := ins } :=
  h.withPlatformSide h.memory h.cacheSound s.ie ins s.observed s.draws

/-- A cached copy on a platform that is not coherent. -/
theorem cacheSound_put (h : s.Inv) (hcoh : s.platform.coherent = false) (a : Word) (c : CachedByte) :
    CacheSound { s with hostCache := Cache.put s.hostCache a.toNat c } :=
  .of_not_coherent hcoh (Cache.wf_put h.cacheSound.1 a.isLt c)

/-- A dropped copy on a platform that is not coherent. -/
theorem cacheSound_erase (h : s.Inv) (hcoh : s.platform.coherent = false) (a : Nat) :
    CacheSound { s with hostCache := Memory.erase s.hostCache a } :=
  .of_not_coherent hcoh (Cache.wf_erase h.cacheSound.1 a)

/-- A byte stored at a device address. -/
theorem memory_write (h : s.Inv) (a : Word) (v : Byte) : Memory.wf (Memory.write s.mem a.toNat v) :=
  Memory.wf_write h.memory a.isLt v

/-- A reset ends in IDLE with every register zero (R260). -/
theorem resetDevice (h : s.Inv) : s.resetDevice.Inv := .of_idle rfl h.dataSound.resetDevice h.cacheSound .zero

/-- A STATUS write clears what it clears, and in BUSY there is nothing but WERR to clear (R24, R234). -/
theorem w1c (h : s.Inv) (v : Word) : Inv { s with status := s.status.w1c v } := by
  refine .of_parts ⟨h.memory, h.dataSound.results⟩ h.cacheSound (h.statusSound.w1c v) (fun w p hs => ?_) h.snapshotHolds
  obtain ⟨hdone, herr, hcode⟩ := h.busyCleared w p hs
  simp [Status.w1c, hdone, herr, hcode]

/-- A dropped write sets WERR alone (R239). -/
theorem dropped (h : s.Inv) : Inv { s with status := s.status.dropped } :=
  .of_parts ⟨h.memory, h.dataSound.results⟩ h.cacheSound ⟨h.errcodeNamed, h.errIffCode⟩ h.busyCleared h.snapshotHolds

/-- Acceptance clears the status and takes the snapshot of the registers as they stand (R234). -/
theorem accept (h : s.Inv) (w : Word) : (s.accept w).Inv := by
  refine .of_parts ⟨h.memory, h.dataSound.results⟩ h.cacheSound ⟨by simp [State.accept], by simp [State.accept]⟩
    (fun _ _ _ => ⟨rfl, rfl, rfl⟩) (fun w' p hp => ?_)
  cases hp
  rfl

/-- In IDLE no snapshot holds the operand registers (R47). -/
theorem withOps (h : s.Inv) (hs : s.phase = .idle) (o : Operands) : Inv { s with ops := o } :=
  .of_idle hs ⟨h.memory, h.dataSound.results⟩ h.cacheSound h.statusSound

/-- A write other than to CTRL and STATUS (R46 to R48, R234). -/
theorem writePlain (h : s.Inv) (r : Option Reg) (v : Word) : (writePlain s r v).Inv := by
  rcases writePlain_cases s r v with ⟨_, hw⟩ | ⟨hs, hw | ⟨o, hw⟩⟩ <;> rw [hw]
  · exact h.dropped
  · exact h.accept v
  · exact h.withOps hs o

/-- A command's completion ends in IDLE and leaves the host's cache alone (R235). -/
theorem of_exec (h : s.Inv) {i : Instr} (hexec : exec i s = .next t) : t.Inv := by
  obtain ⟨_, _, hplatform, hcache, _⟩ := (exec_ends hexec).frame
  have hsound : t.CacheSound := by
    rw [CacheSound, hplatform, hcache]
    exact h.cacheSound
  exact .of_idle (exec_phase hexec) (h.dataSound.of_exec hexec) hsound (exec_ends hexec).statusSound

/-- The engine's move (R235, R238, R249). -/
theorem of_engineTurn (h : s.Inv) (hturn : engineTurn s = .next t) : t.Inv := by
  rcases engineTurn_cases hturn with ⟨_, rfl⟩ | ⟨w, p, i, _, _, hexec⟩ | ⟨w, p, e, _, _, rfl⟩
  · exact h
  · exact h.of_exec hexec
  · exact .of_idle rfl ⟨h.memory, h.dataSound.results⟩ h.cacheSound (.failed s.status .illegalCommand)

/-- Every event keeps the invariant (R242). -/
theorem of_eventDoes {e : Input} (h : s.Inv) (he : EventDoes s e t) : t.Inv := by
  cases he with
  | engine hturn => exact h.of_engineTurn hturn
  | elsewhere => exact h
  | rst | softReset => exact h.resetDevice
  | ctrl => exact h.withPlatformSide h.memory h.cacheSound _ _ _ _
  | status v => exact h.w1c v
  | plain v => exact h.writePlain _ v
  | read => exact h.withPlatformSide h.memory h.cacheSound _ _ _ _
  | cachedRead a o d c hcoh => exact h.withPlatformSide h.memory (h.cacheSound_put hcoh a c) _ _ _ _
  | store e a v => exact h.withPlatformSide (h.memory_write a v) h.cacheSound _ _ _ _
  | writeBack a v _ hcoh => exact h.withPlatformSide (h.memory_write a v) (h.cacheSound_put hcoh a _) _ _ _ _
  | cachedStore a v hcoh => exact h.withPlatformSide h.memory (h.cacheSound_put hcoh a _) _ _ _ _
  | dropped a hcoh => exact h.withPlatformSide h.memory (h.cacheSound_erase hcoh a.toNat) _ _ _ _

/-- A step is an event, or the engine's move when none is pending. -/
theorem of_step (h : s.Inv) (hstep : step s = .next t) : t.Inv := by
  rcases step_does hstep with ⟨_, hturn⟩ | ⟨e, rest, _, he⟩
  · exact h.of_engineTurn hturn
  · exact (h.withInputs rest).of_eventDoes he

end

end State.Inv

end Sys2Proof.Machine

namespace Sys2Proof.Proofs

open Sys2Proof.Machine

/-- Settles O60: each event keeps each part of the invariant. -/
theorem everyStepKeepsTheInvariant : Obligations.EveryStepKeepsTheInvariant := fun _ _ hs h => hs.of_step h

/-- Settles O45: the unanswered byte is among the accesses, before the match or at DST after it. -/
theorem extractReadErrorBeforeTheDelimiterWins : Obligations.ExtractReadErrorBeforeTheDelimiterWins := by
  intro s p hp hmem hsrc hout hover
  have hbusError {a : Nat} (ha : a ∈ extractAccesses s.mem p) (hbad : s.memOk a = false) :
      ∃ t, exec .lsbExtract s = .next t ∧ s.FailedInFlight t 12 [p.extractOut] := by
    rw [exec, execLsbExtract_memoryPhase hp hsrc hout hover]
    subst hp
    exact memoryPhase_failedInFlight hmem ha hbad
  exact ⟨fun j hj hbad hnone => hbusError (walk_mem_extractAccesses hj hnone) hbad,
    fun x k hx hd hfirst hk hbad => hbusError (dst_mem_extractAccesses hx ⟨hd, hfirst⟩ hk) hbad⟩

/-- Settles O46: read off the three ways a command ends. -/
theorem everyCompletionKeepsOperandsAndControl : Obligations.EveryCompletionKeepsOperandsAndControl := by
  intro i s t h
  have hends := exec_ends h
  have hdone : t.status.done = true := by
    rcases hends.status with hst | ⟨c, hst⟩ <;> rw [hst] <;> rfl
  exact ⟨exec_phase h, hdone, hends.statusSound.errIffCode, hends.werr, hends.frame⟩

/-- Settles O47: an end with ERR and another code than 5 and 12 is an eager error. -/
theorem eagerErrorsChangeOnlyStatus : Obligations.EagerErrorsChangeOnlyStatus := by
  intro i s t h herr h5 h12
  rcases exec_ends h with ⟨c, _, _, rfl⟩ | ⟨d, c, hc, rfl⟩ | ⟨d, r, m, rfl, _⟩
  · exact s.fail_eq c
  · exact absurd ((ErrCode.code_inFlight_iff c).2 hc) (not_or.2 ⟨h5, h12⟩)
  · cases herr

/-- Settles O48: an end with code 5 or 12 is an in-flight error, since no eager error has these codes. -/
theorem inFlightErrorsLeaveResultsAlone : Obligations.InFlightErrorsLeaveResultsAlone := by
  intro i s t h hcode
  rcases exec_ends h with ⟨c, hbus, hdelim, rfl⟩ | ⟨d, c, _, rfl⟩ | ⟨d, r, m, rfl, _⟩
  · exact absurd ((ErrCode.code_inFlight_iff c).1 hcode) (not_or.2 ⟨hbus, hdelim⟩)
  · exact failedInFlight_of_failInFlight s d c _
  · simp at hcode

/-- Settles O55: the engine's move keeps WERR, and the events that clear it are these. -/
theorem werrStaysUntilClearedOrReset : Obligations.WerrStaysUntilClearedOrReset := by
  intro s t h hs ht
  rcases step_does h with ⟨_, hturn⟩ | ⟨e, rest, hi, he⟩
  · obtain ⟨_, hkept⟩ := engineTurn_keeps_ie_werr hturn
    exact absurd (ht.symm.trans (hkept.trans hs)) Bool.false_ne_true
  · rcases he.clears_werr hs ht with rfl | ⟨v, hv, rfl⟩ | ⟨v, hv, rfl⟩
    · exact .inl (.inl ⟨rest, hi⟩)
    · exact .inl (.inr ⟨v, rest, hv, hi⟩)
    · exact .inr ⟨v, rest, hv, hi⟩

/-- Settles O56: the engine's move keeps IE, and the events that change it are these. -/
theorem onlyCtrlWritesAndResetsChangeIe : Obligations.OnlyCtrlWritesAndResetsChangeIe := by
  intro s t h hne
  rcases step_does h with ⟨_, hturn⟩ | ⟨e, rest, hi, he⟩
  · exact absurd (engineTurn_keeps_ie_werr hturn).1 hne
  · rw [hi]
    rcases he.changes_ie hne with rfl | ⟨v, rfl⟩
    · exact .inl rfl
    · exact .inr ⟨v, rfl⟩

/-- Settles O9: IE and DONE stand at these bits of the words the host reads. -/
theorem irqIsEnableAndDone : Obligations.IrqIsEnableAndDone := fun s => by
  rw [readOffset_ctrl_ie, readOffset_status_done, State.irq]

/-- Settles O10: acceptance in IDLE with DONE cleared, and the dropped write in BUSY. -/
theorem cmdWriteIsAcceptedInIdle : Obligations.CmdWriteIsAcceptedInIdle := by
  refine fun s w => ⟨fun hs => ⟨s.accept w, busWrite_idle_cmd hs w, ?irq, rfl⟩, fun w' p hs => ?dropped⟩
  case irq => exact Bool.and_false s.ie
  case dropped => exact busWrite_busy_dropped hs (by decide) (by decide) (by decide) (by decide) w

/-- Settles O11: an accepted word that does not decode completes with code 7. -/
theorem illegalWordCompletesWithCodeSeven : Obligations.IllegalWordCompletesWithCodeSeven := by
  intro s w hs hillegal
  obtain ⟨e, he⟩ := decode_illegal (hillegal.imp_right opcodeToInstr_eq_none)
  exact ⟨s.accept w, busWrite_idle_cmd hs w, rfl, engineTurn_accept_illegal he s⟩

/-- Settles O12: with nothing pending and at an engine event the step is the engine's move. -/
theorem stepRunsTheDecodedCommand : Obligations.StepRunsTheDecodedCommand := by
  refine fun s w p i hs hd => ⟨fun hi => ?_, fun rest hi => ?_⟩
  · rw [step, nextEvent, hi]
    exact engineTurn_of_decoded hs hd
  · rw [step, nextEvent, hi]
    exact engineTurn_of_decoded (s := { s with inputs := rest }) hs hd

end Sys2Proof.Proofs
end

section
/-! SUPPORT. Hazards and faults (spec/70_reset_and_hazards.md R270, spec/20_memory.md R69, R75): which events fault and which
do not, how a command on non-memory ends, the bounded completion of a command in BUSY (R277), and the statements about them. -/

namespace Sys2Proof.Machine

/-! ### Accesses to memory that answer -/

/-- A store outside the footprint, to memory, writes its byte (R270). -/
theorem hostMemWrite_next {s : State} {a : Word} (hf : covers s.phase.footprint a.toNat = false)
    (hm : covers s.platform.nonMemory a.toNat = false) (v : Byte) :
    hostMemWrite s a v = .next { s with mem := Memory.write s.mem a.toNat v } := by
  simpa [hf, hm] using hostMemWrite_cases s a v

/-- What a store to memory leaves: its byte there, and every other byte as it was. -/
theorem byteAt_memWrite (s : State) (a : Nat) (v : Byte) :
    State.byteAt { s with mem := Memory.write s.mem a v } a = v ∧
      ∀ b, b ≠ a → State.byteAt { s with mem := Memory.write s.mem a v } b = s.byteAt b :=
  ⟨(Memory.read_write ..).trans (if_pos rfl), fun _ hb => (Memory.read_write ..).trans (if_neg hb)⟩

/-- A read of a write-region byte in BUSY or of memory answers a value, which outside the write regions is the byte held,
and does nothing else but draw (R270). -/
theorem hostMemRead_next {s : State} {a : Word}
    (h : covers s.phase.writeRegions a.toNat = true ∨ covers s.platform.nonMemory a.toNat = false) :
    ∃ x d, hostMemRead s a = .next (State.observe { s with draws := d } a x) ∧
      (covers s.phase.writeRegions a.toNat = false → x = s.byteAt a.toNat) := by
  rcases readByte_cases s a (s.byteAt a.toNat) fun t v => t.observe a v with ⟨hw, hr⟩ | ⟨hw, hm, _⟩ | ⟨_, _, hr⟩
  · exact ⟨_, s.draws + 1, hr, fun hw' => by simp [hw] at hw'⟩
  · simp [hw, hm] at h
  · exact ⟨_, s.draws, hr, fun _ => rfl⟩

section
variable {s : State} {a : Word}

/-- Without coherence a host store to memory outside the footprint stays in the cache (R75). -/
theorem hostStore_cached (hcoh : s.platform.coherent = false) (hf : covers s.phase.footprint a.toNat = false)
    (hm : covers s.platform.nonMemory a.toNat = false) (v : Byte) :
    hostStore s a v = .next { s with hostCache := Cache.put s.hostCache a.toNat ⟨v, true⟩ } := by
  simpa [hcoh, hf, hm] using hostStore_cases s a v

/-- The write-back of a dirty copy of a memory byte outside the footprint stores it and keeps it clean (R75). -/
theorem hostWriteBack_dirty {v : Byte} (hcoh : s.platform.coherent = false)
    (hdirty : Cache.read s.hostCache a.toNat = some ⟨v, true⟩) (hf : covers s.phase.footprint a.toNat = false)
    (hm : covers s.platform.nonMemory a.toNat = false) :
    hostWriteBack s a =
      .next { s with mem := Memory.write s.mem a.toNat v, hostCache := Cache.put s.hostCache a.toNat ⟨v, false⟩ } := by
  rcases hostWriteBack_cases s a with ⟨hclean, _⟩ | ⟨_, v', hv', hw⟩
  · exact absurd hdirty (hclean.resolve_left (by simp [hcoh]) v)
  · obtain rfl : v = v' := by simpa [hdirty] using hv'
    rw [hw]
    exact hostMemWrite_next (s := { s with hostCache := Cache.put s.hostCache a.toNat ⟨v, false⟩ }) hf hm v

/-- Without a copy of a memory byte outside the write regions, a host load gets the memory's byte and keeps it (R75). -/
theorem hostLoad_missing (hcoh : s.platform.coherent = false) (hmiss : Cache.read s.hostCache a.toNat = none)
    (hw : covers s.phase.writeRegions a.toNat = false) (hm : covers s.platform.nonMemory a.toNat = false) :
    hostLoad s a = .next (State.observe
      { s with hostCache := Cache.put s.hostCache a.toNat ⟨s.byteAt a.toNat, false⟩ } a (s.byteAt a.toNat)) := by
  simp [hostLoad, hcoh, hmiss, State.readByte, hw, hm]

end

/-! ### Which events fault -/

/-- A store that reaches memory faults exactly on the footprint in BUSY (R270). -/
theorem hostMemWrite_eq_fault_iff (s : State) (a : Word) (v : Byte) (f : Fault) :
    hostMemWrite s a v = .fault f ↔ f = .hazard ∧ covers s.phase.footprint a.toNat = true := by
  rcases hostMemWrite_cases s a v with ⟨hf, h⟩ | ⟨hf, _, h⟩ | ⟨hf, _, h⟩ <;> simp [h, hf, eq_comm]

/-- A host store faults exactly on the footprint in BUSY, on a coherent platform and on any other (R75, R270). -/
theorem hostStore_eq_fault_iff (s : State) (a : Word) (v : Byte) (f : Fault) :
    hostStore s a v = .fault f ↔ f = .hazard ∧ covers s.phase.footprint a.toNat = true := by
  rcases hostStore_cases s a v with ⟨hf, h⟩ | ⟨hf, _, h⟩ | ⟨hf, _, ⟨_, h⟩ | ⟨_, h⟩⟩ <;> simp [h, hf, eq_comm]

/-- A write-back that faults is one of a dirty copy of a footprint byte in BUSY (R75, R270). -/
theorem hostWriteBack_fault {s : State} {a : Word} {f : Fault} (h : hostWriteBack s a = .fault f) :
    f = .hazard ∧ covers s.phase.footprint a.toNat = true ∧
      ∃ v, s.platform.coherent = false ∧ Cache.read s.hostCache a.toNat = some ⟨v, true⟩ := by
  rcases hostWriteBack_cases s a with ⟨_, hw⟩ | ⟨hcoh, v, hv, hw⟩ <;> rw [hw] at h
  · cases h
  · obtain ⟨hhazard, hf⟩ := (hostMemWrite_eq_fault_iff ..).1 h
    exact ⟨hhazard, hf, v, hcoh, hv⟩

/-- A read of a byte never faults (R270). -/
theorem readByte_ne_fault (s : State) (a : Word) (held : Byte) (got : State → Byte → State) (f : Fault) :
    s.readByte a held got ≠ .fault f := by
  rcases readByte_cases s a held got with ⟨_, h⟩ | ⟨_, _, h⟩ | ⟨_, _, h⟩ <;> rw [h] <;> nofun

theorem hostMemRead_ne_fault (s : State) (a : Word) (f : Fault) : hostMemRead s a ≠ .fault f :=
  readByte_ne_fault s a _ _ f

theorem hostLoad_ne_fault (s : State) (a : Word) (f : Fault) : hostLoad s a ≠ .fault f := by
  unfold hostLoad
  split
  · exact hostMemRead_ne_fault s a f
  · split <;> exact readByte_ne_fault s a _ _ f

theorem busRead_ne_fault (s : State) (size : Size) (addr : Nat) (f : Fault) : busRead s size addr ≠ .fault f := by
  unfold busRead
  split <;> nofun

/-- The footprint of the command in BUSY has a byte on non-memory (R69). -/
def State.BusyOnNonMemory (s : State) : Prop :=
  ∃ a, covers s.phase.footprint a = true ∧ covers s.platform.nonMemory a = true

/-- A reset that faults aborts a command on non-memory (R69). -/
theorem resetStep_fault {s : State} {f : Fault} (h : s.resetStep = .fault f) : f = .notMemory ∧ s.BusyOnNonMemory := by
  rcases resetStep_cases s with ⟨hr, hnon⟩ | ⟨_, hr⟩ <;> rw [hr] at h <;> cases h
  exact ⟨rfl, hnon⟩

/-- A reset of a command on non-memory faults (R69). -/
theorem resetStep_of_busyOnNonMemory {s : State} (h : s.BusyOnNonMemory) : s.resetStep = .fault .notMemory :=
  if_pos ((anyOverlap_eq_true_iff _ _).2 h)

/-- A write to the window that faults is a reset through CTRL of a command on non-memory. -/
theorem busWrite_fault {s : State} {size : Size} {addr : Nat} {v : Word} {f : Fault}
    (h : busWrite s size addr v = .fault f) : f = .notMemory ∧ s.BusyOnNonMemory := by
  unfold busWrite at h
  split at h
  · cases h
  · unfold writeOffset at h
    split at h
    · unfold writeCtrl at h
      split at h
      · exact resetStep_fault h
      · cases h
    · cases h
    · cases h
  · cases h

/-- An engine's move that faults completes a command on non-memory (R69). -/
theorem engineTurn_fault {s : State} {f : Fault} (h : engineTurn s = .fault f) : f = .notMemory ∧ s.BusyOnNonMemory := by
  unfold engineTurn at h
  split at h
  · cases h
  · rename_i w p hs
    split at h
    · rename_i i hd
      obtain ⟨hf, a, ha, hm⟩ := (exec_stops i s).2 f h
      rw [State.inFlight_of_busy hs, ← footprint_of_busy hs hd] at ha
      exact ⟨hf, a, ha, hm⟩
    · cases h

/-- The events that store a byte to an address: another agent's, the host's, and the write-back of a dirty copy (R75). -/
def StoresTo (s : State) (a : Word) (e : Input) : Prop :=
  ∃ v, e = .memWrite a v ∨ e = .hostStore a v ∨
    (e = .writeBack a ∧ s.platform.coherent = false ∧ Cache.read s.hostCache a.toNat = some ⟨v, true⟩)

/-- Everything an event can fault for: a store to the footprint in BUSY, or a command in BUSY on non-memory. -/
theorem takeInput_fault {s : State} {e : Input} {f : Fault} (h : takeInput s e = .fault f) :
    (f = .hazard ∧ ∃ a, covers s.phase.footprint a.toNat = true ∧ StoresTo s a e) ∨
      (f = .notMemory ∧ s.BusyOnNonMemory) := by
  cases e with
  | engine => exact .inr (engineTurn_fault h)
  | busWrite size addr v => exact .inr (busWrite_fault h)
  | busRead size addr => exact absurd h (busRead_ne_fault s size addr f)
  | memWrite a v =>
    obtain ⟨hf, ha⟩ := (hostMemWrite_eq_fault_iff ..).1 h
    exact .inl ⟨hf, a, ha, v, .inl rfl⟩
  | memRead a => exact absurd h (hostMemRead_ne_fault s a f)
  | hostStore a v =>
    obtain ⟨hf, ha⟩ := (hostStore_eq_fault_iff ..).1 h
    exact .inl ⟨hf, a, ha, v, .inr (.inl rfl)⟩
  | hostLoad a => exact absurd h (hostLoad_ne_fault s a f)
  | writeBack a =>
    obtain ⟨hf, ha, v, hdirty⟩ := hostWriteBack_fault h
    exact .inl ⟨hf, a, ha, v, .inr (.inr ⟨rfl, hdirty⟩)⟩
  | invalidate a => cases h
  | rst => exact .inr (resetStep_fault h)

/-- A step that faults is the engine's move with nothing pending, or the next pending event. -/
theorem step_fault {s : State} {f : Fault} (h : step s = .fault f) :
    engineTurn s = .fault f ∨ ∃ e rest, s.inputs = e :: rest ∧ takeInput { s with inputs := rest } e = .fault f := by
  unfold step nextEvent at h
  split at h
  · exact .inl h
  · exact .inr ⟨_, _, ‹_›, h⟩

/-! ### Commands on non-memory -/

/-- No error code is the code of a success (R231). -/
theorem ErrCode.code_ne_zero (c : ErrCode) : c.code ≠ 0 := by
  cases c <;> decide

/-- How a command on non-memory ends: in the fault, or in an eager error before it accesses memory (R69, R236). -/
def FaultsOrFailsEagerly (s : State) (o : Host.Outcome State Fault Refusal) : Prop :=
  o = .fault .notMemory ∨ ∃ c, o = .next (s.failedWith c) ∧ c ≠ 0 ∧ c ≠ 5 ∧ c ≠ 12

namespace FaultsOrFailsEagerly

variable {s : State}

/-- A check that a command makes: it fails in an eager error, or the command goes on (R233). -/
theorem check {b : Prop} [Decidable b] {c : ErrCode} {rest : Host.Outcome State Fault Refusal}
    (hbus : c ≠ .busError) (hdelim : c ≠ .delimiterNotFound) (h : FaultsOrFailsEagerly s rest) :
    FaultsOrFailsEagerly s (if b then .next (s.fail c) else rest) := by
  obtain ⟨h5, h12⟩ := not_or.1 (mt (ErrCode.code_inFlight_iff c).1 (not_or.2 ⟨hbus, hdelim⟩))
  split
  · exact .inr ⟨c.code, rfl, c.code_ne_zero, h5, h12⟩
  · exact h

/-- With non-memory in the footprint the memory phase faults (R69). -/
theorem memoryPhase {i : Instr} {accessed : List Nat} {finish : State → State}
    (h : ∃ a, covers (footprint i s.inFlight) a = true ∧ covers s.platform.nonMemory a = true) :
    FaultsOrFailsEagerly s (s.memoryPhase i accessed finish) :=
  .inl (if_pos ((anyOverlap_eq_true_iff _ _).2 h))

/-- The buffer commands (R129, R130). -/
theorem bufferCommand {i : Instr} {f : Byte → Byte}
    (h : ∃ a, covers (footprint i s.inFlight) a = true ∧ covers s.platform.nonMemory a = true) :
    FaultsOrFailsEagerly s (bufferCommand i s f) :=
  check (by decide) (by decide) (check (by decide) (by decide) (check (by decide) (by decide) (memoryPhase h)))

/-- Every command with non-memory in its footprint: past its checks it goes on to its memory phase (R69). -/
theorem exec {i : Instr}
    (h : ∃ a, covers (footprint i s.inFlight) a = true ∧ covers s.platform.nonMemory a = true) :
    FaultsOrFailsEagerly s (exec i s) := by
  cases i with
  | nop | hillCheck | hillInv | hillEnc | hillDec | sdesKey | sdesEnc | sdesDec | sdesF =>
    obtain ⟨a, ha, _⟩ := h
    cases ha
  | sdesEncb | sdesDecb => exact bufferCommand h
  | lsbEmbed =>
    exact check (by decide) (by decide) (check (by decide) (by decide) (check (by decide) (by decide) (memoryPhase h)))
  | lsbExtract => exact check (by decide) (by decide) (check (by decide) (by decide) (memoryPhase h))
  | psnrSse => exact check (by decide) (by decide) (memoryPhase h)

end FaultsOrFailsEagerly

/-! ### Bounded completion -/

/-- On a platform without non-memory a command answers a next state, and it is complete: IDLE with DONE set (R235). -/
theorem exec_completes (i : Instr) {s : State} (hm : s.platform.nonMemory = []) :
    ∃ t, exec i s = .next t ∧ t.phase = .idle ∧ t.status.done = true := by
  obtain ⟨hrefused, hfault⟩ := exec_stops i s
  cases h : exec i s with
  | next t =>
    refine ⟨t, rfl, exec_phase h, ?_⟩
    rcases (exec_ends h).status with hst | ⟨c, hst⟩ <;> rw [hst] <;> rfl
  | fault f =>
    obtain ⟨_, a, _, ha⟩ := hfault f h
    simp [hm] at ha
  | refused r => exact absurd h (hrefused r)

/-- On a platform without non-memory the engine's move completes the word in BUSY, a command or an illegal word (R235,
R238). -/
theorem engineTurn_completes {s : State} {w : Word} {p : Snapshot} (hs : s.phase = .busy w p)
    (hm : s.platform.nonMemory = []) : ∃ t, engineTurn s = .next t ∧ t.phase = .idle ∧ t.status.done = true := by
  cases hd : decode w with
  | ok i =>
    rw [engineTurn_of_decoded hs hd]
    exact exec_completes i hm
  | error e => exact ⟨_, engineTurn_of_illegal hs hd, rfl, rfl⟩

/-- The events under which a command in BUSY must complete: engine moves, and aligned register accesses to a window at
`base` other than CTRL writes (R277). -/
def EngineOrRegister (base : Nat) (e : Input) : Prop :=
  e = .engine ∨ ∃ r, e = .busRead .word (base + regOffset r) ∨ (r ≠ .ctrl ∧ ∃ v, e = .busWrite .word (base + regOffset r) v)

/-- In BUSY a write to a register other than CTRL answers, and changes STATUS alone (R24, R48). -/
theorem busWrite_busy_status {s : State} {w : Word} {p : Snapshot} {r : Reg} (hs : s.phase = .busy w p) (hr : r ≠ .ctrl)
    (v : Word) : ∃ st, busWrite s .word (s.platform.base + regOffset r) v = .next { s with status := st } := by
  by_cases hstatus : r = .status
  · subst hstatus
    exact ⟨_, busWrite_status s v⟩
  · obtain ⟨h4, hlt⟩ := regOffset_aligned r
    have hne {r' : Reg} (h : r ≠ r') : regOffset r ≠ regOffset r' := fun he => h (by simpa using congrArg regAt he)
    exact ⟨_, busWrite_busy_dropped hs h4 hlt (hne hr) (hne hstatus) v⟩

/-- Each of these events completes the command in BUSY, or leaves it, what is pending and the platform as they are. -/
theorem takeInput_completes_or_keeps {s : State} {w : Word} {p : Snapshot} {e : Input} (hs : s.phase = .busy w p)
    (hm : s.platform.nonMemory = []) (he : EngineOrRegister s.platform.base e) :
    ∃ t, takeInput s e = .next t ∧
      ((t.phase = .idle ∧ t.status.done = true) ∨
        (t.phase = s.phase ∧ t.inputs = s.inputs ∧ t.platform = s.platform)) := by
  rcases he with rfl | ⟨r, rfl | ⟨hr, v, rfl⟩⟩
  · obtain ⟨t, ht, hdone⟩ := engineTurn_completes hs hm
    exact ⟨t, ht, .inl hdone⟩
  · obtain ⟨h4, hlt⟩ := regOffset_aligned r
    exact ⟨_, busRead_window s h4 hlt, .inr ⟨rfl, rfl, rfl⟩⟩
  · obtain ⟨st, ht⟩ := busWrite_busy_status hs hr v
    exact ⟨_, ht, .inr ⟨rfl, rfl, rfl⟩⟩

/-- A run of one step more starts with a step that answers. -/
theorem runSteps_succ {s t : State} (h : step s = .next t) (k : Nat) : runSteps (k + 1) s = runSteps k t := by
  rw [runSteps, h]

/-- R277, by induction on the pending events: each completes the command or leaves it in BUSY with one event fewer, and
with none pending the engine moves. -/
theorem completes_within {w : Word} {p : Snapshot} (ins : List Input) {s : State} (hins : s.inputs = ins)
    (hs : s.phase = .busy w p) (hm : s.platform.nonMemory = []) (he : ∀ e ∈ ins, EngineOrRegister s.platform.base e) :
    ∃ k t, k ≤ ins.length + 1 ∧ runSteps k s = .next t ∧ t.phase = .idle ∧ t.status.done = true := by
  induction ins generalizing s with
  | nil =>
    obtain ⟨t, ht, hdone⟩ := engineTurn_completes hs hm
    have hstep : step s = .next t := by rw [step, nextEvent, hins]; exact ht
    exact ⟨1, t, by simp, runSteps_succ hstep 0, hdone⟩
  | cons e rest ih =>
    obtain ⟨t, ht, hend⟩ := takeInput_completes_or_keeps (s := { s with inputs := rest }) hs hm (he e (by simp))
    have hstep : step s = .next t := by rw [step, nextEvent, hins]; exact ht
    rcases hend with hdone | ⟨hphase, hinputs, hplatform⟩
    · exact ⟨1, t, by simp, runSteps_succ hstep 0, hdone⟩
    · have hrest : ∀ e ∈ rest, EngineOrRegister t.platform.base e := fun e' h' =>
        hplatform ▸ he e' (List.mem_cons_of_mem e h')
      obtain ⟨k, u, hk, hrun, hdone⟩ := ih hinputs (hphase.trans hs) (hplatform ▸ hm) hrest
      exact ⟨k + 1, u, by simpa using hk, (runSteps_succ hstep k).trans hrun, hdone⟩

end Sys2Proof.Machine

namespace Sys2Proof.Proofs

open Sys2Proof.Machine

/-- Settles O52: each kind of event says when it faults, and a command on non-memory ends in a check or in the fault. -/
theorem faultsHaveOnlyTheirCauses : Obligations.FaultsHaveOnlyTheirCauses := by
  refine ⟨fun s f h => ?_, fun i s h => FaultsOrFailsEagerly.exec h, fun s h => resetStep_of_busyOnNonMemory h⟩
  rcases step_fault h with hturn | ⟨e, rest, hi, he⟩
  · exact .inr (engineTurn_fault hturn)
  · rw [hi]
    rcases takeInput_fault he with ⟨hf, a, ha, v, hstore⟩ | hnon
    · exact .inl ⟨hf, a, v, rest, ha, by simpa using hstore⟩
    · exact .inr hnon

/-- Settles O58: the events it names are those under which a command in BUSY must complete. -/
theorem acceptedCommandCompletes : Obligations.AcceptedCommandCompletes :=
  fun s _ _ hs hm he => completes_within s.inputs rfl hs hm he

/-- Settles O51: the accesses of other agents, then the host's with and without a coherent cache. -/
theorem footprintHazardFaults : Obligations.FootprintHazardFaults := by
  refine fun s a v => ⟨fun hf => ?hazard, fun hf hm => ?store, fun h => ?read, fun hcoh => ?coherent,
    fun hcoh hm => ⟨fun hf => ?cachedStore, fun hw => ?cachedLoad⟩⟩
  case hazard => exact ⟨(hostMemWrite_eq_fault_iff ..).2 ⟨rfl, hf⟩, (hostStore_eq_fault_iff ..).2 ⟨rfl, hf⟩⟩
  case store => exact ⟨_, hostMemWrite_next hf hm v, rfl, byteAt_memWrite s a.toNat v⟩
  case read =>
    obtain ⟨x, d, hr, hx⟩ := hostMemRead_next h
    exact ⟨_, x, hr, rfl, hx⟩
  case coherent => exact ⟨if_pos hcoh, if_pos hcoh, if_pos hcoh, congrArg _ (if_pos hcoh)⟩
  case cachedStore =>
    exact ⟨_, _, hostStore_cached hcoh hf hm v, rfl, hostWriteBack_dirty hcoh (by simp) hf hm, rfl,
      byteAt_memWrite s a.toNat v⟩
  case cachedLoad =>
    have hdrop : hostInvalidate s a = { s with hostCache := Memory.erase s.hostCache a.toNat } := by
      simp [hostInvalidate, hcoh]
    exact ⟨_, _, congrArg _ hdrop, rfl, hostLoad_missing hcoh (by simp) hw hm, rfl⟩

/-- Settles O59: every part of the invariant holds of zero registers, empty memory and an empty cache. -/
theorem invariantHoldsAtReset : Obligations.InvariantHoldsAtReset :=
  .of_idle rfl ⟨Memory.wf_nil, .zero⟩ ⟨⟨.nil, nofun⟩, fun _ => rfl⟩ .zero

end Sys2Proof.Proofs
end

section
/-! SUPPORT. What a command's outcome depends on (spec/70_reset_and_hazards.md R272): two states with the same view of a
command end it alike, and the statement about it. -/

namespace Sys2Proof.Machine

/-- The two states show a command the same snapshot, results, WERR, platform and free values, and the same bytes in its
read regions (R66, R272). -/
structure SameView (i : Instr) (s s' : State) : Prop where
  inFlight : s'.inFlight = s.inFlight
  res : s'.res = s.res
  werr : s'.status.werr = s.status.werr
  platform : s'.platform = s.platform
  draws : s'.draws = s.draws
  bytes : ∀ a, covers (readRegions i s.inFlight) a = true → s'.byteAt a = s.byteAt a

/-- Two ends alike: the same results and status, and every byte written alike or left alone in both (R272). -/
structure EndsAlike (s s' t t' : State) : Prop where
  res : t.res = t'.res
  status : t.status = t'.status
  bytes : ∀ a, t.byteAt a = t'.byteAt a ∨ (t.byteAt a = s.byteAt a ∧ t'.byteAt a = s'.byteAt a)

/-- Where the first outcome is a next state, so is the second, and the two end alike. -/
def OutcomesAlike (s s' : State) (o o' : Host.Outcome State Fault Refusal) : Prop :=
  ∀ t, o = .next t → ∃ t', o' = .next t' ∧ EndsAlike s s' t t'

/-- Two next states that end alike. -/
theorem OutcomesAlike.next {s s' t t' : State} (h : EndsAlike s s' t t') : OutcomesAlike s s' (.next t) (.next t') := by
  intro u hu
  cases hu
  exact ⟨t', rfl, h⟩

/-- A choice that both states make alike. -/
theorem OutcomesAlike.choice {s s' : State} {b : Prop} [Decidable b] {o₁ o₂ o₁' o₂' : Host.Outcome State Fault Refusal}
    (h₁ : OutcomesAlike s s' o₁ o₁') (h₂ : OutcomesAlike s s' o₂ o₂') :
    OutcomesAlike s s' (if b then o₁ else o₂) (if b then o₁' else o₂') := by
  split
  · exact h₁
  · exact h₂

/-! ### What a command computes from the bytes it reads -/

/-- Two memories hold the same `len` bytes from `base` on. -/
def SameBytes (m m' : List Host.Cell) (base len : Nat) : Prop :=
  ∀ k, k < len → Memory.read m' (base + k) = Memory.read m (base + k)

/-- A bit stream depends on the bytes that hold it (R150). -/
theorem bits_congr {m m' : List Host.Cell} {a len : Nat} (h : SameBytes m m' a ((len + 7) / 8)) :
    bits m' a len = bits m a len :=
  List.map_congr_left fun j hj => by
    have hlt := List.mem_range.1 hj
    rw [streamBit, streamBit, h (j / 8) (by omega)]

/-- The stego buffer depends on the carrier's bytes and the payload's (R170). -/
theorem stegoBuffer_congr {m m' : List Host.Cell} {p : Snapshot}
    (hsrc : SameBytes m m' p.src p.pixelBytes) (hpay : SameBytes m m' p.paddr p.payloadBytes) :
    stegoBuffer m' p = stegoBuffer m p := by
  have hfull : fullPayload m' p = fullPayload m p := by rw [fullPayload, fullPayload, bits_congr hpay]
  have hcarrier : (List.range p.pixelBytes).map (fun q => Memory.read m' (p.src + q)) =
      (List.range p.pixelBytes).map (fun q => Memory.read m (p.src + q)) :=
    List.map_congr_left fun q hq => hsrc q (List.mem_range.1 hq)
  rw [stegoBuffer, stegoBuffer, hfull, hcarrier]

/-- The extraction walk depends on the bits in its reach (R171). -/
theorem extractWalk_congr {f g : Nat → Bool} {fuel : Nat} {acc : List Bool}
    (h : ∀ j, j < acc.length + fuel → g j = f j) : extractWalk g fuel acc = extractWalk f fuel acc := by
  induction fuel generalizing acc with
  | zero => rfl
  | succ n ih =>
    have hrest := ih (acc := acc ++ [f acc.length]) fun j hj =>
      h j (by rw [List.length_append, List.length_singleton] at hj; omega)
    simp only [extractWalk, h acc.length (by omega), hrest]

/-- What an extraction finds depends on the walked bytes (R171). -/
theorem extracted_congr {m m' : List Host.Cell} {p : Snapshot} (h : SameBytes m m' p.src p.pixelBytes) :
    extracted m' p = extracted m p :=
  extractWalk_congr fun j hj => by
    rw [walkedBit, walkedBit, h (walk j) (walk_lt (by simpa using hj))]

/-- What an extraction finds fixes what it accesses (R171). -/
theorem extractAccesses_congr {m m' : List Host.Cell} {p : Snapshot} (h : extracted m' p = extracted m p) :
    extractAccesses m' p = extractAccesses m p := by
  simp only [extractAccesses, h]

/-! ### Two ends alike -/

namespace SameView

variable {i : Instr} {s s' : State}

/-- The bytes of a read region are the same in both memories. -/
theorem sameBytes (h : SameView i s s') {base len : Nat} (hr : ⟨base, len⟩ ∈ readRegions i s.inFlight) :
    SameBytes s.mem s'.mem base len := fun _ hk =>
  h.bytes _ ((covers_iff _ _).2 ⟨_, hr, Nat.le_add_right _ _, Nat.add_lt_add_left hk _⟩)

/-- An eager error (R236). -/
theorem fail (h : SameView i s s') (c : ErrCode) : EndsAlike s s' (s.fail c) (s'.fail c) where
  res := h.res.symm
  status := by simp [Status.failed, h.werr]
  bytes _ := .inr ⟨rfl, rfl⟩

/-- An in-flight error havocs the same bytes to the same values (R237). -/
theorem failInFlight (h : SameView i s s') {d d' : Nat} (hd : d' = d) (c : ErrCode) (rs : List Region) :
    EndsAlike s s' (State.failInFlight { s with draws := d } c rs) (State.failInFlight { s' with draws := d' } c rs) where
  res := h.res.symm
  status := by simp [Status.failed, h.werr]
  bytes a := by
    subst hd
    by_cases ha : covers rs a = true ∧ a < addrSpace
    · left
      simp [State.byteAt, read_havocRegions, ha]
    · right
      simp [State.byteAt, read_havocRegions, ha]

/-- A commit of the same results over memory as it stands (R235). -/
theorem commit (h : SameView i s s') (d d' : Nat) (r : Results) :
    EndsAlike s s' (State.commit { s with draws := d } r s.mem) (State.commit { s' with draws := d' } r s'.mem) where
  res := rfl
  status := by simp [Status.succeeded, h.werr]
  bytes _ := .inr ⟨rfl, rfl⟩

/-- A commit of the same results, and of the same bytes over one region (R235). -/
theorem commitFill (h : SameView i s s') (d d' : Nat) (r : Results) {a n : Nat} {f f' : Nat → Byte}
    (hf : ∀ x, a ≤ x → x < a + n → f x = f' x) :
    EndsAlike s s' (State.commit { s with draws := d } r (Memory.fill s.mem a n f))
      (State.commit { s' with draws := d' } r (Memory.fill s'.mem a n f')) where
  res := rfl
  status := by simp [Status.succeeded, h.werr]
  bytes x := by
    by_cases hx : a ≤ x ∧ x < a + n
    · obtain ⟨hlo, hhi⟩ := hx
      left
      simp [State.byteAt, Memory.read_fill, hlo, hhi, hf x hlo hhi]
    · exact .inr ⟨Memory.read_fill_out hx, Memory.read_fill_out hx⟩

/-! ### Two outcomes alike -/

/-- A check that a command makes (R233). -/
theorem check (h : SameView i s s') {b : Prop} [Decidable b] {c : ErrCode} {rest rest' : Host.Outcome State Fault Refusal}
    (hrest : OutcomesAlike s s' rest rest') :
    OutcomesAlike s s' (if b then .next (s.fail c) else rest) (if b then .next (s'.fail c) else rest') :=
  .choice (.next (h.fail c)) hrest

/-- The platform answers the same addresses (R70). -/
theorem allAnswered_eq (h : SameView i s s') (as : List Nat) : s'.allAnswered as = s.allAnswered as := by
  have hok : s'.memOk = s.memOk := funext fun a => by rw [State.memOk, State.memOk, h.platform]
  rw [State.allAnswered, State.allAnswered, hok]

/-- The memory phase of the same accesses: the platform decides alike which bytes are memory and which are answered, and
the same free value is drawn (R69, R70). -/
theorem memoryPhase (h : SameView i s s') {j : Instr} {accessed : List Nat} {finish finish' : State → State}
    (hf : ∀ d d', d' = d → EndsAlike s s' (finish { s with draws := d }) (finish' { s' with draws := d' })) :
    OutcomesAlike s s' (s.memoryPhase j accessed finish) (s'.memoryPhase j accessed finish') := by
  have hnon : anyOverlap (footprint j s.inFlight) s'.platform.nonMemory =
      anyOverlap (footprint j s.inFlight) s.platform.nonMemory := by rw [h.platform]
  have hopen : anyOverlap (footprint j s.inFlight) s'.platform.unanswered =
      anyOverlap (footprint j s.inFlight) s.platform.unanswered := by rw [h.platform]
  unfold State.memoryPhase
  rw [h.inFlight]
  dsimp only
  rw [hnon, h.allAnswered_eq, hopen, h.draws]
  refine .choice (fun _ hfault => nomatch hfault) (.choice (.next ?_) (.choice (.next ?_) (.next ?_)))
  · exact h.failInFlight h.draws .busError (writeRegions j s.inFlight)
  · split
    · exact h.failInFlight rfl .busError (writeRegions j s.inFlight)
    · exact hf _ _ rfl
  · exact hf _ _ h.draws

/-- A command that commits registers only. -/
theorem register (h : SameView i s s') (r : Results) :
    OutcomesAlike s s' (.next (s.commit r s.mem)) (.next (s'.commit r s'.mem)) :=
  .next (h.commit s.draws s'.draws r)

/-- The Hill commands (R103 to R106). -/
theorem exec_hill (h : SameView i s s') (hi : i ∈ hillCommands) : OutcomesAlike s s' (exec i s) (exec i s') := by
  rw [Machine.exec_hill hi, Machine.exec_hill hi, State.hillEnd, State.hillEnd, h.inFlight, h.res]
  split
  · exact .next (h.fail _)
  · exact h.register _

/-- The one-block commands (R126, R127). -/
theorem blockCommand (h : SameView i s s') (ka kb : Byte) :
    OutcomesAlike s s' (blockCommand s ka kb) (blockCommand s' ka kb) := by
  unfold Machine.blockCommand
  rw [h.inFlight, h.res]
  exact h.check (h.check (h.register _))

/-- The buffer commands (R129, R130). -/
theorem bufferCommand (h : SameView i s s') (hr : readRegions i s.inFlight = [s.inFlight.srcBlocks]) (f : Byte → Byte) :
    OutcomesAlike s s' (bufferCommand i s f) (bufferCommand i s' f) := by
  have hsrc : SameBytes s.mem s'.mem s.inFlight.src s.inFlight.byteCount :=
    h.sameBytes (hr ▸ List.mem_singleton_self _)
  unfold Machine.bufferCommand
  rw [h.inFlight]
  refine h.check (h.check (h.check (h.memoryPhase fun d d' _ => ?_)))
  rw [h.res]
  exact h.commitFill d d' s.res fun _ hlo hhi => congrArg f (hsrc _ (by omega)).symm

/-- LSB_EMBED (R170). -/
theorem execLsbEmbed (h : SameView .lsbEmbed s s') : OutcomesAlike s s' (execLsbEmbed s) (execLsbEmbed s') := by
  have hsrc : SameBytes s.mem s'.mem s.inFlight.src s.inFlight.pixelBytes := h.sameBytes (List.mem_cons_self ..)
  have hpay : SameBytes s.mem s'.mem s.inFlight.paddr s.inFlight.payloadBytes :=
    h.sameBytes (List.mem_cons_of_mem _ (List.mem_cons_self ..))
  unfold Machine.execLsbEmbed
  rw [h.inFlight]
  refine h.check (h.check (h.check (h.memoryPhase fun d d' _ => ?_)))
  rw [embedFinish, embedFinish, stegoBuffer_congr hsrc hpay, h.res, sse_congr fun q hq => ⟨hsrc q hq, rfl⟩]
  exact h.commitFill d d' _ fun _ _ _ => rfl

/-- LSB_EXTRACT finds the same bits, or none in both, and so accesses the same bytes (R171). -/
theorem execLsbExtract (h : SameView .lsbExtract s s') : OutcomesAlike s s' (execLsbExtract s) (execLsbExtract s') := by
  have hfound : extracted s'.mem s.inFlight = extracted s.mem s.inFlight :=
    extracted_congr (h.sameBytes (List.mem_singleton_self _))
  unfold Machine.execLsbExtract
  rw [h.inFlight]
  refine h.check (h.check ?_)
  rw [extractAccesses_congr hfound]
  refine h.memoryPhase fun d d' hd => ?_
  simp only [extractFinish, hfound]
  cases extracted s.mem s.inFlight with
  | some found =>
    simp only [h.res]
    exact h.commitFill d d' _ fun _ _ _ => rfl
  | none => exact h.failInFlight hd _ _

/-- PSNR_SSE (R172). -/
theorem execPsnrSse (h : SameView .psnrSse s s') : OutcomesAlike s s' (execPsnrSse s) (execPsnrSse s') := by
  have hsrc : SameBytes s.mem s'.mem s.inFlight.src s.inFlight.pixelBytes := h.sameBytes (List.mem_cons_self ..)
  have href : SameBytes s.mem s'.mem s.inFlight.ref s.inFlight.pixelBytes :=
    h.sameBytes (List.mem_cons_of_mem _ (List.mem_cons_self ..))
  unfold Machine.execPsnrSse
  rw [h.inFlight]
  refine h.check (h.memoryPhase fun d d' _ => ?_)
  rw [h.res, sse_congr fun q hq => ⟨hsrc q hq, href q hq⟩]
  exact h.commit d d' _

/-- R272, for every command. -/
theorem exec (h : SameView i s s') : OutcomesAlike s s' (exec i s) (exec i s') := by
  cases i with
  | nop =>
    simp only [Machine.exec, execNop, h.res]
    exact h.register s.res
  | hillCheck | hillInv | hillEnc | hillDec => exact h.exec_hill (by decide)
  | sdesKey =>
    simp only [Machine.exec, execSdesKey, h.inFlight, h.res]
    exact h.check (h.register _)
  | sdesEnc | sdesDec =>
    simp only [Machine.exec, execSdesEnc, execSdesDec, h.inFlight]
    exact h.blockCommand _ _
  | sdesF =>
    simp only [Machine.exec, execSdesF, h.inFlight, h.res]
    exact h.register _
  | sdesEncb | sdesDecb =>
    simp only [Machine.exec, execSdesEncb, execSdesDecb, h.inFlight]
    exact h.bufferCommand rfl _
  | lsbEmbed => exact h.execLsbEmbed
  | lsbExtract => exact h.execLsbExtract
  | psnrSse => exact h.execPsnrSse

end SameView

end Sys2Proof.Machine

namespace Sys2Proof.Proofs

open Sys2Proof.Machine

/-- Settles O50: the hypotheses are the same view of the command, and every command ends alike under it. -/
theorem outcomeDependsOnlyOnTheReadRegions : Obligations.OutcomeDependsOnlyOnTheReadRegions := by
  intro i s s' t hsnap hres hwerr hplatform hdraws hbytes h
  have hview : SameView i s s' :=
    ⟨hsnap.symm, hres.symm, hwerr.symm, hplatform.symm, hdraws.symm, fun a ha => (hbytes a ha).symm⟩
  obtain ⟨t', ht', halike⟩ := hview.exec t h
  exact ⟨t', ht', halike.res, halike.status, halike.bytes⟩

end Sys2Proof.Proofs
end

section
/-! SUPPORT. The reset (spec/10_state.md R52, spec/70_reset_and_hazards.md R260 to R264) and the register map
(spec/10_state.md section 2), and the statements about both. -/

namespace Sys2Proof

/-! ### The register map -/

/-- A register stands at its own offset only: the two directions of the map agree (spec/10_state.md section 2). -/
theorem regAt_eq_some_iff {offset : Nat} {r : Reg} : regAt offset = some r ↔ offset = regOffset r :=
  ⟨Machine.regAt_ctrl_or_status, fun h => h ▸ Machine.regAt_regOffset r⟩

/-- The registers in the order of the register map. -/
def allRegs : List Reg :=
  [.id, .ctrl, .status, .cmd, .hm00, .hm01, .hm10, .hm11, .hdet, .hdetmod, .hdetinv, .hinv, .hin, .hout, .skey, .subk,
    .sblk, .sout, .sfin, .sfout, .src, .dst, .ref, .len, .npix, .paddr, .pbits, .cap, .used, .ptouch, .sseLo, .sseHi,
    .xbits]

/-- The list of all registers misses none. -/
theorem mem_allRegs (r : Reg) : r ∈ allRegs := by
  cases r <;> decide

/-- The rows of the register map are the pairs of a register's offset and the register. -/
theorem mem_registerMap_iff {offset : Nat} {r : Reg} :
    (offset, r) ∈ allRegs.map (fun q => (regOffset q, q)) ↔ offset = regOffset r := by
  simp [mem_allRegs, eq_comm]

/-- ID is the register at offset 0, and no other register is. -/
theorem regOffset_eq_zero_iff {r : Reg} : regOffset r = 0x000 ↔ r = .id := by
  cases r <;> decide

namespace Machine

/-! ### What the registers read as after a reset -/

/-- At reset every register but ID reads 0 (R52). -/
theorem readReg_reset (r : Reg) : readReg State.reset r = if r = .id then 0x48435301 else 0 := by
  cases r <;> decide

/-- After a device reset every register reads as in the reset state, whatever the machine held (R260). -/
theorem readReg_resetDevice (s : State) (r : Reg) : readReg s.resetDevice r = readReg State.reset r := by
  cases r <;> rfl

/-- The window's words are the registers' words, so two states with the same registers answer the same reads. -/
theorem readOffset_congr {s t : State} (h : ∀ r, readReg s r = readReg t r) (offset : Nat) :
    readOffset s offset = readOffset t offset := by
  unfold readOffset
  split
  · exact h _
  · rfl

/-- At reset every offset reads 0 but ID's, the reserved ones too (R46, R52). -/
theorem readOffset_reset (offset : Nat) : readOffset State.reset offset = if offset = 0x000 then 0x48435301 else 0 := by
  cases h : regAt offset with
  | none =>
    have hid : offset ≠ 0x000 := by rintro rfl; cases h
    rw [if_neg hid, readOffset, h]
  | some r =>
    obtain rfl := regAt_eq_some_iff.1 h
    simp only [readOffset, h, readReg_reset, regOffset_eq_zero_iff]

/-- After a device reset every offset reads 0 but ID's (R52, R260). -/
theorem readOffset_resetDevice (s : State) (offset : Nat) :
    readOffset s.resetDevice offset = if offset = 0x000 then 0x48435301 else 0 :=
  (readOffset_congr (readReg_resetDevice s) offset).trans (readOffset_reset offset)

/-- The reset step resets the device unless the command it aborts lies on non-memory (R69, R260). -/
theorem resetStep_eq_next {s : State} (h : s.BusyFootprintIsMemory) : s.resetStep = .next s.resetDevice := by
  rcases resetStep_cases s with ⟨_, a, hfootprint, hdevice⟩ | ⟨_, hnext⟩
  · rw [h a hfootprint] at hdevice
    cases hdevice
  · exact hnext

end Machine

end Sys2Proof

namespace Sys2Proof.Proofs

open Sys2Proof.Machine

/-- Settles O2: both events are the one reset step, which on memory is the device reset. -/
theorem eitherResetClearsTheDevice : Obligations.EitherResetClearsTheDevice := by
  intro s v hmem hsrst
  have hrst : takeInput s .rst = .next s.resetDevice := resetStep_eq_next hmem
  have hctrl : takeInput s (.busWrite .word (s.platform.base + 0x004) v) = .next s.resetDevice :=
    (busWrite_ctrl_reset s hsrst).trans (resetStep_eq_next hmem)
  exact ⟨s.resetDevice, hrst, hctrl, readOffset_resetDevice s, rfl, rfl, fun _ ha => resetDevice_byteAt ha,
    rfl, rfl, rfl, rfl⟩

/-- Settles O1: the reads, register by register, and the reserved offsets. -/
theorem resetStateReadsZeroExceptId : Obligations.ResetStateReadsZeroExceptId :=
  ⟨readOffset_reset, rfl, rfl⟩

/-- Settles O16: the decoder inverts `regOffset`, and the 33 rows list its graph. -/
theorem registerMapIsOneToOne : Obligations.RegisterMapIsOneToOne :=
  fun _ _ => ⟨regAt_eq_some_iff, regAt_eq_some_iff.trans mem_registerMap_iff.symm⟩

end Sys2Proof.Proofs
end
